-- ==== Sys2Proof/Word.lean ====
section
/-! DEFINITION. The word of the OSHW core and its range (spec 00_scope.md R7, R8).

A word is 32 bits, two's complement signed (R5, XLEN). Bit vectors stand for what the spec lays out
as bits (words, opcode numbers, stored cells); addresses and results are exact integers (R7, R61)
and are narrowed only where a cell is written. -/

namespace Sys2Proof

/-- One numeric memory cell value: 32 bits, read as a signed integer (R7). -/
abbrev Word := BitVec 32

/-- The opcode number of an instruction cell (R111). -/
abbrev Opcode := BitVec 8

/-- A stored cell, `cell[72:0]` (R8, R110). -/
abbrev CellBits := BitVec 73

/-- `XMIN`, the least value of a word (R7). -/
def xmin : Int := -2147483648

/-- `XMAX`, the greatest value of a word (R7). -/
def xmax : Int := 2147483647

/-- The value fits a word (R71). -/
abbrev fitsWord (v : Int) : Prop := xmin ≤ v ∧ v ≤ xmax

end Sys2Proof
end

