-- ==== Sys2Proof/Syntax.lean ====
section
/-! DEFINITION. The abstract cell (spec 10_state.md R20) and the instructions
(30_encoding.md R113, opcode_table.json). -/

namespace Sys2Proof

/-- A cell: "a tagged value, either a number or instruction text" (R20). -/
inductive Cell where
  /-- A numeric cell `Num(v)`. -/
  | num (v : Word)
  /-- An instruction cell `Ins(opc, A, B)`. -/
  | ins (opc : Opcode) (a b : Word)
  deriving DecidableEq, Repr

/-- `Num(0)`, the value of every cell at reset (R46). -/
def Cell.zero : Cell := .num 0

/-- What an instruction cell can hold that decodes: one constructor per row of the opcode table
(R113). Operands are the words of fields `A` and `B`: `a`, `b` used as addresses, `v`, `t` as
literal values (R11). -/
inductive Instr where
  /-- `BLANK`, the image of a blank instruction line; its operand fields are ignored (R115, R220). -/
  | blank
  /-- `SET v a` (R170). -/
  | set (v a : Word)
  /-- `CPY a b` (R171). -/
  | cpy (a b : Word)
  /-- `CPYI a b` (R172). -/
  | cpyi (a b : Word)
  /-- `ADD a v` (R180). -/
  | add (a v : Word)
  /-- `ADDI a b` (R181). -/
  | addi (a b : Word)
  /-- `SUBI a b` (R182). -/
  | subi (a b : Word)
  /-- `JIF a t` (R200). -/
  | jif (a t : Word)
  /-- `PUSH a` (R191). -/
  | push (a : Word)
  /-- `POP a` (R192). -/
  | pop (a : Word)
  /-- `CALL t` (R201). -/
  | call (t : Word)
  /-- `RET` (R202). -/
  | ret
  /-- `HLT` (R215). -/
  | hlt
  /-- `USER a` (R216). -/
  | user (a : Word)
  /-- `SYSCALL PRN a` (R217). -/
  | syscallPrn (a : Word)
  /-- `SYSCALL HLT` (R218). -/
  | syscallHlt
  /-- `SYSCALL YIELD` (R219). -/
  | syscallYield
  /-- `MALFORMED`, the image of a known mnemonic with ill-formed operands; its operand fields are
  ignored (R116, R221). -/
  | malformed
  deriving DecidableEq, Repr

end Sys2Proof
end

