-- ==== Sys2Proof/WellFormed.lean ====
section
/-! DEFINITION. Which cells and which terms are instructions of the machine (spec 30_encoding.md
R111, R114, R117; 45_system.md R220 to R222).

An operand of any value is legal, because it is a word and every field is a full word (R110): the
type carries that. What is left to check is the kind of a term (`Instr.isInstruction`), and of a raw
instruction cell its opcode number and its reserved fields (`Cell.wellFormed`). -/

namespace Sys2Proof

/-- The term is one of the sixteen instructions (R1), and not one of the two non-instructions that
have a row of the opcode table (R220, R221). -/
def Instr.isInstruction : Instr → Bool
  | .blank => false
  | .set _ _ => true
  | .cpy _ _ => true
  | .cpyi _ _ => true
  | .add _ _ => true
  | .addi _ _ => true
  | .subi _ _ => true
  | .jif _ _ => true
  | .push _ => true
  | .pop _ => true
  | .call _ => true
  | .ret => true
  | .hlt => true
  | .user _ => true
  | .syscallPrn _ => true
  | .syscallHlt => true
  | .syscallYield => true
  | .malformed => false

/-- The operand format of an opcode number (R111). -/
inductive Format where
  /-- Both operand fields carry meaning. -/
  | v2
  /-- Field `A` carries meaning, field `B` must be zero. -/
  | v1
  /-- Both fields must be zero. -/
  | v0
  /-- Both fields are ignored: BLANK, MALFORMED and every unassigned number. -/
  | n0
  deriving DecidableEq, Repr

/-- The format of each opcode number (R111, R113). -/
def formatOf (opc : Opcode) : Format :=
  if opc.toNat ∈ [0x01, 0x02, 0x03, 0x04, 0x05, 0x06, 0x07] then .v2
  else if opc.toNat ∈ [0x08, 0x09, 0x0A, 0x0D, 0x10] then .v1
  else if opc.toNat ∈ [0x0B, 0x0C, 0x11, 0x12] then .v0
  else .n0

/-- The reserved fields of the format are zero (R114). -/
def Format.reservedZero (a b : Word) : Format → Bool
  | .v2 => true
  | .v1 => b == 0
  | .v0 => a == 0 && b == 0
  | .n0 => true

/-- The number is that of one of the sixteen instructions (R113, R117). -/
def opcodeAssigned (opc : Opcode) : Bool := formatOf opc != .n0

/-- The cell holds one of the sixteen instructions: it is an instruction cell, its opcode number is
assigned (R117) and its reserved fields are zero (R114). -/
def Cell.wellFormed : Cell → Bool
  | .num _ => false
  | .ins opc a b => opcodeAssigned opc && (formatOf opc).reservedZero a b

end Sys2Proof
end

