-- ==== Sys2Proof/Decode.lean ====
section
/-! DEFINITION. The bit layout of a stored cell, the decoder and the encoder (spec 30_encoding.md
R110 to R120). The layout and the numbers are those of R110 and R113. -/

namespace Sys2Proof

/-! ### The stored cell (R110 to R112) -/

/-- The cell that 73 stored bits hold. Bit 72 is the tag, 71:64 the opcode number, 63:32 field `A`,
31:0 field `B` or the word (R110, R111). The reserved bits 71:32 of a numeric cell are ignored (R112;
log 3). -/
def Cell.ofBits (bits : CellBits) : Cell :=
  if bits.getLsbD 72 then
    .ins (bits.extractLsb' 64 8) (bits.extractLsb' 32 32) (bits.extractLsb' 0 32)
  else .num (bits.extractLsb' 0 32)

/-- The 73 bits of a cell; the reserved bits of a numeric cell are written as 0 (R112). -/
def Cell.toBits : Cell → CellBits
  | .num v => v.setWidth 73
  | .ins opc a b => 1#1 ++ opc ++ a ++ b

/-! ### Decoding (R120) -/

/-- Why a cell is no instruction. BLANK and MALFORMED are no refusals: they are rows of the table,
with a constructor each. -/
inductive DecodeRefusal where
  /-- A numeric cell; fetching it is the fetch failure (R120, R146). -/
  | notInstruction
  /-- An unassigned opcode number; executing it raises `UnknownOpcode` (R117). -/
  | unknownOpcode (opc : Opcode)
  /-- An assigned opcode with a reserved field that is not zero; executing it raises
  `MalformedOperands` (R114). -/
  | reservedNotZero (opc : Opcode)
  deriving DecidableEq, Repr

/-- A one-operand instruction: field `B` is reserved (R111 V1, R114). -/
def oneOperand (opc : Opcode) (b : Word) (i : Instr) : Except DecodeRefusal Instr :=
  if b = 0 then .ok i else .error (.reservedNotZero opc)

/-- An instruction without operands: both fields are reserved (R111 V0, R114). -/
def noOperand (opc : Opcode) (a b : Word) (i : Instr) : Except DecodeRefusal Instr :=
  if a = 0 ∧ b = 0 then .ok i else .error (.reservedNotZero opc)

/-- The instruction an instruction cell holds (R113, R120). -/
def decodeIns (opc : Opcode) (a b : Word) : Except DecodeRefusal Instr :=
  match opc.toNat with
  | 0x00 => .ok .blank
  | 0x01 => .ok (.set a b)
  | 0x02 => .ok (.cpy a b)
  | 0x03 => .ok (.cpyi a b)
  | 0x04 => .ok (.add a b)
  | 0x05 => .ok (.addi a b)
  | 0x06 => .ok (.subi a b)
  | 0x07 => .ok (.jif a b)
  | 0x08 => oneOperand opc b (.push a)
  | 0x09 => oneOperand opc b (.pop a)
  | 0x0A => oneOperand opc b (.call a)
  | 0x0B => noOperand opc a b .ret
  | 0x0C => noOperand opc a b .hlt
  | 0x0D => oneOperand opc b (.user a)
  | 0x10 => oneOperand opc b (.syscallPrn a)
  | 0x11 => noOperand opc a b .syscallHlt
  | 0x12 => noOperand opc a b .syscallYield
  | 0xFE => .ok .malformed
  | _ => .error (.unknownOpcode opc)

/-- The instruction a cell holds (R120). -/
def decodeCell : Cell → Except DecodeRefusal Instr
  | .num _ => .error .notInstruction
  | .ins opc a b => decodeIns opc a b

/-- `decode`, total on 73-bit cells (R120). -/
def decode (bits : CellBits) : Except DecodeRefusal Instr := decodeCell (Cell.ofBits bits)

/-- What the decoder reads from an instruction given as a number, bit 0 the least significant bit of
the cell; a number of more than 73 bits is no cell. -/
def decodeTableWord (_nbits w : Nat) : Option Instr :=
  if w < 2 ^ 73 then
    match decode (BitVec.ofNat 73 w) with
    | .ok i => some i
    | .error _ => none
  else none

/-! ### Encoding (R113, R118) -/

/-- The opcode number of each row (R113). -/
def Instr.opcode : Instr → Opcode
  | .blank => 0x00
  | .set _ _ => 0x01
  | .cpy _ _ => 0x02
  | .cpyi _ _ => 0x03
  | .add _ _ => 0x04
  | .addi _ _ => 0x05
  | .subi _ _ => 0x06
  | .jif _ _ => 0x07
  | .push _ => 0x08
  | .pop _ => 0x09
  | .call _ => 0x0A
  | .ret => 0x0B
  | .hlt => 0x0C
  | .user _ => 0x0D
  | .syscallPrn _ => 0x10
  | .syscallHlt => 0x11
  | .syscallYield => 0x12
  | .malformed => 0xFE

/-- Field `A`: the first operand in assembly order, zero where it is reserved or ignored (R111,
R118). -/
def Instr.fieldA : Instr → Word
  | .blank => 0
  | .set v _ => v
  | .cpy a _ => a
  | .cpyi a _ => a
  | .add a _ => a
  | .addi a _ => a
  | .subi a _ => a
  | .jif a _ => a
  | .push a => a
  | .pop a => a
  | .call t => t
  | .ret => 0
  | .hlt => 0
  | .user a => a
  | .syscallPrn a => a
  | .syscallHlt => 0
  | .syscallYield => 0
  | .malformed => 0

/-- Field `B`: the second operand in assembly order, zero where it is reserved or ignored (R111,
R118). -/
def Instr.fieldB : Instr → Word
  | .blank => 0
  | .set _ a => a
  | .cpy _ b => b
  | .cpyi _ b => b
  | .add _ v => v
  | .addi _ b => b
  | .subi _ b => b
  | .jif _ t => t
  | .push _ => 0
  | .pop _ => 0
  | .call _ => 0
  | .ret => 0
  | .hlt => 0
  | .user _ => 0
  | .syscallPrn _ => 0
  | .syscallHlt => 0
  | .syscallYield => 0
  | .malformed => 0

/-- The instruction cell of an instruction (R118, last line). -/
def encodeCell (i : Instr) : Cell := .ins i.opcode i.fieldA i.fieldB

/-- The stored cell of an instruction; every instruction is exactly one cell (R119). -/
def encode (i : Instr) : CellBits := (encodeCell i).toBits

end Sys2Proof
end

