-- ==== Sys2Proof/Config.lean ====
section
/-! DEFINITION. The construction parameters of the OSHW core (spec 00_scope.md R5).

They are fixed when the machine is constructed (R350) and no rule changes them. The machine carries
them in a field of its state (log 1), so that every statement about every state holds for every
configuration. The spec leaves no value of a run open (R248), so there is no free value here. -/

namespace Sys2Proof

/-- The whole configuration of the hardware (R5). -/
structure Params where
  /-- `MEM_CAPACITY`: number of cells; the valid addresses are `0 .. MEM_CAPACITY - 1`. -/
  memCapacity : Nat
  /-- `VERBOSITY`: the diagnostic level; no rule reads it. -/
  verbosity : Nat
  /-- `USER_BASE`: the lowest address User mode may touch. -/
  userBase : Nat
  /-- `TT_STRIDE`: words per thread-table entry. -/
  ttStride : Nat
  /-- `MAX_THREADS`: number of thread slots, ids `1 .. MAX_THREADS`. -/
  maxThreads : Nat
  /-- `BLOCK_TICKS`: ticks a SYSCALL PRN stalls the machine. -/
  blockTicks : Nat
  /-- `HARD_CAP`: the watchdog's cap on the global tick count. -/
  hardCap : Nat
  /-- `SOFT_CAP`: the watchdog's cap on the same-PC repeat count. -/
  softCap : Nat
  deriving DecidableEq, Repr

/-- The ranges R5 gives: `7 <= MEM_CAPACITY <= 2^31 - 1` and `MAX_THREADS >= 1`. -/
abbrev Params.Valid (p : Params) : Prop :=
  7 ≤ p.memCapacity ∧ p.memCapacity ≤ 2147483647 ∧ 1 ≤ p.maxThreads

/-- The values R5 gives for `USER_BASE`, `TT_STRIDE`, `BLOCK_TICKS`, `HARD_CAP` and `SOFT_CAP`.
`MEM_CAPACITY = 2000`, `MAX_THREADS = 4` and `VERBOSITY = 0` are a DESIGN CHOICE, unsafe (log 2):
the spec leaves them to construction; 2000 and 4 are what its test vectors use. -/
def Params.standard : Params where
  memCapacity := 2000
  verbosity := 0
  userBase := 1000
  ttStride := 20
  maxThreads := 4
  blockTicks := 100
  hardCap := 100000
  softCap := 100

end Sys2Proof
end

