-- ==== Sys2Proof/Machine/State.lean ====
section
/-! DEFINITION. The state of the OSHW core as plain data (spec 10_state.md) and its value at reset
(R46, R341). -/

namespace Sys2Proof.Machine

/-- Kernel or User, one value for the whole machine (R38, R310). -/
inductive Mode where
  | kernel
  | user
  deriving DecidableEq, Repr

/-- The seven causes of a machine-fatal fault (R290, R292 to R298). -/
inductive FaultCause where
  /-- Code 1 (R292). -/
  | outOfBounds
  /-- Code 2 (R293). -/
  | protectionViolation
  /-- Code 3 (R294). -/
  | codeAsData
  /-- Code 4 (R295). -/
  | unknownOpcode
  /-- Code 5 (R296). -/
  | malformedOperands
  /-- Code 6 (R297). -/
  | arithmeticOverflow
  /-- Code 7 (R298). -/
  | invalidThreadId
  deriving DecidableEq, Repr

/-- Why the machine stopped: a fault, or one of the three normal halts (R299, R302). -/
inductive HaltCause where
  /-- A machine-fatal fault, codes 1 to 7. -/
  | fault (c : FaultCause)
  /-- Code 16: `TerminateCurrent` brought the active thread count to 0 or below. -/
  | allThreadsDone
  /-- Code 17: `switchTo` was given no thread. -/
  | noReadyThread
  /-- Code 18: the watchdog's hard cap. -/
  | watchdogHardCap
  deriving DecidableEq, Repr

/-- The fault record `(cause, addr, pc, opc, tid)` (R42, R300). `addr` is an exact integer, since an
address the hardware computes is one (R61); `none` is the record's `NONE`. -/
structure FaultRecord where
  cause : FaultCause
  addr : Int
  pc : Option Word
  opc : Option Opcode
  tid : Option Word
  deriving DecidableEq, Repr

/-- The memory: the cells that are not `Num(0)`, each with its address, in one canonical form
(`Memory.wf`). An address that is not listed reads as `Num(0)`, its value at reset (R46). The unit is
the cell, because memory is addressed by cells and never by bytes (R61, R76; log 3). -/
abbrev Memory := List (Nat × Cell)

/-- Everything a rule of the spec can read or write (10_state.md), and the construction parameters
(`cfg`; log 1). The control registers and the thread table are cells of `mem` (R26, R37). -/
structure State where
  /-- The parameters of construction; no step changes them (R5, R44). -/
  cfg : Params
  /-- The Memory Space (R22). -/
  mem : Memory
  /-- The current mode (R38). -/
  mode : Mode
  /-- The halted flag (R39). -/
  halted : Bool
  /-- The blocked-cycle countdown (R40). -/
  block : Nat
  /-- `wd_ticks`, the global tick count (R41). -/
  wdTicks : Nat
  /-- `wd_last_pc`, a word or `NONE` (R41). -/
  wdLastPc : Option Word
  /-- `wd_repeat`, the same-PC repeat count (R41). -/
  wdRepeat : Nat
  /-- `halt_cause`, `none` for code 0 (R42, R299). -/
  haltCause : Option HaltCause
  /-- The fault record, `none` for `NONE` (R42, R300). -/
  fault : Option FaultRecord
  /-- The output stream, oldest word first (R43). -/
  out : List Word
  deriving DecidableEq, Repr

/-- Reasons for which a step would leave the model. There is none: every fault of the spec is a state
it describes in full (R291), so the model takes it as a next state with the record set (log 4), and
nothing of this hardware is undefined (R248). No meaning raises one. Safe: nothing is cut short. -/
inductive Fault where
  deriving DecidableEq, Repr

/-- Reasons for which an instruction has no meaning in the model. -/
inductive Refusal where
  /-- An arm of `exec` without a meaning yet; no arm of this model raises it. Safe. -/
  | notModelled (mnemonic : String)
  deriving DecidableEq, Repr

/-- The machine right after construction with parameters `p` (R46, R341, R350). -/
def State.construct (p : Params) : State where
  cfg := p
  mem := []
  mode := .kernel
  halted := false
  block := 0
  wdTicks := 0
  wdLastPc := none
  wdRepeat := 0
  haltCause := none
  fault := none
  out := []

/-- The machine right after reset, with the parameters of `Params.standard` (log 2). -/
def State.reset : State := State.construct Params.standard

end Sys2Proof.Machine
end

