-- ==== Sys2Proof/Machine/Memory.lean ====
section
/-! DEFINITION. The Memory Space as a list in canonical form (spec 10_state.md R20 to R22, R46).

Addresses are natural numbers here; the checks that an exact integer names a cell are in Ops.lean.
The canonical form: addresses strictly rising, and no entry equal to `Num(0)`, which is what an
unlisted address reads as. -/

namespace Sys2Proof.Machine

/-- The cell at an address: the listed one, else `Num(0)` (R46). -/
def Memory.get : Memory → Nat → Cell
  | [], _ => Cell.zero
  | (k, c) :: m, a => if k = a then c else Memory.get m a

/-- The memory without its entry for an address. -/
def Memory.erase : Memory → Nat → Memory
  | [], _ => []
  | (k, c) :: m, a => if k = a then Memory.erase m a else (k, c) :: Memory.erase m a

/-- The memory with an entry put before the first greater address. -/
def Memory.insert : Memory → Nat → Cell → Memory
  | [], a, c => [(a, c)]
  | (k, d) :: m, a, c => if a < k then (a, c) :: (k, d) :: m else (k, d) :: Memory.insert m a c

/-- The memory with one cell replaced; writing `Num(0)` leaves no entry. -/
def Memory.set (m : Memory) (a : Nat) (c : Cell) : Memory :=
  if c = Cell.zero then Memory.erase m a else Memory.insert (Memory.erase m a) a c

/-- Every listed address is greater than `a`. -/
def Memory.above (m : Memory) (a : Nat) : Bool := m.all (fun e => decide (a < e.1))

/-- The canonical form: addresses strictly rising, no listed `Num(0)`. -/
def Memory.wf : Memory → Bool
  | [] => true
  | (k, c) :: m => decide (c ≠ Cell.zero) && Memory.above m k && Memory.wf m

/-- Every listed address is below the capacity (R22). -/
def Memory.within (m : Memory) (capacity : Nat) : Bool := m.all (fun e => decide (e.1 < capacity))

end Sys2Proof.Machine
end

