-- ==== Sys2Proof/Machine/Ops.lean ====
section
/-! DEFINITION. The checks, the access primitives and the fault mechanism (spec 20_memory.md,
00_scope.md R9, 60_exceptions.md R291, R300, R301).

A tick's writes are tentative until it ends (R10): a meaning computes a `Result State`, and `settle`
either commits it or takes the fault on the state the tick began with. -/

namespace Sys2Proof.Machine

/-- `raise F(info)`: the cause and what the record's `addr` holds (R291). -/
structure Raise where
  cause : FaultCause
  addr : Int
  deriving DecidableEq, Repr

/-- The result of a statement of the pseudocode: a value, or the fault it raises. -/
abbrev Result (α : Type) := Except Raise α

/-! ### Control registers (R25, R26) -/

/-- The seven control registers (R25). -/
inductive Reg where
  | pc | sp | lsr | tic | ctid | atc | ttb
  deriving DecidableEq, Repr

/-- The address of a control register: it is that cell of memory (R25, R26). -/
def Reg.addr : Reg → Nat
  | .pc => 0
  | .sp => 1
  | .lsr => 2
  | .tic => 3
  | .ctid => 4
  | .atc => 5
  | .ttb => 6

/-! ### Cells -/

/-- The abstract cell at an address, no check (R9, `mem[a]`). -/
def State.cell (s : State) (a : Nat) : Cell := s.mem.get a

/-- The state with one cell replaced, no check. -/
def State.setCell (s : State) (a : Nat) (c : Cell) : State := { s with mem := s.mem.set a c }

/-- The state with a number stored in one cell: the cell's tag becomes numeric, whatever it was
(R21, R74). -/
def State.poke (s : State) (a : Nat) (w : Word) : State := s.setCell a (.num w)

/-! ### Checks (R64, R65, R66, R71) -/

/-- `Bounds(a)` (R64). -/
def State.bounds (s : State) (a : Int) : Result Unit :=
  if a < 0 ∨ (s.cfg.memCapacity : Int) ≤ a then .error ⟨.outOfBounds, a⟩ else .ok ()

/-- `ModeOk(a)` (R65). -/
def State.modeOk (s : State) (a : Int) : Result Unit :=
  if s.mode = .user ∧ a < (s.cfg.userBase : Int) then .error ⟨.protectionViolation, a⟩ else .ok ()

/-- The word of the cell at `a`; an instruction cell is never read as a number (R66, R75). -/
def State.number (s : State) (a : Int) : Result Word :=
  match s.cell a.toNat with
  | .num v => .ok v
  | .ins _ _ _ => .error ⟨.codeAsData, a⟩

/-- `Range(a, v)`: the word of `v`, or the fault when no word holds it; nothing wraps (R71). -/
def inRange (a : Int) (v : Int) : Result Word :=
  if fitsWord v then .ok (BitVec.ofInt 32 v) else .error ⟨.arithmeticOverflow, a⟩

/-! ### Access primitives (R66 to R72) -/

/-- `MemRead(a, 1)`, the operand-class read: bounds, mode, tag (R66, R73). -/
def State.memRead (s : State) (a : Int) : Result Word := do
  s.bounds a
  s.modeOk a
  s.number a

/-- `MemWrite(a, 1, v)`, the operand-class write: bounds, mode, range (R67, R73). -/
def State.memWrite (s : State) (a : Int) (v : Int) : Result State := do
  s.bounds a
  s.modeOk a
  let w ← inRange a v
  .ok (s.poke a.toNat w)

/-- `x[i]`, the implicit read of a control register: tag check only (R68). -/
def State.reg (s : State) (r : Reg) : Result Word := s.number r.addr

/-- `x[i] <- v`, the implicit write of a control register: range check only (R69). -/
def State.setReg (s : State) (r : Reg) (v : Int) : Result State := do
  let w ← inRange r.addr v
  .ok (s.poke r.addr w)

/-- `TblRead(a)`, the implicit read of a thread-table word: bounds, tag (R70). -/
def State.tblRead (s : State) (a : Int) : Result Word := do
  s.bounds a
  s.number a

/-- `TblWrite(a, v)`, the implicit write of a thread-table word: bounds, range (R70). -/
def State.tblWrite (s : State) (a : Int) (v : Int) : Result State := do
  s.bounds a
  let w ← inRange a v
  .ok (s.poke a.toNat w)

/-- `Fetch(a)`: bounds, mode, then the whole cell, whatever its tag (R72). -/
def State.fetch (s : State) (a : Int) : Result Cell := do
  s.bounds a
  s.modeOk a
  .ok (s.cell a.toNat)

/-! ### Faults and halts (R291, R300, R301) -/

/-- The code of a fault cause (R299). -/
def FaultCause.code : FaultCause → Nat
  | .outOfBounds => 1
  | .protectionViolation => 2
  | .codeAsData => 3
  | .unknownOpcode => 4
  | .malformedOperands => 5
  | .arithmeticOverflow => 6
  | .invalidThreadId => 7

/-- The code of a halt cause (R299). -/
def HaltCause.code : HaltCause → Nat
  | .fault c => c.code
  | .allThreadsDone => 16
  | .noReadyThread => 17
  | .watchdogHardCap => 18

/-- The number in `halt_cause`; 0 while the machine is not halted (R299). -/
def State.haltCode (s : State) : Nat :=
  match s.haltCause with
  | none => 0
  | some c => c.code

/-- The word in a control register, or `NONE` where its cell is an instruction cell (R300). -/
def State.regOrNone (s : State) (r : Reg) : Option Word :=
  match s.cell r.addr with
  | .num v => some v
  | .ins _ _ _ => none

/-- The fault record: the cause and its `addr`, and the program counter and current thread id of the
state the tick began with; `opc` is the opcode number of the fetched cell, or `NONE` when the fault
came before decode (R300). -/
def State.faultRecord (s : State) (opc : Option Opcode) (e : Raise) : FaultRecord where
  cause := e.cause
  addr := e.addr
  pc := s.regOrNone .pc
  opc := opc
  tid := s.regOrNone .ctid

/-- TAKING A FAULT, the one operation (R291): nothing of the tick is kept but `halted`, `halt_cause`,
the record, and the watchdog counters, which `s` already holds as step 1 left them (R153; log 6). The
diagnostic's content is not specified and is not modelled (R4(c)). -/
def State.takeFault (s : State) (opc : Option Opcode) (e : Raise) : State :=
  { s with
    halted := true
    haltCause := some (.fault e.cause)
    fault := some (s.faultRecord opc e) }

/-- `halt(cause)`, a normal halt: the writes made so far are kept and `fault` stays as it is (R301). -/
def State.halt (s : State) (c : HaltCause) : State :=
  { s with halted := true, haltCause := some c }

/-- The end of a tick that began in `s`: commit, or discard everything and take the fault (R153). -/
def settle (opc : Option Opcode) (s : State) : Result State → State
  | .ok t => t
  | .error e => s.takeFault opc e

/-- The end of an instruction: `settle`, with the opcode number its cell has (R300). -/
def commit (opc : Option Opcode) (s : State) (r : Result State) :
    Host.Outcome State Fault Refusal :=
  .next (settle opc s r)

/-! ### The other named updates of the state -/

/-- Emit one word on the output stream (R43). -/
def State.emit (s : State) (w : Word) : State := { s with out := s.out ++ [w] }

/-- Start the stall of SYSCALL PRN (R40). -/
def State.stall (s : State) : State := { s with block := s.cfg.blockTicks }

/-- `mode <- User` (R38); nothing sets the mode back (R311). -/
def State.enterUser (s : State) : State := { s with mode := .user }

/-! ### Step 6 (R149) -/

/-- Step 6 of a tick: `PC <- PC + 1; TIC <- TIC + 1`, both read as the instruction left them (R149). -/
def State.autoAdvance (s : State) : Result State := do
  let p ← s.reg .pc
  let s1 ← s.setReg .pc (p.toInt + 1)
  let n ← s1.reg .tic
  s1.setReg .tic (n.toInt + 1)

end Sys2Proof.Machine
end

