-- ==== Sys2Proof/Machine/Operands.lean ====
section
/-! DEFINITION. The operand forms (spec 00_scope.md R11, 30_encoding.md R104, 43_stack.md R190).

An operand is a word used as an address (`a`, `b`) or as a literal value (`v`, `t`); which one is fixed
by the opcode and the position (R103, R104). A literal needs no operation: it is its signed value. -/

namespace Sys2Proof.Machine

/-- The word at a direct address operand (R66). -/
def State.readOperand (s : State) (a : Word) : Result Word := s.memRead a.toInt

/-- The word at the address held in the word at an address operand: the source form of CPYI, in which
the pointer itself is checked as an operand address (R63(a), R172). -/
def State.readIndirect (s : State) (a : Word) : Result Word := do
  let p ← s.readOperand a
  s.memRead p.toInt

/-- Store a value at a direct address operand (R67). -/
def State.writeOperand (s : State) (a : Word) (v : Int) : Result State := s.memWrite a.toInt v

/-- Push a value the stack discipline's way: store at `mem[SP]`, then subtract 1 from `SP`, which is
read again after the store. `v` is computed after `SP` is read, since the address is the first argument
of the write (R190, R191, R201, R152; log 7). -/
def State.push (s : State) (v : Result Int) : Result State := do
  let p ← s.reg .sp
  let x ← v
  let s1 ← s.memWrite p.toInt x
  let q ← s1.reg .sp
  s1.setReg .sp (q.toInt - 1)

/-- Pop a word: add 1 to `SP`, then read `mem[SP]` (R190, R192, R202). -/
def State.pop (s : State) : Result (Word × State) := do
  let p ← s.reg .sp
  let s1 ← s.setReg .sp (p.toInt + 1)
  let q ← s1.reg .sp
  let w ← s1.memRead q.toInt
  .ok (w, s1)

end Sys2Proof.Machine
end

