-- ==== Sys2Proof/Machine/Arithmetic.lean ====
section
/-! DEFINITION. ADD, ADDI, SUBI (spec 42_arithmetic.md). Results are exact integers, checked when they
are stored: a result that no word holds raises `ArithmeticOverflow` (R183, R71). All are of the
auto-increment class (R150). -/

namespace Sys2Proof.Machine

/-- `ADD a v`: add a literal to a word in memory (R180). -/
def execAdd (a v : Word) (s : State) : Host.Outcome State Fault Refusal :=
  commit (some (Instr.add a v).opcode) s (do
    let w ← s.readOperand a
    let s1 ← s.writeOperand a (w.toInt + v.toInt)
    s1.autoAdvance)

/-- `ADDI a b`: add one word in memory to another; the destination is the first operand (R181). -/
def execAddi (a b : Word) (s : State) : Host.Outcome State Fault Refusal :=
  commit (some (Instr.addi a b).opcode) s (do
    let w1 ← s.readOperand a
    let w2 ← s.readOperand b
    let s1 ← s.writeOperand a (w1.toInt + w2.toInt)
    s1.autoAdvance)

/-- `SUBI a b`: subtract; the destination is the second operand (R182). -/
def execSubi (a b : Word) (s : State) : Host.Outcome State Fault Refusal :=
  commit (some (Instr.subi a b).opcode) s (do
    let w1 ← s.readOperand a
    let w2 ← s.readOperand b
    let s1 ← s.writeOperand b (w1.toInt - w2.toInt)
    s1.autoAdvance)

end Sys2Proof.Machine
end

