-- ==== Sys2Proof/Machine/Flags.lean ====
section
/-! DEFINITION. Conditions. The hardware has no status flags, no condition codes and no predicates, and
no instruction has a flag side effect (spec 10_state.md R34). What it tests instead is a word: the
signed comparison of JIF (44_control_transfer.md R200, 42_arithmetic.md R183), a thread's state word
(10_state.md R36), a thread id (46_scheduler.md R241). -/

namespace Sys2Proof.Machine

/-- The condition of JIF: the word, signed, is at most zero; zero jumps (R200). -/
def jumpTaken (w : Word) : Bool := decide (w.toInt ≤ 0)

/-- The values of a thread's state word (R36). -/
inductive ThreadState where
  | inactive | ready | running | blocked
  deriving DecidableEq, Repr

/-- The number of a thread state: Inactive 0, Ready 1, Running 2, Blocked 3 (R36). -/
def ThreadState.code : ThreadState → Int
  | .inactive => 0
  | .ready => 1
  | .running => 2
  | .blocked => 3

/-- The state word is Ready exactly when it equals 1 (R36, R243). -/
def isReady (w : Word) : Bool := decide (w.toInt = ThreadState.ready.code)

/-- The state word is Running exactly when it equals 2 (R36, R244). -/
def isRunning (w : Word) : Bool := decide (w.toInt = ThreadState.running.code)

/-- The id names a slot: `1 <= i <= MAX_THREADS` (R241). -/
def State.validId (s : State) (i : Int) : Bool :=
  decide (1 ≤ i) && decide (i ≤ (s.cfg.maxThreads : Int))

/-- The value that stands for "no thread" (R241). -/
def noThread : Int := 0

end Sys2Proof.Machine
end

