-- ==== Sys2Proof/Machine/Scheduler.lean ====
section
/-! DEFINITION. The thread scheduler and the context-save state machine (spec 46_scheduler.md). All its
accesses are implicit: never mode-checked (R63). -/

namespace Sys2Proof.Machine

/-- The words of a slot that the hardware touches, by offset (R35). -/
inductive SlotWord where
  | state | savedPc | savedSp
  deriving DecidableEq, Repr

/-- The offset of a slot word (R35). -/
def SlotWord.offset : SlotWord → Int
  | .state => 3
  | .savedPc => 4
  | .savedSp => 5

/-- The address of a word of slot `i` for a table at `base`: an exact integer, no wrap (R240, R61). -/
def slotAddr (cfg : Params) (base : Word) (i : Int) (k : SlotWord) : Int :=
  base.toInt + (i - 1) * (cfg.ttStride : Int) + k.offset

/-- The address of a word of slot `i`, from the current value of `TTB` (R240). -/
def State.slot (s : State) (i : Int) (k : SlotWord) : Result Int := do
  let base ← s.reg .ttb
  .ok (slotAddr s.cfg base i k)

/-- Read a word of slot `i` (R70, R240). -/
def State.slotRead (s : State) (i : Int) (k : SlotWord) : Result Word := do
  let a ← s.slot i k
  s.tblRead a

/-- Write a value to a word of slot `i` (R70, R240). -/
def State.slotWrite (s : State) (i : Int) (k : SlotWord) (v : Int) : Result State := do
  let a ← s.slot i k
  s.tblWrite a v

/-- Save a control register in a word of slot `i`; the slot's address is computed before the register
is read (R242, R244; log 7). -/
def State.slotSave (s : State) (i : Int) (k : SlotWord) (r : Reg) : Result State := do
  let a ← s.slot i k
  let w ← s.reg r
  s.tblWrite a w.toInt

/-- Load a control register from a word of slot `i` (R244). -/
def State.slotLoad (s : State) (i : Int) (k : SlotWord) (r : Reg) : Result State := do
  let w ← s.slotRead i k
  s.setReg r w.toInt

/-- The current thread id, which must name a slot (R242, R245, R298). -/
def State.currentThread (s : State) : Result Int := do
  let i ← s.reg .ctid
  if s.validId i.toInt then .ok i.toInt else .error ⟨.invalidThreadId, i.toInt⟩

/-- `PersistContext()`: save the live PC and SP of the current thread. The slot's address is computed
once, before the first write (R242). -/
def persistContext (s : State) : Result State := do
  let i ← s.currentThread
  let base ← s.reg .ttb
  let p ← s.reg .pc
  let s1 ← s.tblWrite (slotAddr s.cfg base i .savedPc) p.toInt
  let q ← s1.reg .sp
  s1.tblWrite (slotAddr s.cfg base i .savedSp) q.toInt

/-- The id visited at place `j` of the scan from thread `cur`: `((cur - 1 + j) mod MAX_THREADS) + 1`,
with the floor modulus (R243). -/
def scanId (maxThreads : Nat) (cur : Int) (j : Nat) : Int :=
  (cur - 1 + (j : Int)) % (maxThreads : Int) + 1

/-- The scan of the places `j`, `j + 1`, …, as many as the first argument says: the first thread whose
state word is Ready, else none; a slot after the first Ready one is not read (R243). -/
def scanReady (s : State) (cur : Int) : Nat → Nat → Result Int
  | 0, _ => .ok noThread
  | left + 1, j => do
    let w ← s.slotRead (scanId s.cfg.maxThreads cur j) .state
    if isReady w then .ok (scanId s.cfg.maxThreads cur j) else scanReady s cur left (j + 1)

/-- `selectNextReady(cur)`: every slot once, the one after `cur` first and `cur` last (R243). -/
def selectNextReady (s : State) (cur : Int) : Result Int := scanReady s cur s.cfg.maxThreads 1

/-- The first part of `switchTo`: if the current thread is Running, save its PC and SP and mark it
Ready (R244). -/
def saveOutgoing (s : State) (c : Int) : Result State :=
  if s.validId c then do
    let w ← s.slotRead c .state
    if isRunning w then do
      let s1 ← s.slotSave c .savedPc .pc
      let s2 ← s1.slotSave c .savedSp .sp
      s2.slotWrite c .state ThreadState.ready.code
    else .ok s
  else .ok s

/-- The last part of `switchTo`: load the incoming thread and mark it Running, or halt if there is none
(R244). -/
def loadIncoming (s : State) (n : Int) : Result State :=
  if s.validId n then do
    let s1 ← s.slotLoad n .savedPc .pc
    let s2 ← s1.slotLoad n .savedSp .sp
    s2.slotWrite n .state ThreadState.running.code
  else .ok (s.halt .noReadyThread)

/-- `switchTo(n)`: make thread `n` the current thread, or halt if there is none (R244). -/
def switchTo (s : State) (n : Int) : Result State := do
  let c ← s.reg .ctid
  let s1 ← saveOutgoing s c.toInt
  let s2 ← s1.setReg .ctid n
  loadIncoming s2 n

/-- The second part of `TerminateCurrent`: halt when no thread is active, else find a successor (R245). -/
def succeed (s : State) (c : Int) : Result State := do
  let n ← s.reg .atc
  if n.toInt ≤ 0 then .ok (s.halt .allThreadsDone)
  else do
    let i ← selectNextReady s c
    switchTo s i

/-- `TerminateCurrent()`: move the current thread to Inactive, subtract 1 from `ATC`, and find a
successor (R245). It serves HLT, SYSCALL HLT, the fetch failure and the eviction (R303). -/
def terminateCurrent (s : State) : Result State := do
  let c ← s.currentThread
  let s1 ← s.slotWrite c .state ThreadState.inactive.code
  let n ← s1.reg .atc
  let s2 ← s1.setReg .atc (n.toInt - 1)
  succeed s2 c

end Sys2Proof.Machine
end

