-- ==== Sys2Proof/Machine/Control.lean ====
section
/-! DEFINITION. JIF, CALL, RET (spec 44_control_transfer.md). Each persists the context before it
changes PC; targets are not checked here but at the next fetch (R203). -/

namespace Sys2Proof.Machine

/-- `JIF a t`: jump if the word is at most zero; else step 6 (R200). -/
def execJif (a t : Word) (s : State) : Host.Outcome State Fault Refusal :=
  commit (some (Instr.jif a t).opcode) s (do
    let w ← s.readOperand a
    if jumpTaken w then do
      let s1 ← persistContext s
      s1.setReg .pc t.toInt
    else s.autoAdvance)

/-- The return address of CALL: `PC + 1` (R201). -/
def State.returnAddress (s : State) : Result Int := do
  let p ← s.reg .pc
  .ok (p.toInt + 1)

/-- `CALL t`: push the return address `PC + 1`, persist, jump (R201). -/
def execCall (t : Word) (s : State) : Host.Outcome State Fault Refusal :=
  commit (some (Instr.call t).opcode) s (do
    let s1 ← s.push s.returnAddress
    let s2 ← persistContext s1
    s2.setReg .pc t.toInt)

/-- `RET`: persist, then pop into PC (R202). -/
def execRet (s : State) : Host.Outcome State Fault Refusal :=
  commit (some Instr.ret.opcode) s (do
    let s1 ← persistContext s
    let (w, s2) ← s1.pop
    s2.setReg .pc w.toInt)

end Sys2Proof.Machine
end

