-- ==== Sys2Proof/Machine/DataMovement.lean ====
section
/-! DEFINITION. SET, CPY, CPYI (spec 41_data_movement.md). All are of the auto-increment class (R150). -/

namespace Sys2Proof.Machine

/-- `SET v a`: store a literal (R170). -/
def execSet (v a : Word) (s : State) : Host.Outcome State Fault Refusal :=
  commit (some (Instr.set v a).opcode) s (do
    let s1 ← s.writeOperand a v.toInt
    s1.autoAdvance)

/-- `CPY a b`: copy a word (R171). -/
def execCpy (a b : Word) (s : State) : Host.Outcome State Fault Refusal :=
  commit (some (Instr.cpy a b).opcode) s (do
    let w ← s.readOperand a
    let s1 ← s.writeOperand b w.toInt
    s1.autoAdvance)

/-- `CPYI a b`: copy through a pointer (R172). -/
def execCpyi (a b : Word) (s : State) : Host.Outcome State Fault Refusal :=
  commit (some (Instr.cpyi a b).opcode) s (do
    let w ← s.readIndirect a
    let s1 ← s.writeOperand b w.toInt
    s1.autoAdvance)

end Sys2Proof.Machine
end

