-- ==== Sys2Proof/Machine/Stack.lean ====
section
/-! DEFINITION. PUSH, POP (spec 43_stack.md). Both are of the auto-increment class (R150). -/

namespace Sys2Proof.Machine

/-- `PUSH a`: push a word (R191). -/
def execPush (a : Word) (s : State) : Host.Outcome State Fault Refusal :=
  commit (some (Instr.push a).opcode) s (do
    let w ← s.readOperand a
    let s1 ← s.push (.ok w.toInt)
    s1.autoAdvance)

/-- `POP a`: pop a word (R192). -/
def execPop (a : Word) (s : State) : Host.Outcome State Fault Refusal :=
  commit (some (Instr.pop a).opcode) s (do
    let (w, s1) ← s.pop
    let s2 ← s1.writeOperand a w.toInt
    s2.autoAdvance)

end Sys2Proof.Machine
end

