-- ==== Sys2Proof/Machine/System.lean ====
section
/-! DEFINITION. HLT, USER, SYSCALL PRN, SYSCALL HLT, SYSCALL YIELD, and the two non-instructions of the
opcode table, BLANK and MALFORMED (spec 45_system.md). All are of the explicit-PC class: step 6 never
applies (R150). None is privileged (R223). -/

namespace Sys2Proof.Machine

/-- `HLT`: terminate the current thread (R215). -/
def execHlt (s : State) : Host.Outcome State Fault Refusal :=
  commit (some Instr.hlt.opcode) s (terminateCurrent s)

/-- The read of USER's operand: checked as in User mode whatever the mode is, and before the mode
changes (R216). -/
def State.readAsUser (s : State) (a : Word) : Result Word := do
  s.bounds a.toInt
  s.enterUser.modeOk a.toInt
  s.number a.toInt

/-- `USER a`: enter User mode and jump through a word (R216). -/
def execUser (a : Word) (s : State) : Host.Outcome State Fault Refusal :=
  commit (some (Instr.user a).opcode) s (do
    let w ← s.readAsUser a
    let s1 ← persistContext s.enterUser
    s1.setReg .pc w.toInt)

/-- `SYSCALL PRN a`: output a word, advance PC itself, and stall the machine (R217). -/
def execSyscallPrn (a : Word) (s : State) : Host.Outcome State Fault Refusal :=
  commit (some (Instr.syscallPrn a).opcode) s (do
    let w ← s.readOperand a
    let s1 := s.emit w
    let p ← s1.reg .pc
    let s2 ← s1.setReg .pc (p.toInt + 1)
    .ok s2.stall)

/-- `SYSCALL HLT`: terminate the current thread, exactly as HLT (R218). -/
def execSyscallHlt (s : State) : Host.Outcome State Fault Refusal :=
  commit (some Instr.syscallHlt.opcode) s (terminateCurrent s)

/-- `SYSCALL YIELD`: advance PC, persist, select the next Ready thread and switch to it (R219). -/
def execSyscallYield (s : State) : Host.Outcome State Fault Refusal :=
  commit (some Instr.syscallYield.opcode) s (do
    let p ← s.reg .pc
    let s1 ← s.setReg .pc (p.toInt + 1)
    let s2 ← persistContext s1
    let c ← s2.reg .ctid
    let n ← selectNextReady s2 c.toInt
    switchTo s2 n)

/-- BLANK: the thread-local fetch failure (R220, R146). A fault inside it came before decode, so its
record has no opcode (log 5). -/
def execBlank (s : State) : Host.Outcome State Fault Refusal :=
  commit none s (terminateCurrent s)

/-- MALFORMED: raise `MalformedOperands(PC)` (R221, R296). -/
def execMalformed (s : State) : Host.Outcome State Fault Refusal :=
  commit (some Instr.malformed.opcode) s (do
    let p ← s.reg .pc
    .error ⟨.malformedOperands, p.toInt⟩)

end Sys2Proof.Machine
end

