-- ==== Sys2Proof/Machine/Dispatch.lean ====
section
/-! DEFINITION. Step 5 of a tick: one arm per row of the opcode table (spec 40_engine_tick.md R148). -/

namespace Sys2Proof.Machine

/-- What an instruction does to the state a tick has reached when it dispatches (R148). -/
def exec (i : Instr) (s : State) : Host.Outcome State Fault Refusal :=
  match i with
  | .blank => Sys2Proof.Machine.execBlank s
  | .set v a => Sys2Proof.Machine.execSet v a s
  | .cpy a b => Sys2Proof.Machine.execCpy a b s
  | .cpyi a b => Sys2Proof.Machine.execCpyi a b s
  | .add a v => Sys2Proof.Machine.execAdd a v s
  | .addi a b => Sys2Proof.Machine.execAddi a b s
  | .subi a b => Sys2Proof.Machine.execSubi a b s
  | .jif a t => Sys2Proof.Machine.execJif a t s
  | .push a => Sys2Proof.Machine.execPush a s
  | .pop a => Sys2Proof.Machine.execPop a s
  | .call t => Sys2Proof.Machine.execCall t s
  | .ret => Sys2Proof.Machine.execRet s
  | .hlt => Sys2Proof.Machine.execHlt s
  | .user a => Sys2Proof.Machine.execUser a s
  | .syscallPrn a => Sys2Proof.Machine.execSyscallPrn a s
  | .syscallHlt => Sys2Proof.Machine.execSyscallHlt s
  | .syscallYield => Sys2Proof.Machine.execSyscallYield s
  | .malformed => Sys2Proof.Machine.execMalformed s

end Sys2Proof.Machine
end

