-- ==== Sys2Proof/Machine/Engine.lean ====
section
/-! DEFINITION. Steps 0 to 4 of a tick: halted test, watchdog, blocked tick, fetch, decode (spec
40_engine_tick.md R141 to R147, R154; 47_watchdog.md). `plan` says what a tick has come to when it is
done with them; `Plan.finish` ends a tick that runs no instruction. -/

namespace Sys2Proof.Machine

/-! ### Step 1: the watchdog's counters (R271, R272) -/

/-- `wd_ticks <- wd_ticks + 1` (R271). -/
def State.countTick (s : State) : State := { s with wdTicks := s.wdTicks + 1 }

/-- The same-PC repeat count for a tick that begins at `p` (R272). -/
def State.countRepeat (s : State) (p : Word) : State :=
  { s with
    wdRepeat := if s.wdLastPc = some p then s.wdRepeat + 1 else 0
    wdLastPc := some p }

/-- `wd_repeat <- 0; wd_last_pc <- NONE` (R273). -/
def State.clearRepeat (s : State) : State := { s with wdRepeat := 0, wdLastPc := none }

/-- The eviction: end the current thread and give the next one a fresh count (R273). -/
def evictCurrent (s : State) : Result State := do
  let t ← terminateCurrent s
  .ok t.clearRepeat

/-! ### Step 2: the blocked tick (R144) -/

/-- `block <- block - 1` (R144). -/
def State.unblockOne (s : State) : State := { s with block := s.block - 1 }

/-- A tick of the stall: count down and count the tick in `TIC`; nothing is fetched (R144). -/
def blockedTick (s : State) : Result State := do
  let s1 := s.unblockOne
  let n ← s1.reg .tic
  s1.setReg .tic (n.toInt + 1)

/-! ### Steps 3 and 4: fetch and decode (R145 to R147) -/

/-- What a tick has come to before step 5. The states are those after step 1. -/
inductive Plan where
  /-- The machine is halted (R142). -/
  | idle
  /-- The hard cap trips (R271). -/
  | hardCap
  /-- A fault before an instruction runs. -/
  | raised (s : State) (opc : Option Opcode) (e : Raise)
  /-- The soft cap trips (R273). -/
  | evict (s : State)
  /-- The stall goes on (R144). -/
  | blocked (s : State)
  /-- The cell at PC is numeric (R146). -/
  | fetchFailed (s : State)
  /-- An instruction runs (R148). -/
  | run (i : Instr) (s : State)
  deriving DecidableEq, Repr

/-- Step 4 on the fetched cell (R145 to R147). BLANK runs as its row of the table (R220). -/
def planCell (p : Word) (c : Cell) (s : State) : Plan :=
  match decodeCell c with
  | .ok i => .run i s
  | .error .notInstruction => .fetchFailed s
  | .error (.unknownOpcode opc) => .raised s (some opc) ⟨.unknownOpcode, p.toInt⟩
  | .error (.reservedNotZero opc) => .raised s (some opc) ⟨.malformedOperands, p.toInt⟩

/-- The tick from the soft cap on, at program counter `p` (R273, R144, R145). -/
def planAt (p : Word) (s : State) : Plan :=
  if s.cfg.softCap < s.wdRepeat then .evict s
  else if 0 < s.block then .blocked s
  else
    match s.fetch p.toInt with
    | .error e => .raised s none e
    | .ok c => planCell p c s

/-- Steps 0 to 4 of a tick, in the order of R154. -/
def plan (s : State) : Plan :=
  if s.halted then .idle
  else if s.cfg.hardCap < s.countTick.wdTicks then .hardCap
  else
    match s.countTick.reg .pc with
    | .error e => .raised s.countTick none e
    | .ok p => planAt p (s.countTick.countRepeat p)

/-- The state after a tick that began in `s` and runs no instruction (R142, R271, R273, R144, R146,
R291). -/
def Plan.finish (s : State) : Plan → State
  | .idle => s
  | .hardCap => s.countTick.halt .watchdogHardCap
  | .raised t opc e => t.takeFault opc e
  | .evict t => settle none t (evictCurrent t)
  | .blocked t => settle none t (blockedTick t)
  | .fetchFailed t => settle none t (terminateCurrent t)
  | .run _ t => t

/-! ### Placing an instruction where the next tick fetches -/

/-- Where an instruction is put for the next tick: at PC, where PC addresses a cell above the control
registers that may be fetched; else at `USER_BASE`, or at the last cell of a smaller memory (log 9). -/
def State.fetchSpot (s : State) : Nat :=
  match s.reg .pc with
  | .error _ => fallback
  | .ok p =>
    match s.fetch p.toInt with
    | .error _ => fallback
    | .ok _ => if 7 ≤ p.toInt then p.toInt.toNat else fallback
where
  fallback : Nat :=
    if 7 ≤ s.cfg.userBase ∧ s.cfg.userBase < s.cfg.memCapacity then s.cfg.userBase
    else s.cfg.memCapacity - 1

/-- The state with a cell placed where the next tick fetches, and nothing that keeps that tick from
fetching: PC at the cell, not halted, no stall, a fresh watchdog, and Kernel mode if the cell lies below
`USER_BASE` (log 9). -/
def State.primeFetch (s : State) (c : Cell) : State :=
  { s with
    mem := (s.mem.set 0 (.num (BitVec.ofNat 32 s.fetchSpot))).set s.fetchSpot c
    mode := if s.fetchSpot < s.cfg.userBase then .kernel else s.mode
    halted := false
    block := 0
    wdTicks := 0
    wdLastPc := none
    wdRepeat := 0
    haltCause := none
    fault := none }

end Sys2Proof.Machine
end

