-- ==== Sys2Proof/Machine/Step.lean ====
section
/-! DEFINITION. One tick of the machine (spec 40_engine_tick.md R140, R154). -/

namespace Sys2Proof.Machine

/-- `tick()`: steps 0 to 4, then the instruction, if the tick runs one (R154, R351). -/
def step (s : State) : Host.Outcome State Fault Refusal :=
  match plan s with
  | .run i t => exec i t
  | p => .next (p.finish s)

/-- The state with one instruction, given as the number of its cell's bits, placed where the next tick
fetches (log 9). Loading is the only way an instruction enters the machine (R85); for a whole image see
`State.load`. -/
def State.withFetchWord (s : State) (_nbits w : Nat) : State :=
  s.primeFetch (Cell.ofBits (BitVec.ofNat 73 w))

end Sys2Proof.Machine
end

