-- ==== Sys2Proof/Machine/Assembler.lean ====
section
/-! DEFINITION. The text form of an instruction and its translation to a cell (spec 30_encoding.md R101
to R106, R118). The core executes cells (R100); this is the translation its loader owes it (R346). A text
is a list of characters. -/

namespace Sys2Proof.Machine

/-- The text of one instruction line, after its address. -/
abbrev Text := List Char

/-- Errors that keep the machine from starting at all; none is a fault of the core (R346). -/
inductive LoadError where
  /-- An integer operand outside `XMIN .. XMAX` (R103, R346). -/
  | operandOutOfRange
  /-- A data value outside `XMIN .. XMAX` (R346). -/
  | dataOutOfRange (address value : Int)
  /-- An address outside `0 .. MEM_CAPACITY - 1` (R346). -/
  | addressOutOfCapacity (address : Int)
  deriving DecidableEq, Repr

/-- The characters between tokens: space and tab (R101). -/
def isSeparator (c : Char) : Bool := c == ' ' || c == '\t'

/-- A finished token, from its characters in reverse; no token where there is no character. -/
def finishToken (cur : Text) : List Text := if cur = [] then [] else [cur.reverse]

/-- The tokens of a text, given the characters of the token being read, in reverse (R101). -/
def tokensFrom : Text → Text → List Text
  | [], cur => finishToken cur
  | c :: cs, cur =>
    if isSeparator c then finishToken cur ++ tokensFrom cs [] else tokensFrom cs (c :: cur)

/-- The tokens of a text: split at runs of spaces and tabs (R101). -/
def tokens (text : Text) : List Text := tokensFrom text []

/-- The value of a decimal digit (R103). -/
def digitValue (c : Char) : Option Nat :=
  if '0'.toNat ≤ c.toNat ∧ c.toNat ≤ '9'.toNat then some (c.toNat - '0'.toNat) else none

/-- The value of decimal digits after those already read, or none where one is no digit (R103). -/
def digitsValue : Nat → Text → Option Nat
  | n, [] => some n
  | n, c :: cs =>
    match digitValue c with
    | some d => digitsValue (10 * n + d) cs
    | none => none

/-- The value of one or more decimal digits and nothing else (R103). -/
def naturalLiteral : Text → Option Nat
  | [] => none
  | c :: cs => digitsValue 0 (c :: cs)

/-- The value of an integer literal: an optional `-`, then decimal digits (R103). -/
def integerLiteral : Text → Option Int
  | '-' :: cs => (naturalLiteral cs).map (fun n => -(n : Int))
  | cs => (naturalLiteral cs).map (fun n => (n : Int))

/-- The opcode number and the operand count of the one-word mnemonics (R102, R104, R113). -/
def plainMnemonics : List (Text × Opcode × Nat) :=
  [("SET".toList, 0x01, 2), ("CPY".toList, 0x02, 2), ("CPYI".toList, 0x03, 2),
   ("ADD".toList, 0x04, 2), ("ADDI".toList, 0x05, 2), ("SUBI".toList, 0x06, 2),
   ("JIF".toList, 0x07, 2), ("PUSH".toList, 0x08, 1), ("POP".toList, 0x09, 1),
   ("CALL".toList, 0x0A, 1), ("RET".toList, 0x0B, 0), ("HLT".toList, 0x0C, 0),
   ("USER".toList, 0x0D, 1)]

/-- The functions of SYSCALL (R102, R104, R113). -/
def syscallFunctions : List (Text × Opcode × Nat) :=
  [("PRN".toList, 0x10, 1), ("HLT".toList, 0x11, 0), ("YIELD".toList, 0x12, 0)]

/-- The opcode number, the operand count and the operand tokens of a non-blank line; none where the
opcode is unknown, which is settled before the operands are looked at (R102, R105). -/
def splitMnemonic : List Text → Option (Opcode × Nat × List Text)
  | [] => none
  | m :: rest =>
    if m = "SYSCALL".toList then
      match rest with
      | [] => none
      | f :: ops => (syscallFunctions.lookup f).map (fun e => (e.1, e.2, ops))
    else (plainMnemonics.lookup m).map (fun e => (e.1, e.2, rest))

/-- The values of the operand tokens; none where one is no integer literal (R103). -/
def operandValues : List Text → Option (List Int)
  | [] => some []
  | t :: ts =>
    match integerLiteral t, operandValues ts with
    | some v, some vs => some (v :: vs)
    | _, _ => none

/-- The word of an operand value that fits one; of a missing operand, zero (R118). -/
def operandWord (vs : List Int) (k : Nat) : Word := BitVec.ofInt 32 (vs.getD k 0)

/-- The cell of a known mnemonic with its operands (R118, from its third line on). -/
def encodeOperands (opc : Opcode) (count : Nat) (ops : List Text) : Except LoadError Cell :=
  if ops.length ≠ count then .ok (.ins 0xFE 0 0)
  else
    match operandValues ops with
    | none => .ok (.ins 0xFE 0 0)
    | some vs =>
      if vs.all (fun v => decide (fitsWord v)) then
        .ok (.ins opc (operandWord vs 0) (operandWord vs 1))
      else .error .operandOutOfRange

/-- `encode(text)`, total on any text of an instruction line (R118). -/
def encodeText (text : Text) : Except LoadError Cell :=
  match tokens text with
  | [] => .ok (.ins 0x00 0 0)
  | ts =>
    match splitMnemonic ts with
    | none => .ok (.ins 0xFF 0 0)
    | some (opc, count, ops) => encodeOperands opc count ops

end Sys2Proof.Machine
end

