-- ==== Sys2Proof/Machine/Loader.lean ====
section
/-! DEFINITION. The loader's contract and the harness's boundary (spec 70_reset_and_hazards.md R344,
R346, R350 to R353). The image's text format, its section markers and comments, is outside the core
(R4(a), R107): an image here is its data lines and its instruction lines (log 10). -/

namespace Sys2Proof.Machine

/-- A program image: data lines `(a, v)` and instruction lines `(a, text)`, in the order of the file
(R346). -/
structure Image where
  data : List (Int × Int)
  code : List (Int × Text)
  deriving DecidableEq, Repr

/-- Some instruction line has this address; then no data line of the same address is written (R346). -/
def Image.hasCodeAt (img : Image) (a : Int) : Bool := img.code.any (fun l => decide (l.1 = a))

/-- The lines with one more put among them in ascending order of address, after those of the same
address, so that the later line of the file is written later (R346). -/
def insertLine (l : Int × Text) : List (Int × Text) → List (Int × Text)
  | [] => [l]
  | k :: ks => if l.1 < k.1 then l :: k :: ks else k :: insertLine l ks

/-- The instruction lines in ascending order of address (R346). -/
def ascending (ls : List (Int × Text)) : List (Int × Text) :=
  ls.foldl (fun acc l => insertLine l acc) []

/-- Write one cell of the image: bounds-checked, not mode-checked (R85, R346). -/
def loadCell (s : State) (a : Int) (c : Cell) : Except LoadError State :=
  if a < 0 ∨ (s.cfg.memCapacity : Int) ≤ a then .error (.addressOutOfCapacity a)
  else .ok (s.setCell a.toNat c)

/-- Write the data lines that collide with no instruction line (R346). -/
def loadData (img : Image) (s : State) : List (Int × Int) → Except LoadError State
  | [] => .ok s
  | (a, v) :: ls =>
    if fitsWord v then
      if img.hasCodeAt a then loadData img s ls
      else do
        let s1 ← loadCell s a (.num (BitVec.ofInt 32 v))
        loadData img s1 ls
    else .error (.dataOutOfRange a v)

/-- Write instruction lines, in the order given (R346). -/
def loadCode (s : State) : List (Int × Text) → Except LoadError State
  | [] => .ok s
  | (a, text) :: ls => do
    let c ← encodeText text
    let s1 ← loadCell s a c
    loadCode s1 ls

/-- The loader: the data lines, then the instruction lines in ascending order of address (R346). It runs
before the first tick only (R344). -/
def State.load (s : State) (img : Image) : Except LoadError State := do
  let s1 ← loadData img s img.data
  loadCode s1 (ascending img.code)

/-- Construct and load: the machine as its first tick finds it (R344, R350, R346). -/
def boot (p : Params) (img : Image) : Except LoadError State := (State.construct p).load img

/-- `isHalted()` (R352). -/
def State.isHalted (s : State) : Bool := s.halted

end Sys2Proof.Machine
end

