-- ==== Sys2Proof/Safety.lean ====
section
/-! DEFINITION. The terms in which claims speak: the outcome of a tick (spec 40_engine_tick.md R140), the
conditions under which an access completes (20_memory.md R63 to R73), and the invariant of the machine's
state. Nothing of the machine is defined here. -/

namespace Sys2Proof.Machine

/-! ### The outcome of a tick -/

/-- The seven outcomes of a tick (R140). -/
inductive TickOutcome where
  | idle
  | hardCap
  | evicted
  | blocked
  | fetchFailed
  | executed (i : Instr)
  | faulted (c : FaultCause)
  deriving DecidableEq, Repr

/-- The outcome named by what the tick came to, if it raises no fault (R140, R220). -/
def Plan.outcome : Plan → TickOutcome
  | .idle => .idle
  | .hardCap => .hardCap
  | .raised _ _ e => .faulted e.cause
  | .evict _ => .evicted
  | .blocked _ => .blocked
  | .fetchFailed _ => .fetchFailed
  | .run .blank _ => .fetchFailed
  | .run i _ => .executed i

/-- The outcome of the next tick (R140). -/
def State.tickOutcome (s : State) : TickOutcome :=
  if s.halted then .idle
  else
    match step s with
    | .next t =>
      match t.fault with
      | some r => .faulted r.cause
      | none => (plan s).outcome
    | .fault _ => .idle
    | .refused _ => .idle

/-! ### When an access completes -/

/-- The address names a cell (R61, R64). -/
abbrev State.Mapped (s : State) (a : Int) : Prop := 0 ≤ a ∧ a < (s.cfg.memCapacity : Int)

/-- The mode admits an operand-class access or a fetch there (R65). -/
abbrev State.Allowed (s : State) (a : Int) : Prop := s.mode = .user → (s.cfg.userBase : Int) ≤ a

/-- The cell is the numeric cell of `w`. -/
abbrev State.Holds (s : State) (a : Int) (w : Word) : Prop := s.cell a.toNat = .num w

/-- The cell is an instruction cell (R20). -/
def State.isCode (s : State) (a : Int) : Bool :=
  match s.cell a.toNat with
  | .num _ => false
  | .ins _ _ _ => true

/-- The control register holds `w` (R25, R26). -/
abbrev State.HoldsReg (s : State) (r : Reg) (w : Word) : Prop := s.cell r.addr = .num w

/-- An operand-class read there gives `w` (R66). -/
abbrev State.Readable (s : State) (a : Int) (w : Word) : Prop :=
  s.Mapped a ∧ s.Allowed a ∧ s.Holds a w

/-- An operand-class write there is admitted (R67). -/
abbrev State.Writable (s : State) (a : Int) : Prop := s.Mapped a ∧ s.Allowed a

/-- An operand-class read there raises the fault `c`: the first failing check in the order bounds, mode,
tag (R66, R73). -/
abbrev State.ReadFaults (s : State) (a : Int) (c : FaultCause) : Prop :=
  (¬ s.Mapped a ∧ c = .outOfBounds) ∨
    (s.Mapped a ∧ ¬ s.Allowed a ∧ c = .protectionViolation) ∨
    (s.Mapped a ∧ s.Allowed a ∧ s.isCode a = true ∧ c = .codeAsData)

/-- An operand-class write there raises the fault `c` before its value is looked at: bounds, then mode
(R67, R73). -/
abbrev State.WriteFaults (s : State) (a : Int) (c : FaultCause) : Prop :=
  (¬ s.Mapped a ∧ c = .outOfBounds) ∨ (s.Mapped a ∧ ¬ s.Allowed a ∧ c = .protectionViolation)

/-- Step 6 can count up from program counter `p` and instruction count `n` (R149). -/
abbrev State.CountsFrom (s : State) (p n : Word) : Prop :=
  s.HoldsReg .pc p ∧ p.toInt < xmax ∧ s.HoldsReg .tic n ∧ n.toInt < xmax

/-- The state with program counter `p + 1` and instruction count `n + 1` (R149). -/
def State.advanced (s : State) (p n : Word) : State :=
  (s.poke Reg.pc.addr (p + 1)).poke Reg.tic.addr (n + 1)

/-- The state with the machine-fatal fault `(cause, addr)` taken, for the opcode number `opc` of the
fetched cell: only `halted`, `halt_cause` and the record differ (R291, R300). -/
def State.faulted (s : State) (opc : Option Opcode) (cause : FaultCause) (addr : Int) : State :=
  { s with
    halted := true
    haltCause := some (.fault cause)
    fault := some
      { cause := cause
        addr := addr
        pc := match s.cell 0 with
          | .num v => some v
          | .ins _ _ _ => none
        opc := opc
        tid := match s.cell 4 with
          | .num v => some v
          | .ins _ _ _ => none } }

/-! ### When a tick reaches its fetch -/

/-- The state a tick that begins at program counter `p` has after step 1 (R271, R272). -/
def State.watched (s : State) (p : Word) : State :=
  { s with
    wdTicks := s.wdTicks + 1
    wdRepeat := if s.wdLastPc = some p then s.wdRepeat + 1 else 0
    wdLastPc := some p }

/-- The tick gets past steps 0 to 2 at program counter `p`: not halted, no cap trips, no stall (R142,
R143, R144). -/
abbrev State.Fetching (s : State) (p : Word) : Prop :=
  s.halted = false ∧ s.wdTicks + 1 ≤ s.cfg.hardCap ∧ s.HoldsReg .pc p ∧
    (s.watched p).wdRepeat ≤ s.cfg.softCap ∧ s.block = 0

/-- The tick fetches the cell `c` at program counter `p` (R145). -/
abbrev State.Fetches (s : State) (p : Word) (c : Cell) : Prop :=
  s.Fetching p ∧ s.Mapped p.toInt ∧ s.Allowed p.toInt ∧ s.cell p.toInt.toNat = c

/-! ### The stack -/

/-- A push can be made on the stack cell at `sp`; `q` is what `SP` holds after the store (R190, R191). -/
abbrev State.CanPush (s : State) (sp v q : Word) : Prop :=
  s.HoldsReg .sp sp ∧ s.Writable sp.toInt ∧ (s.poke sp.toInt.toNat v).HoldsReg .sp q ∧
    xmin < q.toInt

/-- The state after the push of `v` (R190, R191). -/
def State.pushed (s : State) (sp v q : Word) : State :=
  (s.poke sp.toInt.toNat v).poke Reg.sp.addr (q - 1)

/-- A pop gives the word `w` (R190, R192). -/
abbrev State.CanPop (s : State) (sp w : Word) : Prop :=
  s.HoldsReg .sp sp ∧ sp.toInt < xmax ∧
    (s.poke Reg.sp.addr (sp + 1)).Readable (sp.toInt + 1) w

/-- The state after a pop (R190, R192). -/
def State.popped (s : State) (sp : Word) : State := s.poke Reg.sp.addr (sp + 1)

/-! ### Step 6 -/

/-- The pseudocode of `i` takes `s` to `u` without a fault and step 6 follows: `i` is of the
auto-increment class, or a JIF that is not taken (R149, R150). -/
def ReachesStepSix (i : Instr) (s u : State) : Prop :=
  match i with
  | .blank => False
  | .set v a => s.Writable a.toInt ∧ u = s.poke a.toInt.toNat v
  | .cpy a b => ∃ w, s.Readable a.toInt w ∧ s.Writable b.toInt ∧ u = s.poke b.toInt.toNat w
  | .cpyi a b => ∃ q w : Word, s.Readable a.toInt q ∧ s.Readable q.toInt w ∧ s.Writable b.toInt ∧
      u = s.poke b.toInt.toNat w
  | .add a v => ∃ w r : Word, s.Readable a.toInt w ∧ r.toInt = w.toInt + v.toInt ∧
      u = s.poke a.toInt.toNat r
  | .addi a b => ∃ w1 w2 r : Word, s.Readable a.toInt w1 ∧ s.Readable b.toInt w2 ∧
      r.toInt = w1.toInt + w2.toInt ∧ u = s.poke a.toInt.toNat r
  | .subi a b => ∃ w1 w2 r : Word, s.Readable a.toInt w1 ∧ s.Readable b.toInt w2 ∧
      r.toInt = w1.toInt - w2.toInt ∧ u = s.poke b.toInt.toNat r
  | .jif a _ => ∃ w, s.Readable a.toInt w ∧ 0 < w.toInt ∧ u = s
  | .push a => ∃ w sp q, s.Readable a.toInt w ∧ s.CanPush sp w q ∧ u = s.pushed sp w q
  | .pop a => ∃ w sp, s.CanPop sp w ∧ s.Writable a.toInt ∧ u = (s.popped sp).poke a.toInt.toNat w
  | .call _ => False
  | .ret => False
  | .hlt => False
  | .user _ => False
  | .syscallPrn _ => False
  | .syscallHlt => False
  | .syscallYield => False
  | .malformed => False

/-! ### The thread table -/

/-- The context of thread `i` can be persisted in the table at `base`: `p` is what `PC` holds, and `q`
what `SP` holds after the first store (R242). -/
abbrev State.CanPersist (s : State) (i base p q : Word) : Prop :=
  s.HoldsReg .ctid i ∧ s.validId i.toInt = true ∧ s.HoldsReg .ttb base ∧ s.HoldsReg .pc p ∧
    s.Mapped (slotAddr s.cfg base i.toInt .savedPc) ∧
    (s.poke (slotAddr s.cfg base i.toInt .savedPc).toNat p).HoldsReg .sp q ∧
    s.Mapped (slotAddr s.cfg base i.toInt .savedSp)

/-- The state with the context of thread `i` persisted (R242). -/
def State.persisted (s : State) (i base p q : Word) : State :=
  (s.poke (slotAddr s.cfg base i.toInt .savedPc).toNat p).poke
    (slotAddr s.cfg base i.toInt .savedSp).toNat q

/-- No word of slot `i` that the hardware touches is a control register (R343(d)). -/
abbrev SlotClear (cfg : Params) (base : Word) (i : Int) : Prop :=
  6 < slotAddr cfg base i .state ∧ 6 < slotAddr cfg base i .savedPc ∧
    6 < slotAddr cfg base i .savedSp

/-- The three words of slot `i` that the hardware touches are cells of the memory. -/
abbrev State.SlotMapped (s : State) (base : Word) (i : Int) : Prop :=
  s.Mapped (slotAddr s.cfg base i .state) ∧ s.Mapped (slotAddr s.cfg base i .savedPc) ∧
    s.Mapped (slotAddr s.cfg base i .savedSp)

/-- The words of the thread table at `base` that the hardware touches: state, saved-PC and saved-SP of
every slot (R35). -/
def InTable (cfg : Params) (base : Word) (a : Int) : Prop :=
  ∃ (i : Int) (k : SlotWord), 1 ≤ i ∧ i ≤ (cfg.maxThreads : Int) ∧ a = slotAddr cfg base i k

/-- No word of the thread table that the hardware touches is a control register (R343(d)). -/
def State.TableClear (s : State) : Prop :=
  ∀ (base : Word) (i : Int), s.HoldsReg .ttb base → 1 ≤ i → i ≤ (s.cfg.maxThreads : Int) →
    SlotClear s.cfg base i

/-- The cell holds a number that is not the one of Ready (R36). -/
def numberNotReady : Cell → Bool
  | .num w => decide (w.toInt ≠ 1)
  | .ins _ _ _ => false

/-- The slot's state word is readable and is not Ready (R36, R243). -/
abbrev State.NotReady (s : State) (base : Word) (i : Int) : Prop :=
  s.Mapped (slotAddr s.cfg base i .state) ∧
    numberNotReady (s.cell (slotAddr s.cfg base i .state).toNat) = true

/-- The slot's state word is Ready (R36, R243). -/
abbrev State.Ready (s : State) (base : Word) (i : Int) : Prop :=
  s.Mapped (slotAddr s.cfg base i .state) ∧ s.Holds (slotAddr s.cfg base i .state) 1

/-- Thread `n` is the first Ready thread after `cur` in the order `cur + 1, …, MAX_THREADS, 1, …, cur`
(R243). -/
def State.FirstReady (s : State) (base : Word) (cur n : Int) : Prop :=
  ∃ j : Nat, 1 ≤ j ∧ j ≤ s.cfg.maxThreads ∧
    n = (cur - 1 + j) % (s.cfg.maxThreads : Int) + 1 ∧ s.Ready base n ∧
    ∀ k : Nat, k < j → 1 ≤ k →
      s.NotReady base ((cur - 1 + k) % (s.cfg.maxThreads : Int) + 1)

/-- No thread is Ready (R243). -/
def State.NoneReady (s : State) (base : Word) (cur : Int) : Prop :=
  ∀ k : Nat, k ≤ s.cfg.maxThreads → 1 ≤ k →
    s.NotReady base ((cur - 1 + k) % (s.cfg.maxThreads : Int) + 1)

/-! ### What User mode must not reach -/

/-- A cell below `USER_BASE` that the hardware does not touch on its own account: not one of the control
registers it reads or writes, and no word of the thread table it touches (R25, R35, R63). -/
def State.Hidden (s : State) (a : Nat) : Prop :=
  a < s.cfg.userBase ∧ a ∉ [0, 1, 3, 4, 5, 6] ∧
    ∀ base, s.HoldsReg .ttb base → ¬ InTable s.cfg base a

/-- Two states that differ at most in cells hidden from User mode. -/
def State.SameInSight (s t : State) : Prop :=
  t = { s with mem := t.mem } ∧ ∀ a : Nat, ¬ s.Hidden a → t.cell a = s.cell a

/-! ### Operands and destinations -/

/-- The address operand an instruction accesses first, under the mode it runs in (R152). USER's is
checked as in User mode and is not listed here (R216). -/
def firstOperand : Instr → Option Word
  | .blank => none
  | .set _ a => some a
  | .cpy a _ => some a
  | .cpyi a _ => some a
  | .add a _ => some a
  | .addi a _ => some a
  | .subi a _ => some a
  | .jif a _ => some a
  | .push a => some a
  | .pop _ => none
  | .call _ => none
  | .ret => none
  | .hlt => none
  | .user _ => none
  | .syscallPrn a => some a
  | .syscallHlt => none
  | .syscallYield => none
  | .malformed => none

/-- The operand of the data movement and arithmetic instructions that is their destination (R104). -/
def destination : Instr → Option Word
  | .blank => none
  | .set _ a => some a
  | .cpy _ b => some b
  | .cpyi _ b => some b
  | .add a _ => some a
  | .addi a _ => some a
  | .subi _ b => some b
  | .jif _ _ => none
  | .push _ => none
  | .pop _ => none
  | .call _ => none
  | .ret => none
  | .hlt => none
  | .user _ => none
  | .syscallPrn _ => none
  | .syscallHlt => none
  | .syscallYield => none
  | .malformed => none

/-! ### The invariant -/

/-- The fault record and the halt cause agree with the halted flag (R42, R299, R301): a machine that
runs has neither, a machine that halted on a fault has that fault's record, and a normal halt leaves the
record empty. -/
abbrev State.RecordsAgree (s : State) : Prop :=
  match s.halted, s.haltCause, s.fault with
  | false, none, none => True
  | true, some (.fault c), some r => r.cause = c
  | true, some .allThreadsDone, none => True
  | true, some .noReadyThread, none => True
  | true, some .watchdogHardCap, none => True
  | _, _, _ => False

/-- What every step keeps: the parameters are legal (R5); the memory is in canonical form and lists no
cell beyond the capacity (R22); the counters are within the bounds of R40 and R41; the fault record and
the halt cause agree with the halted flag. -/
abbrev State.Inv (s : State) : Prop :=
  s.cfg.Valid ∧ s.mem.wf = true ∧ s.mem.within s.cfg.memCapacity = true ∧
    s.block ≤ s.cfg.blockTicks ∧ s.wdTicks ≤ s.cfg.hardCap + 1 ∧
    s.wdRepeat ≤ s.cfg.softCap + 1 ∧
    (s.halted = false → s.wdTicks ≤ s.cfg.hardCap ∧ s.wdRepeat ≤ s.cfg.softCap) ∧
    s.RecordsAgree

end Sys2Proof.Machine
end

