-- ==== Sys2Proof/Certificates/Slice0/Obligations.lean ====
section
/-! DEFINITION. The statements for the provers. Each is about every state and every configuration that
meets its hypotheses; each docstring names the rules of the spec it rests on.

A fault's addresses and a slot's words are exact integers (R61); a cell of memory is named by a natural
number. Where a statement says `t = { s with … }`, every field of the state that is not named is as it
was. -/

open Sys2Proof Sys2Proof.Machine

/-! ### Encoding -/

/-- Decoding the encoding of an instruction gives the instruction, with every operand at every value
(R111, R113, R118, R120). -/
def Obligations.DecodeOfEncodeIsTheInstruction : Prop :=
  ∀ i : Instr, decode (encode i) = .ok i

/-- A word that decodes to one of the sixteen instructions is that instruction's encoding, bit for bit
(R110, R113, R114). -/
def Obligations.AcceptedWordIsItsEncoding : Prop :=
  ∀ (bits : CellBits) (i : Instr), decode bits = .ok i → i.isInstruction = true → encode i = bits

/-- The decoder is the function of R120: numeric cell, BLANK, MALFORMED, unassigned number, reserved field
that is not zero, else the instruction of that number with those fields. -/
def Obligations.DecodeFollowsItsRule : Prop :=
  ∀ (bits : CellBits) (opc : Opcode) (a b : Word), bits.extractLsb' 64 8 = opc →
    bits.extractLsb' 32 32 = a → bits.extractLsb' 0 32 = b →
    (bits.getLsbD 72 = false → decode bits = .error .notInstruction) ∧
    (bits.getLsbD 72 = true →
      (opc = 0x00 → decode bits = .ok .blank) ∧
      (opc = 0xFE → decode bits = .ok .malformed) ∧
      (opc.toNat ∉ [0x00, 0x01, 0x02, 0x03, 0x04, 0x05, 0x06, 0x07, 0x08, 0x09, 0x0A, 0x0B, 0x0C,
          0x0D, 0x10, 0x11, 0x12, 0xFE] →
        decode bits = .error (.unknownOpcode opc)) ∧
      (opc.toNat ∈ [0x08, 0x09, 0x0A, 0x0D, 0x10] → b ≠ 0 →
        decode bits = .error (.reservedNotZero opc)) ∧
      (opc.toNat ∈ [0x0B, 0x0C, 0x11, 0x12] → (a ≠ 0 ∨ b ≠ 0) →
        decode bits = .error (.reservedNotZero opc)) ∧
      (opc.toNat ∈ [0x01, 0x02, 0x03, 0x04, 0x05, 0x06, 0x07] ∨
          (opc.toNat ∈ [0x08, 0x09, 0x0A, 0x0D, 0x10] ∧ b = 0) ∨
          (opc.toNat ∈ [0x0B, 0x0C, 0x11, 0x12] ∧ a = 0 ∧ b = 0) →
        ∃ i : Instr, decode bits = .ok i ∧ i.isInstruction = true ∧ i.opcode = opc ∧
          i.fieldA = a ∧ i.fieldB = b))

/-- A numeric cell is the word of its low 32 bits, whatever its reserved bits are, and is written with
reserved bits and tag zero (R112). -/
def Obligations.NumericCellLayout : Prop :=
  (∀ bits : CellBits, bits.getLsbD 72 = false →
    Cell.ofBits bits = .num (bits.extractLsb' 0 32)) ∧
  (∀ v : Word, (Cell.num v).toBits.extractLsb' 0 32 = v ∧
    (Cell.num v).toBits.extractLsb' 32 41 = 0)

/-- Some words written out from R113 and R118 decode to the instructions they stand for. -/
def Obligations.SampleWordsDecode : Prop :=
  decode 0x1010000000700000064#73 = .ok (.set 7 100) ∧
  decode 0x103000000C9000000CA#73 = .ok (.cpyi 201 202) ∧
  decode 0x10400000064FFFFFFFD#73 = .ok (.add 100 (-3)) ∧
  decode 0x107000000640000000A#73 = .ok (.jif 100 10) ∧
  decode 0x1080000006400000000#73 = .ok (.push 100) ∧
  decode 0x10B0000000000000000#73 = .ok .ret ∧
  decode 0x1100000006400000000#73 = .ok (.syscallPrn 100) ∧
  decode 0x1120000000000000000#73 = .ok .syscallYield

/-- A fetched cell with an unassigned opcode number faults `UnknownOpcode(PC)`; one with an assigned
number and a reserved field that is not zero faults `MalformedOperands(PC)`. Both take the fault on the
state after step 1 and record the cell's number (R114, R117, R222, R300). -/
def Obligations.UndecodableCellFaults : Prop :=
  ∀ (s : State) (p : Word) (opc : Opcode) (a b : Word), s.Fetches p (.ins opc a b) →
    (opcodeAssigned opc = false → opc ≠ 0x00 → opc ≠ 0xFE →
      step s = .next ((s.watched p).faulted (some opc) .unknownOpcode p.toInt)) ∧
    (opcodeAssigned opc = true → (formatOf opc).reservedZero a b = false →
      step s = .next ((s.watched p).faulted (some opc) .malformedOperands p.toInt))

/-! ### The loader -/

/-- After loading, a cell holds the last instruction line of its address, encoded; without one, the last
data line of its address; without either, what it held (R346). -/
def Obligations.LoaderGivesInstructionsPriority : Prop :=
  ∀ (s t : State) (img : Image), s.load img = .ok t →
    (∀ (a : Int) (text : Text), (img.code.filter (fun l => l.1 = a)).getLast? = some (a, text) →
      ∃ c, encodeText text = .ok c ∧ t.cell a.toNat = c) ∧
    (∀ a v : Int, img.hasCodeAt a = false →
      (img.data.filter (fun l => l.1 = a)).getLast? = some (a, v) →
      fitsWord v ∧ t.cell a.toNat = .num (BitVec.ofInt 32 v)) ∧
    (∀ n : Nat, img.hasCodeAt n = false → img.data.filter (fun l => l.1 = (n : Int)) = [] →
      t.cell n = s.cell n) ∧
    t = { s with mem := t.mem }

/-! ### One tick -/

/-- When the cell at the program counter decodes to an instruction and the tick gets to its fetch, the
tick is that instruction on the state after step 1, in which only the watchdog's counters have moved
(R145, R148, R154). -/
def Obligations.StepRunsTheDecodedInstruction : Prop :=
  ∀ (s : State) (p : Word) (c : Cell) (i : Instr), s.Fetches p c → decodeCell c = .ok i →
    step s = exec i (s.watched p)

/-- A halted machine does nothing (R142). -/
def Obligations.HaltedTickDoesNothing : Prop :=
  ∀ s : State, s.halted = true → step s = .next s ∧ s.tickOutcome = .idle

/-- The hard cap: the tick that counts past it halts and changes nothing else; every tick of a machine
that is not halted counts, and the count never exceeds `HARD_CAP + 1` (R271). -/
def Obligations.HardCapHalts : Prop :=
  (∀ s : State, s.halted = false → s.cfg.hardCap < s.wdTicks + 1 →
    step s = .next { s with
      wdTicks := s.wdTicks + 1
      halted := true
      haltCause := some .watchdogHardCap }) ∧
  (∀ s t : State, s.halted = false → step s = .next t →
    t.wdTicks = s.wdTicks + 1 ∧ t.cfg = s.cfg) ∧
  (∀ s t : State, (s.halted = false → s.wdTicks ≤ s.cfg.hardCap) →
    s.wdTicks ≤ s.cfg.hardCap + 1 → step s = .next t → t.wdTicks ≤ t.cfg.hardCap + 1)

/-- The same-PC repeat count: a tick that is not an eviction leaves it one higher where the program
counter is that of the tick before, and 0 otherwise, with the program counter remembered; an unreadable
program counter faults `CodeAsData(0)` with the count as it was (R272). -/
def Obligations.RepeatCountFollowsThePc : Prop :=
  (∀ (s t : State) (p : Word), s.halted = false → s.wdTicks + 1 ≤ s.cfg.hardCap →
    s.HoldsReg .pc p → (s.watched p).wdRepeat ≤ s.cfg.softCap → step s = .next t →
    t.wdLastPc = some p ∧
      (s.wdLastPc = some p → t.wdRepeat = s.wdRepeat + 1) ∧
      (s.wdLastPc ≠ some p → t.wdRepeat = 0)) ∧
  (∀ (s : State) (o : Opcode) (x y : Word), s.halted = false → s.wdTicks + 1 ≤ s.cfg.hardCap →
    s.cell 0 = .ins o x y →
    step s = .next (({ s with wdTicks := s.wdTicks + 1 } : State).faulted none .codeAsData 0))

/-- The soft cap: when the repeat count exceeds it the tick terminates the current thread, clears the
repeat count and fetches nothing (R273); a fault inside discards what the termination did (R291). That the
watchdog's counters then stay as step 1 counted them, and are not cleared, is the model's reading (log 6,
DEDUCED). -/
def Obligations.SoftCapEvicts : Prop :=
  ∀ (s : State) (p : Word), s.halted = false → s.wdTicks + 1 ≤ s.cfg.hardCap →
    s.HoldsReg .pc p → s.cfg.softCap < (s.watched p).wdRepeat →
    (∀ u, terminateCurrent (s.watched p) = .ok u →
      step s = .next { u with wdRepeat := 0, wdLastPc := none }) ∧
    (∀ e, terminateCurrent (s.watched p) = .error e →
      step s = .next ((s.watched p).faulted none e.cause e.addr))

/-- A blocked tick: the countdown goes down by 1, `TIC` up by 1, nothing else moves but the watchdog;
where `TIC` cannot go up the tick faults and the countdown keeps its value (R144). -/
def Obligations.BlockedTickCountsDown : Prop :=
  ∀ (s : State) (p n : Word), s.halted = false → s.wdTicks + 1 ≤ s.cfg.hardCap →
    s.HoldsReg .pc p → (s.watched p).wdRepeat ≤ s.cfg.softCap → 0 < s.block →
    s.HoldsReg .tic n →
    (n.toInt < xmax →
      step s = .next { s.watched p with
        block := s.block - 1
        mem := s.mem.set 3 (.num (n + 1)) }) ∧
    (n.toInt = xmax →
      step s = .next ((s.watched p).faulted none .arithmeticOverflow 3))

/-- The stall lasts exactly as many ticks as the countdown says: after them the countdown is 0, the
program counter has not moved, `TIC` is that many higher, and nothing else of memory has changed (R144,
R217, R317). The soft cap must not trip: the repeat count that the first of these ticks counts, and the
`n - 1` it then grows by, stay within `SOFT_CAP`; a stall entered at a new program counter begins with the
count 0, however high the old one was (R274). -/
def Obligations.StallLastsItsCount : Prop :=
  ∀ (n : Nat) (s : State) (p c : Word), s.halted = false → s.block = n → s.HoldsReg .pc p →
    s.HoldsReg .tic c → c.toInt + n ≤ xmax → s.wdTicks + n ≤ s.cfg.hardCap →
    (s.watched p).wdRepeat + n ≤ s.cfg.softCap + 1 →
    ∃ t : State, Host.Core.run Sys2Proof.core n s = .next t ∧
      t.block = 0 ∧ t.halted = false ∧ t.wdTicks = s.wdTicks + n ∧ t.mode = s.mode ∧
      t.out = s.out ∧ t.HoldsReg .tic (BitVec.ofInt 32 (c.toInt + n)) ∧
      ∀ a : Nat, a ≠ 3 → t.cell a = s.cell a

/-- The fetch: a program counter outside the memory faults `OutOfBounds`, and one below `USER_BASE` in
User mode faults `ProtectionViolation`; neither is thread-local (R72, R145, R203). -/
def Obligations.FetchIsChecked : Prop :=
  ∀ (s : State) (p : Word), s.Fetching p →
    (¬ s.Mapped p.toInt →
      step s = .next ((s.watched p).faulted none .outOfBounds p.toInt)) ∧
    (s.Mapped p.toInt → ¬ s.Allowed p.toInt →
      step s = .next ((s.watched p).faulted none .protectionViolation p.toInt))

/-- The fetch failure: where the cell at the program counter is numeric the tick terminates the current
thread and ends (R146). -/
def Obligations.FetchFailureEndsTheThread : Prop :=
  ∀ (s : State) (p v : Word), s.Fetches p (.num v) →
    (∀ u, terminateCurrent (s.watched p) = .ok u → step s = .next u) ∧
    (∀ e, terminateCurrent (s.watched p) = .error e →
      step s = .next ((s.watched p).faulted none e.cause e.addr))

/-- A tick that ends in a fault keeps nothing of what it did: the state is the one before it, but for the
halted flag, the halt cause, the record, and the watchdog's counters. The record holds the program counter
and the thread id the tick began with (R291, R153, R300). -/
def Obligations.FaultKeepsNothingOfTheTick : Prop :=
  ∀ s t : State, s.halted = false → s.fault = none → step s = .next t → t.fault ≠ none →
    ∃ r : FaultRecord,
      t = { s with
        wdTicks := t.wdTicks
        wdLastPc := t.wdLastPc
        wdRepeat := t.wdRepeat
        halted := true
        haltCause := some (.fault r.cause)
        fault := some r } ∧
      (∀ p, r.pc = some p ↔ s.HoldsReg .pc p) ∧ (∀ i, r.tid = some i ↔ s.HoldsReg .ctid i)

/-- Whatever the memory holds, a machine whose tick count is 0 is halted after `HARD_CAP + 1` ticks, none
of which leaves the model (R371, R271). -/
def Obligations.MachineHaltsWithinTheHardCap : Prop :=
  ∀ s : State, s.wdTicks = 0 →
    ∃ t : State, Host.Core.run Sys2Proof.core (s.cfg.hardCap + 1) s = .next t ∧ t.halted = true

/-! ### Invariants -/

/-- The machine right after reset meets the invariant, and so does the machine constructed with any legal
parameters; constructed with any parameters it has the values R341 gives: every cell `Num(0)`, Kernel mode,
not halted, the counters 0, no halt cause, no record, no output (R46, R341). `State.reset` has the constants
of R5. The invariant is the model's own, and so are `State.reset`'s `MEM_CAPACITY` and `MAX_THREADS`
(log 2, DESIGN CHOICE), on which the first clause rests. -/
def Obligations.ResetMeetsTheInvariant : Prop :=
  State.reset.Inv ∧ (∀ p : Params, p.Valid → (State.construct p).Inv) ∧
    State.reset = State.construct State.reset.cfg ∧ State.reset.cfg.userBase = 1000 ∧
    State.reset.cfg.ttStride = 20 ∧ State.reset.cfg.blockTicks = 100 ∧
    State.reset.cfg.hardCap = 100000 ∧ State.reset.cfg.softCap = 100 ∧
    ∀ p : Params, (State.construct p).cfg = p ∧ (∀ a : Nat, (State.construct p).cell a = .num 0) ∧
      (State.construct p).mode = .kernel ∧ (State.construct p).halted = false ∧
      (State.construct p).block = 0 ∧ (State.construct p).wdTicks = 0 ∧
      (State.construct p).wdLastPc = none ∧ (State.construct p).wdRepeat = 0 ∧
      (State.construct p).haltCause = none ∧ (State.construct p).fault = none ∧
      (State.construct p).out = []

/-- Loading an image keeps the invariant. -/
def Obligations.LoadKeepsTheInvariant : Prop :=
  ∀ (s t : State) (img : Image), s.Inv → s.load img = .ok t → t.Inv

/-- Every step keeps the invariant: the memory in canonical form and inside the capacity (R22), the
countdown and the watchdog's counters within their bounds (R40, R41), the fault record and the halt cause
in agreement with the halted flag (R42, R299, R301). -/
def Obligations.StepKeepsTheInvariant : Prop :=
  ∀ s t : State, s.Inv → step s = .next t → t.Inv

/-- The mode: Kernel at reset; User mode is never left; Kernel mode is left only by a tick that runs the
USER instruction; and a USER that does not fault ends in User mode (R311). -/
def Obligations.ModeTransitions : Prop :=
  (∀ p : Params, (State.construct p).mode = .kernel) ∧
  (∀ s t : State, step s = .next t → s.mode = .user → t.mode = .user) ∧
  (∀ s t : State, step s = .next t → s.mode = .kernel → t.mode = .user →
    ∃ (p a : Word) (c : Cell), s.Fetches p c ∧ decodeCell c = .ok (.user a)) ∧
  (∀ (a : Word) (s t : State), exec (.user a) s = .next t → t.fault = none → t.mode = .user)

/-- Every store of a step is a number: a cell that differs after it is numeric, so no step makes or
alters an instruction cell (R74, R83). -/
def Obligations.StepStoresOnlyNumbers : Prop :=
  ∀ s t : State, step s = .next t → ∀ a : Nat, t.cell a = s.cell a ∨ ∃ v, t.cell a = .num v

/-- In User mode no step changes a cell below `USER_BASE` other than the control registers and the words
of the thread table that the hardware touches on its own account (R45(b), R63, R65). -/
def Obligations.UserModeConfinesStores : Prop :=
  ∀ s t : State, s.mode = .user → 7 ≤ s.cfg.userBase → s.TableClear → step s = .next t →
    ∀ a : Nat, s.Hidden a → t.cell a = s.cell a

/-- In User mode no step reads such a cell: two machines that differ only there stay alike everywhere
else (R45(b), R63, R65, R72). -/
def Obligations.UserModeReadsNothingHidden : Prop :=
  ∀ s1 s2 t1 t2 : State, s1.mode = .user → 7 ≤ s1.cfg.userBase → s1.TableClear →
    s1.SameInSight s2 → step s1 = .next t1 → step s2 = .next t2 →
    t2 = { t1 with mem := t2.mem } ∧ ∀ a : Nat, ¬ s1.Hidden a → t2.cell a = t1.cell a

/-- The output stream: a step leaves it as it is, or is a SYSCALL PRN that appends the word it reads
(R43, R217). -/
def Obligations.OutputOnlyBySyscallPrn : Prop :=
  ∀ s t : State, step s = .next t →
    t.out = s.out ∨
      ∃ (p a w : Word) (c : Cell), s.Fetches p c ∧ decodeCell c = .ok (.syscallPrn a) ∧
        s.Readable a.toInt w ∧ t.out = s.out ++ [w]

/-! ### Access primitives -/

/-- The operand-class read: bounds, then mode, then tag (R64, R65, R66). -/
def Obligations.OperandReadIsChecked : Prop :=
  ∀ (s : State) (a : Int),
    ((a < 0 ∨ (s.cfg.memCapacity : Int) ≤ a) → s.memRead a = .error ⟨.outOfBounds, a⟩) ∧
    (0 ≤ a → a < (s.cfg.memCapacity : Int) →
      (s.mode = .user → a < (s.cfg.userBase : Int) →
        s.memRead a = .error ⟨.protectionViolation, a⟩) ∧
      ((s.mode = .kernel ∨ (s.cfg.userBase : Int) ≤ a) →
        (∀ o x y, s.cell a.toNat = .ins o x y → s.memRead a = .error ⟨.codeAsData, a⟩) ∧
        (∀ v, s.cell a.toNat = .num v → s.memRead a = .ok v)))

/-- The operand-class write: bounds, then mode, then range; the old content plays no part and the cell
becomes numeric (R64, R65, R67, R71). -/
def Obligations.OperandWriteIsChecked : Prop :=
  ∀ (s : State) (a v : Int),
    ((a < 0 ∨ (s.cfg.memCapacity : Int) ≤ a) → s.memWrite a v = .error ⟨.outOfBounds, a⟩) ∧
    (0 ≤ a → a < (s.cfg.memCapacity : Int) →
      (s.mode = .user → a < (s.cfg.userBase : Int) →
        s.memWrite a v = .error ⟨.protectionViolation, a⟩) ∧
      ((s.mode = .kernel ∨ (s.cfg.userBase : Int) ≤ a) →
        ((v < xmin ∨ xmax < v) → s.memWrite a v = .error ⟨.arithmeticOverflow, a⟩) ∧
        (xmin ≤ v → v ≤ xmax →
          ∃ (w : Word) (t : State), w.toInt = v ∧ s.memWrite a v = .ok t ∧
            t = { s with mem := t.mem } ∧ t.cell a.toNat = .num w ∧
            ∀ b : Nat, b ≠ a.toNat → t.cell b = s.cell b)))

/-- The implicit accesses to a control register: a tag check or a range check, and no mode check (R68,
R69). -/
def Obligations.RegisterAccessIsNotModeChecked : Prop :=
  ∀ (s : State) (r : Reg),
    (∀ o x y, s.cell r.addr = .ins o x y → s.reg r = .error ⟨.codeAsData, r.addr⟩) ∧
    (∀ v, s.cell r.addr = .num v → s.reg r = .ok v) ∧
    (∀ v : Int, (v < xmin ∨ xmax < v) →
      s.setReg r v = .error ⟨.arithmeticOverflow, r.addr⟩) ∧
    (∀ v : Int, xmin ≤ v → v ≤ xmax →
      ∃ (w : Word) (t : State), w.toInt = v ∧ s.setReg r v = .ok t ∧
        t = { s with mem := t.mem } ∧ t.cell r.addr = .num w ∧
        ∀ b : Nat, b ≠ r.addr → t.cell b = s.cell b)

/-- The implicit accesses to a thread-table word: bounds, then tag or range, and no mode check (R70). -/
def Obligations.TableAccessIsNotModeChecked : Prop :=
  ∀ (s : State) (a : Int),
    ((a < 0 ∨ (s.cfg.memCapacity : Int) ≤ a) →
      s.tblRead a = .error ⟨.outOfBounds, a⟩ ∧
      ∀ v : Int, s.tblWrite a v = .error ⟨.outOfBounds, a⟩) ∧
    (0 ≤ a → a < (s.cfg.memCapacity : Int) →
      (∀ o x y, s.cell a.toNat = .ins o x y → s.tblRead a = .error ⟨.codeAsData, a⟩) ∧
      (∀ v, s.cell a.toNat = .num v → s.tblRead a = .ok v) ∧
      (∀ v : Int, (v < xmin ∨ xmax < v) → s.tblWrite a v = .error ⟨.arithmeticOverflow, a⟩) ∧
      (∀ v : Int, xmin ≤ v → v ≤ xmax →
        ∃ (w : Word) (t : State), w.toInt = v ∧ s.tblWrite a v = .ok t ∧
          t = { s with mem := t.mem } ∧ t.cell a.toNat = .num w ∧
          ∀ b : Nat, b ≠ a.toNat → t.cell b = s.cell b))

/-! ### The scheduler -/

/-- Word `k` of slot `i` is at `TTB + (i - 1) * TT_STRIDE + k`, an exact integer, with the state at 3, the
saved PC at 4 and the saved SP at 5 (R35, R240). Persisting the context stores PC and then SP in the current
thread's slot and writes nothing else; with a thread id that names no slot, or a slot word outside the
memory, it faults (R242). -/
def Obligations.PersistStoresPcAndSp : Prop :=
  (∀ (s : State) (base : Word) (i : Int), s.HoldsReg .ttb base →
    s.slot i .state = .ok (base.toInt + (i - 1) * s.cfg.ttStride + 3) ∧
    s.slot i .savedPc = .ok (base.toInt + (i - 1) * s.cfg.ttStride + 4) ∧
    s.slot i .savedSp = .ok (base.toInt + (i - 1) * s.cfg.ttStride + 5) ∧
    ∀ k : SlotWord, s.slot i k = .ok (slotAddr s.cfg base i k)) ∧
  (∀ (s : State) (i base p q : Word), s.CanPersist i base p q →
    ∃ t : State, persistContext s = .ok t ∧ t = { s with mem := t.mem } ∧
      t.Holds (base.toInt + (i.toInt - 1) * s.cfg.ttStride + 4) p ∧
      t.Holds (base.toInt + (i.toInt - 1) * s.cfg.ttStride + 5) q ∧
      ∀ a : Nat, (a : Int) ≠ base.toInt + (i.toInt - 1) * s.cfg.ttStride + 4 →
        (a : Int) ≠ base.toInt + (i.toInt - 1) * s.cfg.ttStride + 5 → t.cell a = s.cell a) ∧
  (∀ (s : State) (i : Word), s.HoldsReg .ctid i →
    (i.toInt < 1 ∨ (s.cfg.maxThreads : Int) < i.toInt) →
    persistContext s = .error ⟨.invalidThreadId, i.toInt⟩) ∧
  (∀ (s : State) (i base p : Word), s.HoldsReg .ctid i → s.validId i.toInt = true →
    s.HoldsReg .ttb base → s.HoldsReg .pc p →
    (¬ s.Mapped (slotAddr s.cfg base i.toInt .savedPc) →
      persistContext s = .error ⟨.outOfBounds, slotAddr s.cfg base i.toInt .savedPc⟩) ∧
    ∀ q : Word, s.Mapped (slotAddr s.cfg base i.toInt .savedPc) →
      (s.poke (slotAddr s.cfg base i.toInt .savedPc).toNat p).HoldsReg .sp q →
      ¬ s.Mapped (slotAddr s.cfg base i.toInt .savedSp) →
      persistContext s = .error ⟨.outOfBounds, slotAddr s.cfg base i.toInt .savedSp⟩)

/-- The scan picks the first Ready thread in the order `cur + 1, …, MAX_THREADS, 1, …, cur`, or none
where no thread is Ready (R243). -/
def Obligations.ScanPicksTheFirstReady : Prop :=
  ∀ (s : State) (base : Word) (cur n : Int), s.HoldsReg .ttb base →
    (s.FirstReady base cur n → selectNextReady s cur = .ok n) ∧
    (s.NoneReady base cur → selectNextReady s cur = .ok 0)

/-! ### Data movement and arithmetic -/

/-- `SET v a` stores `v` at `a` and counts up, for every `a` it may write, the control registers among
them (R170, R149). -/
def Obligations.SetStoresTheLiteral : Prop :=
  ∀ (v a : Word) (s : State) (p n : Word), s.Writable a.toInt →
    (s.poke a.toInt.toNat v).CountsFrom p n →
    exec (.set v a) s = .next ((s.poke a.toInt.toNat v).advanced p n)

/-- `CPY a b` stores the word at `a` at `b` and counts up (R171, R149). -/
def Obligations.CpyCopiesTheWord : Prop :=
  ∀ (a b w : Word) (s : State) (p n : Word), s.Readable a.toInt w → s.Writable b.toInt →
    (s.poke b.toInt.toNat w).CountsFrom p n →
    exec (.cpy a b) s = .next ((s.poke b.toInt.toNat w).advanced p n)

/-- `CPYI a b` stores the word at the address held at `a` at `b` and counts up (R172, R149). -/
def Obligations.CpyiCopiesThroughThePointer : Prop :=
  ∀ (a b q w : Word) (s : State) (p n : Word), s.Readable a.toInt q → s.Readable q.toInt w →
    s.Writable b.toInt → (s.poke b.toInt.toNat w).CountsFrom p n →
    exec (.cpyi a b) s = .next ((s.poke b.toInt.toNat w).advanced p n)

/-- `ADD a v` adds the literal to the word at `a` and counts up, where the exact sum fits a word (R180,
R183, R149). -/
def Obligations.AddAddsTheLiteral : Prop :=
  ∀ (a v w r : Word) (s : State) (p n : Word), s.Readable a.toInt w →
    r.toInt = w.toInt + v.toInt → (s.poke a.toInt.toNat r).CountsFrom p n →
    exec (.add a v) s = .next ((s.poke a.toInt.toNat r).advanced p n)

/-- `ADDI a b` adds the word at `b` to the word at `a` and counts up, where the exact sum fits a word
(R181, R183, R149). -/
def Obligations.AddiAddsIntoTheFirst : Prop :=
  ∀ (a b w1 w2 r : Word) (s : State) (p n : Word), s.Readable a.toInt w1 →
    s.Readable b.toInt w2 → r.toInt = w1.toInt + w2.toInt →
    (s.poke a.toInt.toNat r).CountsFrom p n →
    exec (.addi a b) s = .next ((s.poke a.toInt.toNat r).advanced p n)

/-- `SUBI a b` stores the word at `a` minus the word at `b` at `b` and counts up, where the exact
difference fits a word (R182, R183, R149). -/
def Obligations.SubiSubtractsIntoTheSecond : Prop :=
  ∀ (a b w1 w2 r : Word) (s : State) (p n : Word), s.Readable a.toInt w1 →
    s.Readable b.toInt w2 → r.toInt = w1.toInt - w2.toInt →
    (s.poke b.toInt.toNat r).CountsFrom p n →
    exec (.subi a b) s = .next ((s.poke b.toInt.toNat r).advanced p n)

/-! ### Stack -/

/-- `PUSH a` stores the word at `a` at `mem[SP]`, subtracts 1 from SP as it then is, and counts up (R191,
R190, R149). -/
def Obligations.PushStoresOnTheStack : Prop :=
  ∀ (a w sp q : Word) (s : State) (p n : Word), s.Readable a.toInt w → s.CanPush sp w q →
    (s.pushed sp w q).CountsFrom p n →
    exec (.push a) s = .next ((s.pushed sp w q).advanced p n)

/-- `POP a` adds 1 to SP, stores the word at `mem[SP]` at `a`, and counts up (R192, R190, R149). -/
def Obligations.PopTakesFromTheStack : Prop :=
  ∀ (a w sp : Word) (s : State) (p n : Word), s.CanPop sp w → s.Writable a.toInt →
    ((s.popped sp).poke a.toInt.toNat w).CountsFrom p n →
    exec (.pop a) s = .next (((s.popped sp).poke a.toInt.toNat w).advanced p n)

/-- `PUSH a` and then `POP c` leaves at `c` the word that was at `a`, and SP as it was (S5 of the test
vectors; R191, R192). The stack cell and `c` are none of the registers the two instructions use. -/
def Obligations.PushThenPopRestores : Prop :=
  ∀ (a c w sp p n : Word) (s : State), s.Readable a.toInt w → s.HoldsReg .sp sp →
    s.Writable sp.toInt → s.Writable c.toInt → 3 < sp.toInt → 3 < c.toInt →
    s.HoldsReg .pc p → p.toInt + 2 ≤ xmax → s.HoldsReg .tic n → n.toInt + 2 ≤ xmax →
    ∃ u v : State, exec (.push a) s = .next u ∧ exec (.pop c) u = .next v ∧
      v.Holds c.toInt w ∧ v.HoldsReg .sp sp ∧ v.HoldsReg .pc (p + 2) ∧ v.HoldsReg .tic (n + 2) ∧
      (sp ≠ c → v.Holds sp.toInt w) ∧
      ∀ b : Nat, b ∉ [0, 1, 3] → (b : Int) ≠ sp.toInt → (b : Int) ≠ c.toInt → v.cell b = s.cell b

/-! ### Control transfer -/

/-- `JIF a t`: where the word at `a` is at most 0, the context is persisted with the address of the JIF
and then PC is `t`, `TIC` unchanged; where it is above 0, nothing is persisted and the tick counts up
(R200, R150). -/
def Obligations.JifJumpsOnNonPositive : Prop :=
  (∀ (a t w i base p q : Word) (s : State), s.Readable a.toInt w → w.toInt ≤ 0 →
    s.CanPersist i base p q →
    exec (.jif a t) s = .next ((s.persisted i base p q).poke Reg.pc.addr t)) ∧
  (∀ (a t w p n : Word) (s : State), s.Readable a.toInt w → 0 < w.toInt → s.CountsFrom p n →
    exec (.jif a t) s = .next (s.advanced p n))

/-- `CALL t` pushes `PC + 1`, persists the context as it then is, and jumps (R201, R150). -/
def Obligations.CallPushesAndJumps : Prop :=
  ∀ (t sp p q i base p' q' : Word) (s : State), s.HoldsReg .pc p → p.toInt < xmax →
    s.CanPush sp (p + 1) q → (s.pushed sp (p + 1) q).CanPersist i base p' q' →
    exec (.call t) s =
      .next (((s.pushed sp (p + 1) q).persisted i base p' q').poke Reg.pc.addr t)

/-- `RET` persists the context, then pops into PC, `TIC` unchanged (R202, R150). -/
def Obligations.RetPopsIntoPc : Prop :=
  ∀ (i base p q sp w : Word) (s : State), s.CanPersist i base p q →
    (s.persisted i base p q).CanPop sp w →
    exec .ret s = .next (((s.persisted i base p q).popped sp).poke Reg.pc.addr w)

/-- `CALL t` and then `RET` comes back to the address after the CALL with SP as it was (S6 of the test
vectors; R201, R202). The stack cell is no control register and no word of the caller's slot, and the
slot's words are no control registers. -/
def Obligations.CallThenRetReturns : Prop :=
  ∀ (t sp p i base : Word) (s : State), s.HoldsReg .pc p → p.toInt < xmax → s.HoldsReg .sp sp →
    s.Writable sp.toInt → 6 < sp.toInt → s.HoldsReg .ctid i → s.validId i.toInt = true →
    s.HoldsReg .ttb base → s.SlotMapped base i.toInt → SlotClear s.cfg base i.toInt →
    sp.toInt ≠ slotAddr s.cfg base i.toInt .savedPc →
    sp.toInt ≠ slotAddr s.cfg base i.toInt .savedSp →
    ∃ u v : State, exec (.call t) s = .next u ∧ u.HoldsReg .pc t ∧
      u.Holds (slotAddr s.cfg base i.toInt .savedPc) p ∧ exec .ret u = .next v ∧
      v.HoldsReg .pc (p + 1) ∧ v.HoldsReg .sp sp ∧
      v.Holds (slotAddr s.cfg base i.toInt .savedPc) t

/-! ### System instructions -/

/-- `USER a` takes the word at `a`, enters User mode, persists the context and jumps to that word; `a` is
at or above `USER_BASE` whatever the mode is (R216, R150). -/
def Obligations.UserEntersUserMode : Prop :=
  ∀ (a w i base p q : Word) (s : State), s.Mapped a.toInt → (s.cfg.userBase : Int) ≤ a.toInt →
    s.Holds a.toInt w → s.CanPersist i base p q →
    exec (.user a) s =
      .next { (s.persisted i base p q).poke Reg.pc.addr w with mode := .user }

/-- `SYSCALL PRN a` appends the word at `a` to the output, sets PC to `PC + 1` and the countdown to
`BLOCK_TICKS`, and leaves `TIC` and everything else as it is (R217, R150). -/
def Obligations.PrnOutputsAndStalls : Prop :=
  ∀ (a w p : Word) (s : State), s.Readable a.toInt w → s.HoldsReg .pc p → p.toInt < xmax →
    exec (.syscallPrn a) s = .next { s with
      mem := s.mem.set 0 (.num (p + 1))
      out := s.out ++ [w]
      block := s.cfg.blockTicks }

/-- HLT, SYSCALL HLT and BLANK terminate the current thread `c`: its state word becomes Inactive and `ATC`
goes down by 1. If `ATC` is then at most 0 the machine halts with `AllThreadsDone`, PC, SP and `CTID`
unchanged; else, if a thread `n` is the first Ready one after `c`, it becomes Running and its saved PC and
SP are live; else the machine halts with `NoReadyThread` and `CTID` 0. No other cell and no other part of
the state changes (R215, R218, R220, R245, R243, R244). -/
def Obligations.TerminationEndsTheThread : Prop :=
  ∀ (i : Instr) (s : State) (c base atc : Word), i ∈ [Instr.hlt, .syscallHlt, .blank] →
    s.HoldsReg .ctid c → s.validId c.toInt = true → s.HoldsReg .ttb base →
    s.Mapped (slotAddr s.cfg base c.toInt .state) → 6 < slotAddr s.cfg base c.toInt .state →
    s.HoldsReg .atc atc → xmin < atc.toInt →
    (atc.toInt ≤ 1 →
      ∃ t : State, exec i s = .next t ∧
        t = { s with mem := t.mem, halted := true, haltCause := some .allThreadsDone } ∧
        t.Holds (slotAddr s.cfg base c.toInt .state) 0 ∧ t.HoldsReg .atc (atc - 1) ∧
        ∀ a : Nat, (a : Int) ≠ slotAddr s.cfg base c.toInt .state → a ≠ 5 →
          t.cell a = s.cell a) ∧
    (∀ n pc sp : Word, 1 < atc.toInt → s.validId n.toInt = true → n ≠ c →
      ((s.poke (slotAddr s.cfg base c.toInt .state).toNat 0).poke Reg.atc.addr (atc - 1)).FirstReady
        base c.toInt n.toInt →
      SlotClear s.cfg base n.toInt → s.SlotMapped base n.toInt →
      s.Holds (slotAddr s.cfg base n.toInt .savedPc) pc →
      s.Holds (slotAddr s.cfg base n.toInt .savedSp) sp →
      slotAddr s.cfg base c.toInt .state ≠ slotAddr s.cfg base n.toInt .savedPc →
      slotAddr s.cfg base c.toInt .state ≠ slotAddr s.cfg base n.toInt .savedSp →
      slotAddr s.cfg base c.toInt .state ≠ slotAddr s.cfg base n.toInt .state →
      ∃ t : State, exec i s = .next t ∧ t = { s with mem := t.mem } ∧
        t.Holds (slotAddr s.cfg base c.toInt .state) 0 ∧
        t.Holds (slotAddr s.cfg base n.toInt .state) 2 ∧ t.HoldsReg .atc (atc - 1) ∧
        t.HoldsReg .ctid n ∧ t.HoldsReg .pc pc ∧ t.HoldsReg .sp sp ∧
        ∀ a : Nat, (a : Int) ≠ slotAddr s.cfg base c.toInt .state →
          (a : Int) ≠ slotAddr s.cfg base n.toInt .state → a ∉ [0, 1, 4, 5] →
          t.cell a = s.cell a) ∧
    (1 < atc.toInt →
      ((s.poke (slotAddr s.cfg base c.toInt .state).toNat 0).poke Reg.atc.addr (atc - 1)).NoneReady
        base c.toInt →
      ∃ t : State, exec i s = .next t ∧
        t = { s with mem := t.mem, halted := true, haltCause := some .noReadyThread } ∧
        t.Holds (slotAddr s.cfg base c.toInt .state) 0 ∧ t.HoldsReg .atc (atc - 1) ∧
        t.HoldsReg .ctid 0 ∧
        ∀ a : Nat, (a : Int) ≠ slotAddr s.cfg base c.toInt .state → a ∉ [4, 5] →
          t.cell a = s.cell a)

/-- `SYSCALL YIELD` of thread `c`, whose state word is `w`: its saved-PC becomes the address after the
YIELD, its saved-SP the stack pointer; its state becomes Ready if it was Running and is left alone
otherwise. If another thread `n` is the first Ready one after `c`, it becomes Running and its saved PC and SP
are live; if `c` itself is (its state word was Ready already), it goes on, Running, after the YIELD; if none
is Ready the machine halts with `NoReadyThread`, `CTID` 0 and PC after the YIELD. `TIC` and `ATC` do not
change, nor any other cell (R219, R242, R243, R244, R343(f)). -/
def Obligations.YieldSwitchesThreads : Prop :=
  ∀ (s : State) (c base p sp w : Word), s.HoldsReg .ctid c → s.validId c.toInt = true →
    s.HoldsReg .ttb base → s.SlotMapped base c.toInt → SlotClear s.cfg base c.toInt →
    s.HoldsReg .pc p → p.toInt < xmax → s.HoldsReg .sp sp →
    s.Holds (slotAddr s.cfg base c.toInt .state) w →
    (∀ n pc sp' : Word, s.validId n.toInt = true → n ≠ c →
      ((s.poke Reg.pc.addr (p + 1)).persisted c base (p + 1) sp).FirstReady base c.toInt n.toInt →
      SlotClear s.cfg base n.toInt → s.SlotMapped base n.toInt →
      s.Holds (slotAddr s.cfg base n.toInt .savedPc) pc →
      s.Holds (slotAddr s.cfg base n.toInt .savedSp) sp' →
      (∀ k l : SlotWord, slotAddr s.cfg base c.toInt k ≠ slotAddr s.cfg base n.toInt l) →
      ∃ t : State, exec .syscallYield s = .next t ∧ t = { s with mem := t.mem } ∧
        t.Holds (slotAddr s.cfg base c.toInt .state) (if w = 2 then 1 else w) ∧
        t.Holds (slotAddr s.cfg base c.toInt .savedPc) (p + 1) ∧
        t.Holds (slotAddr s.cfg base c.toInt .savedSp) sp ∧
        t.Holds (slotAddr s.cfg base n.toInt .state) 2 ∧
        t.HoldsReg .ctid n ∧ t.HoldsReg .pc pc ∧ t.HoldsReg .sp sp' ∧
        ∀ a : Nat, (∀ k : SlotWord, (a : Int) ≠ slotAddr s.cfg base c.toInt k) →
          (a : Int) ≠ slotAddr s.cfg base n.toInt .state → a ∉ [0, 1, 4] →
          t.cell a = s.cell a) ∧
    (((s.poke Reg.pc.addr (p + 1)).persisted c base (p + 1) sp).FirstReady base c.toInt c.toInt →
      w = 1 ∧ ∃ t : State, exec .syscallYield s = .next t ∧ t = { s with mem := t.mem } ∧
        t.Holds (slotAddr s.cfg base c.toInt .state) 2 ∧
        t.Holds (slotAddr s.cfg base c.toInt .savedPc) (p + 1) ∧
        t.Holds (slotAddr s.cfg base c.toInt .savedSp) sp ∧
        t.HoldsReg .pc (p + 1) ∧
        ∀ a : Nat, (∀ k : SlotWord, (a : Int) ≠ slotAddr s.cfg base c.toInt k) → a ≠ 0 →
          t.cell a = s.cell a) ∧
    (((s.poke Reg.pc.addr (p + 1)).persisted c base (p + 1) sp).NoneReady base c.toInt →
      ∃ t : State, exec .syscallYield s = .next t ∧
        t = { s with mem := t.mem, halted := true, haltCause := some .noReadyThread } ∧
        t.Holds (slotAddr s.cfg base c.toInt .state) (if w = 2 then 1 else w) ∧
        t.Holds (slotAddr s.cfg base c.toInt .savedPc) (p + 1) ∧
        t.Holds (slotAddr s.cfg base c.toInt .savedSp) sp ∧
        t.HoldsReg .ctid 0 ∧ t.HoldsReg .pc (p + 1) ∧
        ∀ a : Nat, (∀ k : SlotWord, (a : Int) ≠ slotAddr s.cfg base c.toInt k) → a ∉ [0, 4] →
          t.cell a = s.cell a)

/-- MALFORMED raises `MalformedOperands(PC)`: the machine halts with that record and nothing else changes
(R221, R296, R291). -/
def Obligations.MalformedHaltsTheMachine : Prop :=
  ∀ (s : State) (p : Word), s.HoldsReg .pc p →
    exec .malformed s = .next (s.faulted (some 0xFE) .malformedOperands p.toInt)

/-! ### Where instructions fault -/

/-- An instruction whose first access is to its operand `a` faults on it in the order bounds, mode, tag,
with nothing else changed: `OutOfBounds(a)`, then `ProtectionViolation(a)`, then, but for SET, which only
writes, `CodeAsData(a)` (R73, R170 to R172, R180 to R182, R191, R200, R217). -/
def Obligations.FirstOperandFaults : Prop :=
  ∀ (i : Instr) (a : Word) (s : State), firstOperand i = some a →
    (¬ s.Mapped a.toInt → exec i s = .next (s.faulted (some i.opcode) .outOfBounds a.toInt)) ∧
    (s.Mapped a.toInt → ¬ s.Allowed a.toInt →
      exec i s = .next (s.faulted (some i.opcode) .protectionViolation a.toInt)) ∧
    (∀ (o : Opcode) (x y : Word), s.Mapped a.toInt → s.Allowed a.toInt →
      s.cell a.toInt.toNat = .ins o x y → (∀ v, i ≠ .set v a) →
      exec i s = .next (s.faulted (some i.opcode) .codeAsData a.toInt))

/-- USER checks its operand as in User mode whatever the mode is: outside the memory `OutOfBounds(a)`,
below `USER_BASE` `ProtectionViolation(a)`, an instruction cell `CodeAsData(a)`; the mode does not change
(R216). -/
def Obligations.UserOperandIsCheckedAsUser : Prop :=
  ∀ (a : Word) (s : State),
    (¬ s.Mapped a.toInt →
      exec (.user a) s = .next (s.faulted (some 0x0D) .outOfBounds a.toInt)) ∧
    (s.Mapped a.toInt → a.toInt < (s.cfg.userBase : Int) →
      exec (.user a) s = .next (s.faulted (some 0x0D) .protectionViolation a.toInt)) ∧
    (∀ (o : Opcode) (x y : Word), s.Mapped a.toInt → (s.cfg.userBase : Int) ≤ a.toInt →
      s.cell a.toInt.toNat = .ins o x y →
      exec (.user a) s = .next (s.faulted (some 0x0D) .codeAsData a.toInt))

/-- A sum or a difference that no word holds faults `ArithmeticOverflow` at its destination and changes
nothing else; nothing wraps (R71, R180 to R183, R297). -/
def Obligations.ArithmeticOverflowFaults : Prop :=
  (∀ (a v w : Word) (s : State), s.Readable a.toInt w →
    (w.toInt + v.toInt < xmin ∨ xmax < w.toInt + v.toInt) →
    exec (.add a v) s = .next (s.faulted (some 0x04) .arithmeticOverflow a.toInt)) ∧
  (∀ (a b w1 w2 : Word) (s : State), s.Readable a.toInt w1 → s.Readable b.toInt w2 →
    (w1.toInt + w2.toInt < xmin ∨ xmax < w1.toInt + w2.toInt) →
    exec (.addi a b) s = .next (s.faulted (some 0x05) .arithmeticOverflow a.toInt)) ∧
  (∀ (a b w1 w2 : Word) (s : State), s.Readable a.toInt w1 → s.Readable b.toInt w2 →
    (w1.toInt - w2.toInt < xmin ∨ xmax < w1.toInt - w2.toInt) →
    exec (.subi a b) s = .next (s.faulted (some 0x06) .arithmeticOverflow b.toInt))

/-- Where `CTID` names no slot, whatever persists or terminates faults `InvalidThreadId`: RET, HLT and
SYSCALL HLT at once, a JIF that is taken, CALL after its push, USER after its operand, SYSCALL YIELD after
its `PC + 1`, a fetch failure and an eviction (R298, R242, R245, R361). CALL's clause speaks of the id its
push leaves. That a BLANK's record has no opcode (log 5, DEDUCED) and that the eviction's counters stay as
counted (log 6, DEDUCED) are the model's readings. -/
def Obligations.InvalidThreadIdFaults : Prop :=
  (∀ (s : State) (c : Word), s.HoldsReg .ctid c →
    (c.toInt < 1 ∨ (s.cfg.maxThreads : Int) < c.toInt) →
    (∀ i ∈ [Instr.ret, .hlt, .syscallHlt],
      exec i s = .next (s.faulted (some i.opcode) .invalidThreadId c.toInt)) ∧
    exec .blank s = .next (s.faulted none .invalidThreadId c.toInt) ∧
    (∀ a t w : Word, s.Readable a.toInt w → w.toInt ≤ 0 →
      exec (.jif a t) s = .next (s.faulted (some 0x07) .invalidThreadId c.toInt)) ∧
    (∀ a w : Word, s.Mapped a.toInt → (s.cfg.userBase : Int) ≤ a.toInt → s.Holds a.toInt w →
      exec (.user a) s = .next (s.faulted (some 0x0D) .invalidThreadId c.toInt)) ∧
    (∀ p : Word, s.HoldsReg .pc p → p.toInt < xmax →
      exec .syscallYield s = .next (s.faulted (some 0x12) .invalidThreadId c.toInt)) ∧
    (∀ p v : Word, s.Fetches p (.num v) →
      step s = .next ((s.watched p).faulted none .invalidThreadId c.toInt)) ∧
    (∀ p : Word, s.halted = false → s.wdTicks + 1 ≤ s.cfg.hardCap → s.HoldsReg .pc p →
      s.cfg.softCap < (s.watched p).wdRepeat →
      step s = .next ((s.watched p).faulted none .invalidThreadId c.toInt))) ∧
  (∀ (s : State) (t sp p q c : Word), s.HoldsReg .pc p → p.toInt < xmax → s.CanPush sp (p + 1) q →
    (s.pushed sp (p + 1) q).HoldsReg .ctid c →
    (c.toInt < 1 ∨ (s.cfg.maxThreads : Int) < c.toInt) →
    exec (.call t) s = .next (s.faulted (some 0x0A) .invalidThreadId c.toInt))

/-! ### Frames

Each says: the instruction completes, and then only the named parts of the state have changed; or it took a
fault, and then only the halted flag, the halt cause and the record have. -/

/-- SET, CPY, CPYI, ADD, ADDI and SUBI store to their destination operand, to PC and to `TIC` only. -/
def Obligations.StoringInstructionsFrame : Prop :=
  ∀ (i : Instr) (d : Word) (s t : State), destination i = some d → exec i s = .next t →
    (t = { s with mem := t.mem } ∧
      ∀ a : Nat, (a : Int) ≠ d.toInt → a ∉ [0, 3] → t.cell a = s.cell a) ∨
    ∃ e : Raise, t = s.faulted (some i.opcode) e.cause e.addr

/-- PUSH stores to the stack cell at SP, to SP, PC and `TIC` only; POP to its operand, to SP, PC and `TIC`
only. -/
def Obligations.StackInstructionsFrame : Prop :=
  (∀ (x : Word) (s t : State), exec (.push x) s = .next t →
    (t = { s with mem := t.mem } ∧
      ∀ sp : Word, s.HoldsReg .sp sp →
        ∀ a : Nat, (a : Int) ≠ sp.toInt → a ∉ [0, 1, 3] → t.cell a = s.cell a) ∨
    ∃ e : Raise, t = s.faulted (some 0x08) e.cause e.addr) ∧
  (∀ (x : Word) (s t : State), exec (.pop x) s = .next t →
    (t = { s with mem := t.mem } ∧
      ∀ a : Nat, (a : Int) ≠ x.toInt → a ∉ [0, 1, 3] → t.cell a = s.cell a) ∨
    ∃ e : Raise, t = s.faulted (some 0x09) e.cause e.addr)

/-- JIF stores, when taken, to PC and to the saved-PC and saved-SP words of the current slot only, and
when not taken to PC and `TIC` only. CALL stores to the stack cell at SP, to SP, to PC and to those two words
of the slot that is current after the push; RET to SP, PC and those two words; USER to PC and those two
words, and sets the mode. -/
def Obligations.PersistingInstructionsFrame : Prop :=
  (∀ (x y : Word) (s t : State), exec (.jif x y) s = .next t →
    (t = { s with mem := t.mem } ∧
      ∀ w : Word, s.Holds x.toInt w →
        (0 < w.toInt → ∀ a : Nat, a ∉ [0, 3] → t.cell a = s.cell a) ∧
        (w.toInt ≤ 0 → ∀ i base : Word, s.HoldsReg .ctid i → s.HoldsReg .ttb base →
          ∀ a : Nat, (a : Int) ≠ slotAddr s.cfg base i.toInt .savedPc →
            (a : Int) ≠ slotAddr s.cfg base i.toInt .savedSp → a ≠ 0 → t.cell a = s.cell a)) ∨
    ∃ e : Raise, t = s.faulted (some 0x07) e.cause e.addr) ∧
  (∀ (x : Word) (s t : State), exec (.call x) s = .next t →
    (t = { s with mem := t.mem } ∧
      ∀ (sp i base : Word) (u : State), s.HoldsReg .sp sp → s.push s.returnAddress = .ok u →
        u.HoldsReg .ctid i → u.HoldsReg .ttb base →
        ∀ a : Nat, (a : Int) ≠ sp.toInt → (a : Int) ≠ slotAddr s.cfg base i.toInt .savedPc →
          (a : Int) ≠ slotAddr s.cfg base i.toInt .savedSp → a ∉ [0, 1] →
          t.cell a = s.cell a) ∨
    ∃ e : Raise, t = s.faulted (some 0x0A) e.cause e.addr) ∧
  (∀ s t : State, exec .ret s = .next t →
    (t = { s with mem := t.mem } ∧
      ∀ i base : Word, s.HoldsReg .ctid i → s.HoldsReg .ttb base →
        ∀ a : Nat, (a : Int) ≠ slotAddr s.cfg base i.toInt .savedPc →
          (a : Int) ≠ slotAddr s.cfg base i.toInt .savedSp → a ∉ [0, 1] →
          t.cell a = s.cell a) ∨
    ∃ e : Raise, t = s.faulted (some 0x0B) e.cause e.addr) ∧
  (∀ (x : Word) (s t : State), exec (.user x) s = .next t →
    (t = { s with mem := t.mem, mode := .user } ∧
      ∀ i base : Word, s.HoldsReg .ctid i → s.HoldsReg .ttb base →
        ∀ a : Nat, (a : Int) ≠ slotAddr s.cfg base i.toInt .savedPc →
          (a : Int) ≠ slotAddr s.cfg base i.toInt .savedSp → a ≠ 0 → t.cell a = s.cell a) ∨
    ∃ e : Raise, t = s.faulted (some 0x0D) e.cause e.addr)

/-- SYSCALL PRN stores to PC only, appends one word to the output, and sets the countdown. HLT, SYSCALL HLT,
BLANK and SYSCALL YIELD touch nothing outside memory but the halted flag and the halt cause. Where the
current slot's words are no control registers (R343(d)), the terminating ones store to its state word, to
the state word of the thread the scan selects, to PC, SP, `CTID` and `ATC` only; SYSCALL YIELD to the
three words of its slot, to the state word of the thread selected, to PC, SP and `CTID` only. -/
def Obligations.SystemInstructionsFrame : Prop :=
  (∀ (x : Word) (s t : State), exec (.syscallPrn x) s = .next t →
    (t = { s with mem := t.mem, out := t.out, block := s.cfg.blockTicks } ∧
      (∀ w : Word, s.Holds x.toInt w → t.out = s.out ++ [w]) ∧
      ∀ a : Nat, a ≠ 0 → t.cell a = s.cell a) ∨
    ∃ e : Raise, t = s.faulted (some 0x10) e.cause e.addr) ∧
  (∀ (i : Instr) (s t : State), i ∈ [Instr.hlt, .syscallHlt, .blank] → exec i s = .next t →
    (t = { s with mem := t.mem, halted := t.halted, haltCause := t.haltCause } ∧
      ∀ c base atc : Word, s.HoldsReg .ctid c → s.HoldsReg .ttb base → s.HoldsReg .atc atc →
        6 < slotAddr s.cfg base c.toInt .state →
        ∀ a : Nat, (a : Int) ≠ slotAddr s.cfg base c.toInt .state → a ∉ [0, 1, 4, 5] →
          (∀ n, selectNextReady
              ((s.poke (slotAddr s.cfg base c.toInt .state).toNat 0).poke Reg.atc.addr (atc - 1))
              c.toInt = .ok n → (a : Int) ≠ slotAddr s.cfg base n .state) →
          t.cell a = s.cell a) ∨
    ∃ (o : Option Opcode) (e : Raise), t = s.faulted o e.cause e.addr) ∧
  (∀ s t : State, exec .syscallYield s = .next t →
    (t = { s with mem := t.mem, halted := t.halted, haltCause := t.haltCause } ∧
      ∀ c base p sp : Word, s.HoldsReg .ctid c → s.HoldsReg .ttb base → s.HoldsReg .pc p →
        s.HoldsReg .sp sp → SlotClear s.cfg base c.toInt →
        ∀ a : Nat, (∀ k : SlotWord, (a : Int) ≠ slotAddr s.cfg base c.toInt k) →
          a ∉ [0, 1, 4] →
          (∀ n, selectNextReady ((s.poke Reg.pc.addr (p + 1)).persisted c base (p + 1) sp)
              c.toInt = .ok n → (a : Int) ≠ slotAddr s.cfg base n .state) →
          t.cell a = s.cell a) ∨
    ∃ e : Raise, t = s.faulted (some 0x12) e.cause e.addr)

/-! ### Where instructions fault after their first access -/

/-- The accesses after the first one: the pointer of CPYI, the second operand of ADDI and SUBI and the
destination of CPY, CPYI and POP fault at that address; PUSH and CALL fault at the stack cell they store to,
POP and RET at the one they read. The cause is that of the first failing check, and nothing of the tick is
kept (R73, R152, R291; R171, R172, R181, R182, R190 to R192, R201, R202). -/
def Obligations.LaterAccessFaults : Prop :=
  ∀ (s : State) (c : FaultCause),
    (∀ a b q : Word, s.Readable a.toInt q → s.ReadFaults q.toInt c →
      exec (.cpyi a b) s = .next (s.faulted (some 0x03) c q.toInt)) ∧
    (∀ a b w : Word, s.Readable a.toInt w → s.WriteFaults b.toInt c →
      exec (.cpy a b) s = .next (s.faulted (some 0x02) c b.toInt)) ∧
    (∀ a b q w : Word, s.Readable a.toInt q → s.Readable q.toInt w → s.WriteFaults b.toInt c →
      exec (.cpyi a b) s = .next (s.faulted (some 0x03) c b.toInt)) ∧
    (∀ a b w : Word, s.Readable a.toInt w → s.ReadFaults b.toInt c →
      exec (.addi a b) s = .next (s.faulted (some 0x05) c b.toInt) ∧
      exec (.subi a b) s = .next (s.faulted (some 0x06) c b.toInt)) ∧
    (∀ a w sp : Word, s.Readable a.toInt w → s.HoldsReg .sp sp → s.WriteFaults sp.toInt c →
      exec (.push a) s = .next (s.faulted (some 0x08) c sp.toInt)) ∧
    (∀ a sp : Word, s.HoldsReg .sp sp → sp.toInt < xmax →
      (s.popped sp).ReadFaults (sp.toInt + 1) c →
      exec (.pop a) s = .next (s.faulted (some 0x09) c (sp.toInt + 1))) ∧
    (∀ a sp w : Word, s.CanPop sp w → s.WriteFaults a.toInt c →
      exec (.pop a) s = .next (s.faulted (some 0x09) c a.toInt)) ∧
    (∀ t sp p : Word, s.HoldsReg .sp sp → s.HoldsReg .pc p → s.WriteFaults sp.toInt c →
      exec (.call t) s = .next (s.faulted (some 0x0A) c sp.toInt)) ∧
    (∀ i base p q sp : Word, s.CanPersist i base p q →
      (s.persisted i base p q).HoldsReg .sp sp → sp.toInt < xmax →
      ((s.persisted i base p q).popped sp).ReadFaults (sp.toInt + 1) c →
      exec .ret s = .next (s.faulted (some 0x0B) c (sp.toInt + 1)))

/-- Where a counter cannot be stored the tick faults `ArithmeticOverflow` at the counter and keeps nothing:
`PC + 1` and then `TIC + 1` of step 6, for every instruction that reaches it (an instruction cell at 3
faults `CodeAsData(3)`); `SP - 1` of PUSH; `SP + 1` of POP and RET; `PC + 1` of SYSCALL PRN and SYSCALL YIELD,
and of CALL, which stores it at the stack cell; `ATC - 1` of HLT, SYSCALL HLT and BLANK (R71, R149, R297,
R305; R190, R201, R217, R219, R245). That BLANK's record has no opcode is the model's reading (log 5,
DEDUCED). -/
def Obligations.CounterOverflowFaults : Prop :=
  (∀ (i : Instr) (s u : State) (p : Word), ReachesStepSix i s u → u.HoldsReg .pc p →
    (p.toInt = xmax → exec i s = .next (s.faulted (some i.opcode) .arithmeticOverflow 0)) ∧
    (p.toInt < xmax → u.isCode 3 = true →
      exec i s = .next (s.faulted (some i.opcode) .codeAsData 3)) ∧
    (∀ n : Word, p.toInt < xmax → u.HoldsReg .tic n → n.toInt = xmax →
      exec i s = .next (s.faulted (some i.opcode) .arithmeticOverflow 3))) ∧
  (∀ (a w sp q : Word) (s : State), s.Readable a.toInt w → s.HoldsReg .sp sp →
    s.Writable sp.toInt → (s.poke sp.toInt.toNat w).HoldsReg .sp q → q.toInt = xmin →
    exec (.push a) s = .next (s.faulted (some 0x08) .arithmeticOverflow 1)) ∧
  (∀ (a sp : Word) (s : State), s.HoldsReg .sp sp → sp.toInt = xmax →
    exec (.pop a) s = .next (s.faulted (some 0x09) .arithmeticOverflow 1)) ∧
  (∀ (i base p q sp : Word) (s : State), s.CanPersist i base p q →
    (s.persisted i base p q).HoldsReg .sp sp → sp.toInt = xmax →
    exec .ret s = .next (s.faulted (some 0x0B) .arithmeticOverflow 1)) ∧
  (∀ (p : Word) (s : State), s.HoldsReg .pc p → p.toInt = xmax →
    exec .syscallYield s = .next (s.faulted (some 0x12) .arithmeticOverflow 0) ∧
    (∀ a w : Word, s.Readable a.toInt w →
      exec (.syscallPrn a) s = .next (s.faulted (some 0x10) .arithmeticOverflow 0)) ∧
    (∀ t sp : Word, s.HoldsReg .sp sp → s.Writable sp.toInt →
      exec (.call t) s = .next (s.faulted (some 0x0A) .arithmeticOverflow sp.toInt))) ∧
  (∀ (c base atc : Word) (s : State), s.HoldsReg .ctid c → s.validId c.toInt = true →
    s.HoldsReg .ttb base → s.Mapped (slotAddr s.cfg base c.toInt .state) →
    (s.poke (slotAddr s.cfg base c.toInt .state).toNat 0).HoldsReg .atc atc → atc.toInt = xmin →
    (∀ i ∈ [Instr.hlt, .syscallHlt],
      exec i s = .next (s.faulted (some i.opcode) .arithmeticOverflow 5)) ∧
    exec .blank s = .next (s.faulted none .arithmeticOverflow 5))
end

