-- ==== Sys2Proof/Laws/Decode.lean ====
section
/-! SUPPORT. The layout of a stored cell: what its fields read as, and that no bit of an instruction cell
is lost. -/

namespace Sys2Proof

theorem Cell.toBits_ins_tag (opc : Opcode) (a b : Word) :
    (Cell.ins opc a b).toBits.getLsbD 72 = true := by
  simp only [Cell.toBits, BitVec.getLsbD_append]
  rfl

theorem Cell.toBits_ins_opc (opc : Opcode) (a b : Word) :
    (Cell.ins opc a b).toBits.extractLsb' 64 8 = opc := by
  apply BitVec.eq_of_getLsbD_eq
  intro i hi
  simp only [Cell.toBits, BitVec.getLsbD_extractLsb', BitVec.getLsbD_append]
  have h1 : ¬ 64 + i < 32 := by omega
  have h2 : ¬ 64 + i - 32 < 32 := by omega
  have h3 : 64 + i - 32 - 32 < 8 := by omega
  simp only [hi, h1, h2, h3, decide_true, Bool.true_and, if_false, if_true]
  congr 1
  omega

theorem Cell.toBits_ins_a (opc : Opcode) (a b : Word) :
    (Cell.ins opc a b).toBits.extractLsb' 32 32 = a := by
  apply BitVec.eq_of_getLsbD_eq
  intro i hi
  simp only [Cell.toBits, BitVec.getLsbD_extractLsb', BitVec.getLsbD_append]
  have h1 : ¬ 32 + i < 32 := by omega
  have h2 : 32 + i - 32 < 32 := by omega
  simp only [hi, h1, h2, decide_true, Bool.true_and, if_false, if_true]
  congr 1
  omega

theorem Cell.toBits_ins_b (opc : Opcode) (a b : Word) :
    (Cell.ins opc a b).toBits.extractLsb' 0 32 = b := by
  apply BitVec.eq_of_getLsbD_eq
  intro i hi
  simp only [Cell.toBits, BitVec.getLsbD_extractLsb', BitVec.getLsbD_append]
  have h1 : 0 + i < 32 := by omega
  simp only [hi, h1, decide_true, Bool.true_and, if_true]
  congr 1
  omega

/-- Reading back the bits of a cell gives the cell (R110 to R112). -/
theorem Cell.ofBits_toBits (c : Cell) : Cell.ofBits c.toBits = c := by
  cases c with
  | num v =>
    have htag : (Cell.num v).toBits.getLsbD 72 = false := by
      simp [Cell.toBits]
    simp only [Cell.ofBits, htag, Bool.false_eq_true, if_false, Cell.num.injEq]
    apply BitVec.eq_of_getLsbD_eq
    intro i hi
    have : i < 73 := by omega
    simp [Cell.toBits, hi, this]
  | ins opc a b =>
    simp only [Cell.ofBits, Cell.toBits_ins_tag, if_true, Cell.toBits_ins_opc,
      Cell.toBits_ins_a, Cell.toBits_ins_b]

/-- The tag bit of stored bits says whether they hold an instruction cell (R110). -/
theorem Cell.toBits_ofBits_of_tag (bits : CellBits) (h : bits.getLsbD 72 = true) :
    (Cell.ofBits bits).toBits = bits := by
  simp only [Cell.ofBits, h, if_true]
  apply BitVec.eq_of_getLsbD_eq
  intro i hi
  simp only [Cell.toBits, BitVec.getLsbD_append, BitVec.getLsbD_extractLsb']
  by_cases h1 : i < 32
  · simp [h1]
  · by_cases h2 : i < 64
    · have e1 : i - 32 < 32 := by omega
      have e2 : 32 + (i - 32) = i := by omega
      simp [h1, e1, e2]
    · by_cases h3 : i < 72
      · have e1 : ¬ i - 32 < 32 := by omega
        have e2 : i - 32 - 32 < 8 := by omega
        have e3 : 64 + (i - 32 - 32) = i := by omega
        simp [h1, e1, e2, e3]
      · have e4 : i = 72 := by omega
        subst e4
        simp [h]

/-- A cell is decoded by its abstract form. -/
theorem decode_toBits (c : Cell) : decode c.toBits = decodeCell c := by
  simp [decode, Cell.ofBits_toBits]

end Sys2Proof
end

