-- ==== Sys2Proof/Laws/Memory.lean ====
section
/-! SUPPORT. The laws of the Memory Space: read after write, and the canonical form. -/

namespace Sys2Proof.Machine

@[simp] theorem Memory.get_nil (a : Nat) : Memory.get [] a = Cell.zero := rfl

@[simp] theorem Memory.get_cons (k : Nat) (c : Cell) (m : Memory) (a : Nat) :
    Memory.get ((k, c) :: m) a = if k = a then c else Memory.get m a := rfl

/-- Erasing an address leaves `Num(0)` there and every other cell alone. -/
theorem Memory.get_erase (m : Memory) (a b : Nat) :
    (m.erase a).get b = if a = b then Cell.zero else m.get b := by
  induction m with
  | nil => simp [Memory.erase]
  | cons e m ih =>
    obtain ⟨k, c⟩ := e
    by_cases hk : k = a
    · subst hk
      rw [Memory.erase, if_pos rfl, ih, Memory.get_cons]
      split <;> simp_all
    · simp only [Memory.erase, if_neg hk, Memory.get_cons, ih]
      by_cases hb : k = b
      · subst hb; simp [Ne.symm hk]
      · simp [hb]

/-- Putting an entry for an address that is not listed. -/
theorem Memory.get_insert (m : Memory) (a b : Nat) (c : Cell) (h : m.all (fun e => e.1 != a)) :
    (m.insert a c).get b = if a = b then c else m.get b := by
  induction m with
  | nil => simp [Memory.insert]
  | cons e m ih =>
    obtain ⟨k, d⟩ := e
    simp only [List.all_cons, Bool.and_eq_true, bne_iff_ne, ne_eq] at h
    by_cases hk : a < k
    · simp [Memory.insert, hk]
    · simp only [Memory.insert, if_neg hk, Memory.get_cons, ih h.2]
      by_cases hb : k = b
      · subst hb; simp [Ne.symm h.1]
      · simp [hb]

/-- An erased address is not listed. -/
theorem Memory.all_ne_erase (m : Memory) (a : Nat) : (m.erase a).all (fun e => e.1 != a) := by
  induction m with
  | nil => rfl
  | cons e m ih =>
    obtain ⟨k, c⟩ := e
    by_cases hk : k = a
    · simpa [Memory.erase, hk] using ih
    · simpa [Memory.erase, hk] using ih

/-- Read after write: the written cell where it was written, every other cell as before. -/
theorem Memory.get_set (m : Memory) (a b : Nat) (c : Cell) :
    (m.set a c).get b = if a = b then c else m.get b := by
  unfold Memory.set
  split
  · next h => rw [Memory.get_erase]; simp [h]
  · rw [Memory.get_insert _ _ _ _ (Memory.all_ne_erase m a), Memory.get_erase]; split <;> rfl

@[simp] theorem Memory.get_set_same (m : Memory) (a : Nat) (c : Cell) : (m.set a c).get a = c := by
  simp [Memory.get_set]

theorem Memory.get_set_other (m : Memory) {a b : Nat} (c : Cell) (h : b ≠ a) :
    (m.set a c).get b = m.get b := by
  simp [Memory.get_set, Ne.symm h]

/-! ### A property of every entry -/

/-- What holds of every entry holds of every entry after an erasure. -/
theorem Memory.all_erase (m : Memory) (a : Nat) (P : Nat × Cell → Bool) (h : m.all P) :
    (m.erase a).all P := by
  induction m with
  | nil => rfl
  | cons e m ih =>
    obtain ⟨k, c⟩ := e
    simp only [List.all_cons, Bool.and_eq_true] at h
    by_cases hk : k = a
    · simpa [Memory.erase, hk] using ih h.2
    · simpa [Memory.erase, hk, h.1] using ih h.2

/-- What holds of every entry and of the new one holds of every entry after an insertion. -/
theorem Memory.all_insert (m : Memory) (a : Nat) (c : Cell) (P : Nat × Cell → Bool) (h : m.all P)
    (hP : P (a, c) = true) : (m.insert a c).all P := by
  induction m with
  | nil => simp [Memory.insert, hP]
  | cons e m ih =>
    obtain ⟨k, d⟩ := e
    simp only [List.all_cons, Bool.and_eq_true] at h
    by_cases hk : a < k
    · simp only [Memory.insert, if_pos hk, List.all_cons, hP, h.1, h.2, Bool.and_self]
    · simp only [Memory.insert, if_neg hk, List.all_cons, h.1, ih h.2, Bool.and_self]

/-! ### The canonical form -/

/-- Erasing keeps the canonical form. -/
theorem Memory.wf_erase (m : Memory) (a : Nat) (h : m.wf) : (m.erase a).wf := by
  induction m with
  | nil => rfl
  | cons e m ih =>
    obtain ⟨k, c⟩ := e
    simp only [Memory.wf, Bool.and_eq_true] at h
    by_cases hk : k = a
    · simpa [Memory.erase, hk] using ih h.2
    · simp only [Memory.erase, if_neg hk, Memory.wf, Bool.and_eq_true]
      exact ⟨⟨h.1.1, Memory.all_erase m a _ h.1.2⟩, ih h.2⟩

/-- Inserting a cell that is not `Num(0)` at an address that is not listed keeps the canonical form. -/
theorem Memory.wf_insert (m : Memory) (a : Nat) (c : Cell) (h : m.wf) (hc : c ≠ Cell.zero)
    (ha : m.all (fun e => e.1 != a)) : (m.insert a c).wf := by
  induction m with
  | nil => simp [Memory.insert, Memory.wf, Memory.above, hc]
  | cons e m ih =>
    obtain ⟨k, d⟩ := e
    simp only [List.all_cons, Bool.and_eq_true, bne_iff_ne, ne_eq] at ha
    have hw := h
    simp only [Memory.wf, Bool.and_eq_true, decide_eq_true_eq] at hw
    by_cases hk : a < k
    · simp only [Memory.insert, if_pos hk]
      have habove : Memory.above ((k, d) :: m) a = true := by
        simp only [Memory.above, List.all_eq_true, decide_eq_true_eq, List.mem_cons,
          forall_eq_or_imp] at hw ⊢
        exact ⟨hk, fun x hx => lt_trans hk (hw.1.2 x hx)⟩
      rw [Memory.wf, habove, h]
      simp [hc]
    · simp only [Memory.insert, if_neg hk, Memory.wf, Bool.and_eq_true, decide_eq_true_eq]
      refine ⟨⟨hw.1.1, Memory.all_insert m a c _ hw.1.2 ?_⟩, ih hw.2 ha.2⟩
      simpa using lt_of_le_of_ne (Nat.le_of_not_lt hk) ha.1

/-- Every write keeps the canonical form. -/
theorem Memory.wf_set (m : Memory) (a : Nat) (c : Cell) (h : m.wf) : (m.set a c).wf := by
  unfold Memory.set
  split
  · exact Memory.wf_erase m a h
  · next hc => exact Memory.wf_insert _ a c (Memory.wf_erase m a h) hc (Memory.all_ne_erase m a)

/-- A write below the capacity lists no cell beyond it. -/
theorem Memory.within_set (m : Memory) (a n : Nat) (c : Cell) (h : m.within n) (ha : a < n) :
    (m.set a c).within n := by
  unfold Memory.set
  split
  · exact Memory.all_erase m a _ h
  · exact Memory.all_insert _ a c _ (Memory.all_erase m a _ h) (by simpa using ha)

/-- In canonical form every listed address is one whose cell is not `Num(0)`. -/
theorem Memory.get_of_above (m : Memory) (a b : Nat) (h : m.above a) (hb : b ≤ a) :
    m.get b = Cell.zero := by
  induction m with
  | nil => rfl
  | cons e m ih =>
    obtain ⟨k, c⟩ := e
    simp only [Memory.above, List.all_cons, Bool.and_eq_true, decide_eq_true_eq] at h
    rw [Memory.get_cons, if_neg (by omega)]
    exact ih h.2

/-- Two memories in canonical form that read alike everywhere are equal: the list is determined by the
cells. -/
theorem Memory.ext_of_wf (m n : Memory) (hm : m.wf) (hn : n.wf) (h : ∀ a, m.get a = n.get a) :
    m = n := by
  induction m generalizing n with
  | nil =>
    cases n with
    | nil => rfl
    | cons e n =>
      obtain ⟨k, c⟩ := e
      simp only [Memory.wf, Bool.and_eq_true, decide_eq_true_eq] at hn
      have := h k
      simp at this
      exact absurd this.symm hn.1.1
  | cons e m ih =>
    obtain ⟨k, c⟩ := e
    simp only [Memory.wf, Bool.and_eq_true, decide_eq_true_eq] at hm
    cases n with
    | nil =>
      have := h k
      simp at this
      exact absurd this hm.1.1
    | cons f n =>
      obtain ⟨l, d⟩ := f
      simp only [Memory.wf, Bool.and_eq_true, decide_eq_true_eq] at hn
      have hkl : k = l := by
        rcases Nat.lt_trichotomy k l with hlt | heq | hgt
        · have := h k
          rw [Memory.get_cons, Memory.get_cons, if_pos rfl, if_neg (by omega),
            Memory.get_of_above n l k hn.1.2 (by omega)] at this
          exact absurd this hm.1.1
        · exact heq
        · have := h l
          rw [Memory.get_cons, Memory.get_cons, if_pos rfl, if_neg (by omega),
            Memory.get_of_above m k l hm.1.2 (by omega)] at this
          exact absurd this.symm hn.1.1
      subst hkl
      have hcd : c = d := by simpa using h k
      subst hcd
      rw [ih n hm.2 hn.2]
      intro a
      by_cases ha : k = a
      · subst ha
        rw [Memory.get_of_above m k k hm.1.2 le_rfl, Memory.get_of_above n k k hn.1.2 le_rfl]
      · simpa [ha] using h a

end Sys2Proof.Machine
end

