-- ==== Sys2Proof/Laws/State.lean ====
section
/-! SUPPORT. One lemma per field per named update of the state, and what an update does to a cell. -/

namespace Sys2Proof.Machine

/-! ### `setCell` -/

@[simp] theorem State.setCell_cfg (s : State) (a : Nat) (c : Cell) :
    (s.setCell a c).cfg = s.cfg := rfl
@[simp] theorem State.setCell_mem (s : State) (a : Nat) (c : Cell) :
    (s.setCell a c).mem = s.mem.set a c := rfl
@[simp] theorem State.setCell_mode (s : State) (a : Nat) (c : Cell) :
    (s.setCell a c).mode = s.mode := rfl
@[simp] theorem State.setCell_halted (s : State) (a : Nat) (c : Cell) :
    (s.setCell a c).halted = s.halted := rfl
@[simp] theorem State.setCell_block (s : State) (a : Nat) (c : Cell) :
    (s.setCell a c).block = s.block := rfl
@[simp] theorem State.setCell_wdTicks (s : State) (a : Nat) (c : Cell) :
    (s.setCell a c).wdTicks = s.wdTicks := rfl
@[simp] theorem State.setCell_wdLastPc (s : State) (a : Nat) (c : Cell) :
    (s.setCell a c).wdLastPc = s.wdLastPc := rfl
@[simp] theorem State.setCell_wdRepeat (s : State) (a : Nat) (c : Cell) :
    (s.setCell a c).wdRepeat = s.wdRepeat := rfl
@[simp] theorem State.setCell_haltCause (s : State) (a : Nat) (c : Cell) :
    (s.setCell a c).haltCause = s.haltCause := rfl
@[simp] theorem State.setCell_fault (s : State) (a : Nat) (c : Cell) :
    (s.setCell a c).fault = s.fault := rfl
@[simp] theorem State.setCell_out (s : State) (a : Nat) (c : Cell) :
    (s.setCell a c).out = s.out := rfl

/-! ### `poke` -/

@[simp] theorem State.poke_cfg (s : State) (a : Nat) (w : Word) : (s.poke a w).cfg = s.cfg := rfl
@[simp] theorem State.poke_mem (s : State) (a : Nat) (w : Word) :
    (s.poke a w).mem = s.mem.set a (.num w) := rfl
@[simp] theorem State.poke_mode (s : State) (a : Nat) (w : Word) : (s.poke a w).mode = s.mode := rfl
@[simp] theorem State.poke_halted (s : State) (a : Nat) (w : Word) :
    (s.poke a w).halted = s.halted := rfl
@[simp] theorem State.poke_block (s : State) (a : Nat) (w : Word) :
    (s.poke a w).block = s.block := rfl
@[simp] theorem State.poke_wdTicks (s : State) (a : Nat) (w : Word) :
    (s.poke a w).wdTicks = s.wdTicks := rfl
@[simp] theorem State.poke_wdLastPc (s : State) (a : Nat) (w : Word) :
    (s.poke a w).wdLastPc = s.wdLastPc := rfl
@[simp] theorem State.poke_wdRepeat (s : State) (a : Nat) (w : Word) :
    (s.poke a w).wdRepeat = s.wdRepeat := rfl
@[simp] theorem State.poke_haltCause (s : State) (a : Nat) (w : Word) :
    (s.poke a w).haltCause = s.haltCause := rfl
@[simp] theorem State.poke_fault (s : State) (a : Nat) (w : Word) :
    (s.poke a w).fault = s.fault := rfl
@[simp] theorem State.poke_out (s : State) (a : Nat) (w : Word) : (s.poke a w).out = s.out := rfl

/-! ### `takeFault` -/

@[simp] theorem State.takeFault_cfg (s : State) (o : Option Opcode) (e : Raise) :
    (s.takeFault o e).cfg = s.cfg := rfl
@[simp] theorem State.takeFault_mem (s : State) (o : Option Opcode) (e : Raise) :
    (s.takeFault o e).mem = s.mem := rfl
@[simp] theorem State.takeFault_mode (s : State) (o : Option Opcode) (e : Raise) :
    (s.takeFault o e).mode = s.mode := rfl
@[simp] theorem State.takeFault_halted (s : State) (o : Option Opcode) (e : Raise) :
    (s.takeFault o e).halted = true := rfl
@[simp] theorem State.takeFault_block (s : State) (o : Option Opcode) (e : Raise) :
    (s.takeFault o e).block = s.block := rfl
@[simp] theorem State.takeFault_wdTicks (s : State) (o : Option Opcode) (e : Raise) :
    (s.takeFault o e).wdTicks = s.wdTicks := rfl
@[simp] theorem State.takeFault_wdLastPc (s : State) (o : Option Opcode) (e : Raise) :
    (s.takeFault o e).wdLastPc = s.wdLastPc := rfl
@[simp] theorem State.takeFault_wdRepeat (s : State) (o : Option Opcode) (e : Raise) :
    (s.takeFault o e).wdRepeat = s.wdRepeat := rfl
@[simp] theorem State.takeFault_haltCause (s : State) (o : Option Opcode) (e : Raise) :
    (s.takeFault o e).haltCause = some (.fault e.cause) := rfl
@[simp] theorem State.takeFault_fault (s : State) (o : Option Opcode) (e : Raise) :
    (s.takeFault o e).fault = some (s.faultRecord o e) := rfl
@[simp] theorem State.takeFault_out (s : State) (o : Option Opcode) (e : Raise) :
    (s.takeFault o e).out = s.out := rfl

/-! ### `halt` -/

@[simp] theorem State.halt_cfg (s : State) (c : HaltCause) : (s.halt c).cfg = s.cfg := rfl
@[simp] theorem State.halt_mem (s : State) (c : HaltCause) : (s.halt c).mem = s.mem := rfl
@[simp] theorem State.halt_mode (s : State) (c : HaltCause) : (s.halt c).mode = s.mode := rfl
@[simp] theorem State.halt_halted (s : State) (c : HaltCause) : (s.halt c).halted = true := rfl
@[simp] theorem State.halt_block (s : State) (c : HaltCause) : (s.halt c).block = s.block := rfl
@[simp] theorem State.halt_wdTicks (s : State) (c : HaltCause) :
    (s.halt c).wdTicks = s.wdTicks := rfl
@[simp] theorem State.halt_wdLastPc (s : State) (c : HaltCause) :
    (s.halt c).wdLastPc = s.wdLastPc := rfl
@[simp] theorem State.halt_wdRepeat (s : State) (c : HaltCause) :
    (s.halt c).wdRepeat = s.wdRepeat := rfl
@[simp] theorem State.halt_haltCause (s : State) (c : HaltCause) :
    (s.halt c).haltCause = some c := rfl
@[simp] theorem State.halt_fault (s : State) (c : HaltCause) : (s.halt c).fault = s.fault := rfl
@[simp] theorem State.halt_out (s : State) (c : HaltCause) : (s.halt c).out = s.out := rfl

/-! ### `emit` -/

@[simp] theorem State.emit_cfg (s : State) (w : Word) : (s.emit w).cfg = s.cfg := rfl
@[simp] theorem State.emit_mem (s : State) (w : Word) : (s.emit w).mem = s.mem := rfl
@[simp] theorem State.emit_mode (s : State) (w : Word) : (s.emit w).mode = s.mode := rfl
@[simp] theorem State.emit_halted (s : State) (w : Word) : (s.emit w).halted = s.halted := rfl
@[simp] theorem State.emit_block (s : State) (w : Word) : (s.emit w).block = s.block := rfl
@[simp] theorem State.emit_wdTicks (s : State) (w : Word) : (s.emit w).wdTicks = s.wdTicks := rfl
@[simp] theorem State.emit_wdLastPc (s : State) (w : Word) : (s.emit w).wdLastPc = s.wdLastPc := rfl
@[simp] theorem State.emit_wdRepeat (s : State) (w : Word) : (s.emit w).wdRepeat = s.wdRepeat := rfl
@[simp] theorem State.emit_haltCause (s : State) (w : Word) :
    (s.emit w).haltCause = s.haltCause := rfl
@[simp] theorem State.emit_fault (s : State) (w : Word) : (s.emit w).fault = s.fault := rfl
@[simp] theorem State.emit_out (s : State) (w : Word) : (s.emit w).out = s.out ++ [w] := rfl

/-! ### `stall` -/

@[simp] theorem State.stall_cfg (s : State) : s.stall.cfg = s.cfg := rfl
@[simp] theorem State.stall_mem (s : State) : s.stall.mem = s.mem := rfl
@[simp] theorem State.stall_mode (s : State) : s.stall.mode = s.mode := rfl
@[simp] theorem State.stall_halted (s : State) : s.stall.halted = s.halted := rfl
@[simp] theorem State.stall_block (s : State) : s.stall.block = s.cfg.blockTicks := rfl
@[simp] theorem State.stall_wdTicks (s : State) : s.stall.wdTicks = s.wdTicks := rfl
@[simp] theorem State.stall_wdLastPc (s : State) : s.stall.wdLastPc = s.wdLastPc := rfl
@[simp] theorem State.stall_wdRepeat (s : State) : s.stall.wdRepeat = s.wdRepeat := rfl
@[simp] theorem State.stall_haltCause (s : State) : s.stall.haltCause = s.haltCause := rfl
@[simp] theorem State.stall_fault (s : State) : s.stall.fault = s.fault := rfl
@[simp] theorem State.stall_out (s : State) : s.stall.out = s.out := rfl

/-! ### `enterUser` -/

@[simp] theorem State.enterUser_cfg (s : State) : s.enterUser.cfg = s.cfg := rfl
@[simp] theorem State.enterUser_mem (s : State) : s.enterUser.mem = s.mem := rfl
@[simp] theorem State.enterUser_mode (s : State) : s.enterUser.mode = .user := rfl
@[simp] theorem State.enterUser_halted (s : State) : s.enterUser.halted = s.halted := rfl
@[simp] theorem State.enterUser_block (s : State) : s.enterUser.block = s.block := rfl
@[simp] theorem State.enterUser_wdTicks (s : State) : s.enterUser.wdTicks = s.wdTicks := rfl
@[simp] theorem State.enterUser_wdLastPc (s : State) : s.enterUser.wdLastPc = s.wdLastPc := rfl
@[simp] theorem State.enterUser_wdRepeat (s : State) : s.enterUser.wdRepeat = s.wdRepeat := rfl
@[simp] theorem State.enterUser_haltCause (s : State) : s.enterUser.haltCause = s.haltCause := rfl
@[simp] theorem State.enterUser_fault (s : State) : s.enterUser.fault = s.fault := rfl
@[simp] theorem State.enterUser_out (s : State) : s.enterUser.out = s.out := rfl

/-! ### `countTick` -/

@[simp] theorem State.countTick_cfg (s : State) : s.countTick.cfg = s.cfg := rfl
@[simp] theorem State.countTick_mem (s : State) : s.countTick.mem = s.mem := rfl
@[simp] theorem State.countTick_mode (s : State) : s.countTick.mode = s.mode := rfl
@[simp] theorem State.countTick_halted (s : State) : s.countTick.halted = s.halted := rfl
@[simp] theorem State.countTick_block (s : State) : s.countTick.block = s.block := rfl
@[simp] theorem State.countTick_wdTicks (s : State) : s.countTick.wdTicks = s.wdTicks + 1 := rfl
@[simp] theorem State.countTick_wdLastPc (s : State) : s.countTick.wdLastPc = s.wdLastPc := rfl
@[simp] theorem State.countTick_wdRepeat (s : State) : s.countTick.wdRepeat = s.wdRepeat := rfl
@[simp] theorem State.countTick_haltCause (s : State) : s.countTick.haltCause = s.haltCause := rfl
@[simp] theorem State.countTick_fault (s : State) : s.countTick.fault = s.fault := rfl
@[simp] theorem State.countTick_out (s : State) : s.countTick.out = s.out := rfl

/-! ### `countRepeat` -/

@[simp] theorem State.countRepeat_cfg (s : State) (p : Word) : (s.countRepeat p).cfg = s.cfg := rfl
@[simp] theorem State.countRepeat_mem (s : State) (p : Word) : (s.countRepeat p).mem = s.mem := rfl
@[simp] theorem State.countRepeat_mode (s : State) (p : Word) :
    (s.countRepeat p).mode = s.mode := rfl
@[simp] theorem State.countRepeat_halted (s : State) (p : Word) :
    (s.countRepeat p).halted = s.halted := rfl
@[simp] theorem State.countRepeat_block (s : State) (p : Word) :
    (s.countRepeat p).block = s.block := rfl
@[simp] theorem State.countRepeat_wdTicks (s : State) (p : Word) :
    (s.countRepeat p).wdTicks = s.wdTicks := rfl
@[simp] theorem State.countRepeat_wdLastPc (s : State) (p : Word) :
    (s.countRepeat p).wdLastPc = some p := rfl
@[simp] theorem State.countRepeat_wdRepeat (s : State) (p : Word) :
    (s.countRepeat p).wdRepeat = if s.wdLastPc = some p then s.wdRepeat + 1 else 0 := rfl
@[simp] theorem State.countRepeat_haltCause (s : State) (p : Word) :
    (s.countRepeat p).haltCause = s.haltCause := rfl
@[simp] theorem State.countRepeat_fault (s : State) (p : Word) :
    (s.countRepeat p).fault = s.fault := rfl
@[simp] theorem State.countRepeat_out (s : State) (p : Word) : (s.countRepeat p).out = s.out := rfl

/-! ### `clearRepeat` -/

@[simp] theorem State.clearRepeat_cfg (s : State) : s.clearRepeat.cfg = s.cfg := rfl
@[simp] theorem State.clearRepeat_mem (s : State) : s.clearRepeat.mem = s.mem := rfl
@[simp] theorem State.clearRepeat_mode (s : State) : s.clearRepeat.mode = s.mode := rfl
@[simp] theorem State.clearRepeat_halted (s : State) : s.clearRepeat.halted = s.halted := rfl
@[simp] theorem State.clearRepeat_block (s : State) : s.clearRepeat.block = s.block := rfl
@[simp] theorem State.clearRepeat_wdTicks (s : State) : s.clearRepeat.wdTicks = s.wdTicks := rfl
@[simp] theorem State.clearRepeat_wdLastPc (s : State) : s.clearRepeat.wdLastPc = none := rfl
@[simp] theorem State.clearRepeat_wdRepeat (s : State) : s.clearRepeat.wdRepeat = 0 := rfl
@[simp] theorem State.clearRepeat_haltCause (s : State) :
    s.clearRepeat.haltCause = s.haltCause := rfl
@[simp] theorem State.clearRepeat_fault (s : State) : s.clearRepeat.fault = s.fault := rfl
@[simp] theorem State.clearRepeat_out (s : State) : s.clearRepeat.out = s.out := rfl

/-! ### `unblockOne` -/

@[simp] theorem State.unblockOne_cfg (s : State) : s.unblockOne.cfg = s.cfg := rfl
@[simp] theorem State.unblockOne_mem (s : State) : s.unblockOne.mem = s.mem := rfl
@[simp] theorem State.unblockOne_mode (s : State) : s.unblockOne.mode = s.mode := rfl
@[simp] theorem State.unblockOne_halted (s : State) : s.unblockOne.halted = s.halted := rfl
@[simp] theorem State.unblockOne_block (s : State) : s.unblockOne.block = s.block - 1 := rfl
@[simp] theorem State.unblockOne_wdTicks (s : State) : s.unblockOne.wdTicks = s.wdTicks := rfl
@[simp] theorem State.unblockOne_wdLastPc (s : State) : s.unblockOne.wdLastPc = s.wdLastPc := rfl
@[simp] theorem State.unblockOne_wdRepeat (s : State) : s.unblockOne.wdRepeat = s.wdRepeat := rfl
@[simp] theorem State.unblockOne_haltCause (s : State) : s.unblockOne.haltCause = s.haltCause := rfl
@[simp] theorem State.unblockOne_fault (s : State) : s.unblockOne.fault = s.fault := rfl
@[simp] theorem State.unblockOne_out (s : State) : s.unblockOne.out = s.out := rfl

/-! ### `advanced` -/

@[simp] theorem State.advanced_cfg (s : State) (p n : Word) : (s.advanced p n).cfg = s.cfg := rfl
@[simp] theorem State.advanced_mem (s : State) (p n : Word) :
    (s.advanced p n).mem = (s.mem.set 0 (.num (p + 1))).set 3 (.num (n + 1)) := rfl
@[simp] theorem State.advanced_mode (s : State) (p n : Word) : (s.advanced p n).mode = s.mode := rfl
@[simp] theorem State.advanced_halted (s : State) (p n : Word) :
    (s.advanced p n).halted = s.halted := rfl
@[simp] theorem State.advanced_block (s : State) (p n : Word) :
    (s.advanced p n).block = s.block := rfl
@[simp] theorem State.advanced_wdTicks (s : State) (p n : Word) :
    (s.advanced p n).wdTicks = s.wdTicks := rfl
@[simp] theorem State.advanced_wdLastPc (s : State) (p n : Word) :
    (s.advanced p n).wdLastPc = s.wdLastPc := rfl
@[simp] theorem State.advanced_wdRepeat (s : State) (p n : Word) :
    (s.advanced p n).wdRepeat = s.wdRepeat := rfl
@[simp] theorem State.advanced_haltCause (s : State) (p n : Word) :
    (s.advanced p n).haltCause = s.haltCause := rfl
@[simp] theorem State.advanced_fault (s : State) (p n : Word) :
    (s.advanced p n).fault = s.fault := rfl
@[simp] theorem State.advanced_out (s : State) (p n : Word) : (s.advanced p n).out = s.out := rfl

/-! ### `watched` -/

@[simp] theorem State.watched_cfg (s : State) (p : Word) : (s.watched p).cfg = s.cfg := rfl
@[simp] theorem State.watched_mem (s : State) (p : Word) : (s.watched p).mem = s.mem := rfl
@[simp] theorem State.watched_mode (s : State) (p : Word) : (s.watched p).mode = s.mode := rfl
@[simp] theorem State.watched_halted (s : State) (p : Word) : (s.watched p).halted = s.halted := rfl
@[simp] theorem State.watched_block (s : State) (p : Word) : (s.watched p).block = s.block := rfl
@[simp] theorem State.watched_wdTicks (s : State) (p : Word) :
    (s.watched p).wdTicks = s.wdTicks + 1 := rfl
@[simp] theorem State.watched_wdLastPc (s : State) (p : Word) :
    (s.watched p).wdLastPc = some p := rfl
@[simp] theorem State.watched_wdRepeat (s : State) (p : Word) :
    (s.watched p).wdRepeat = if s.wdLastPc = some p then s.wdRepeat + 1 else 0 := rfl
@[simp] theorem State.watched_haltCause (s : State) (p : Word) :
    (s.watched p).haltCause = s.haltCause := rfl
@[simp] theorem State.watched_fault (s : State) (p : Word) : (s.watched p).fault = s.fault := rfl
@[simp] theorem State.watched_out (s : State) (p : Word) : (s.watched p).out = s.out := rfl

/-! ### Cells -/

@[simp] theorem State.cell_setCell (s : State) (a b : Nat) (c : Cell) :
    (s.setCell a c).cell b = if a = b then c else s.cell b := Memory.get_set s.mem a b c

@[simp] theorem State.cell_poke (s : State) (a b : Nat) (w : Word) :
    (s.poke a w).cell b = if a = b then .num w else s.cell b := Memory.get_set s.mem a b (.num w)

@[simp] theorem State.cell_takeFault (s : State) (o : Option Opcode) (e : Raise) (b : Nat) : (s.takeFault o e).cell b = s.cell b := rfl
@[simp] theorem State.cell_halt (s : State) (c : HaltCause) (b : Nat) : (s.halt c).cell b = s.cell b := rfl
@[simp] theorem State.cell_emit (s : State) (w : Word) (b : Nat) : (s.emit w).cell b = s.cell b := rfl
@[simp] theorem State.cell_stall (s : State) (b : Nat) : s.stall.cell b = s.cell b := rfl
@[simp] theorem State.cell_enterUser (s : State) (b : Nat) : s.enterUser.cell b = s.cell b := rfl
@[simp] theorem State.cell_countTick (s : State) (b : Nat) : s.countTick.cell b = s.cell b := rfl
@[simp] theorem State.cell_countRepeat (s : State) (p : Word) (b : Nat) : (s.countRepeat p).cell b = s.cell b := rfl
@[simp] theorem State.cell_clearRepeat (s : State) (b : Nat) : s.clearRepeat.cell b = s.cell b := rfl
@[simp] theorem State.cell_unblockOne (s : State) (b : Nat) : s.unblockOne.cell b = s.cell b := rfl
@[simp] theorem State.cell_watched (s : State) (p : Word) (b : Nat) : (s.watched p).cell b = s.cell b := rfl

/-- A fresh machine reads `Num(0)` everywhere (R46). -/
@[simp] theorem State.cell_construct (p : Params) (a : Nat) :
    (State.construct p).cell a = Cell.zero := rfl

/-- `State.faulted` is what taking a fault does (R291). -/
theorem State.takeFault_eq_faulted (s : State) (o : Option Opcode) (e : Raise) :
    s.takeFault o e = s.faulted o e.cause e.addr := rfl

/-- `State.watched` is what step 1 does (R271, R272). -/
theorem State.countRepeat_countTick (s : State) (p : Word) :
    s.countTick.countRepeat p = s.watched p := rfl

end Sys2Proof.Machine
end

