-- ==== Sys2Proof/Laws/Ops.lean ====
section
/-! SUPPORT. For each shared operation of Machine/Ops.lean, Operands.lean and Flags.lean, what it can
answer, said once. -/

namespace Sys2Proof.Machine

@[simp] theorem Reg.addr_pc : Reg.pc.addr = 0 := rfl
@[simp] theorem Reg.addr_sp : Reg.sp.addr = 1 := rfl
@[simp] theorem Reg.addr_lsr : Reg.lsr.addr = 2 := rfl
@[simp] theorem Reg.addr_tic : Reg.tic.addr = 3 := rfl
@[simp] theorem Reg.addr_ctid : Reg.ctid.addr = 4 := rfl
@[simp] theorem Reg.addr_atc : Reg.atc.addr = 5 := rfl
@[simp] theorem Reg.addr_ttb : Reg.ttb.addr = 6 := rfl

/-- A control register is one of the cells 0 to 6 (R25). -/
theorem Reg.addr_lt (r : Reg) : r.addr < 7 := by cases r <;> decide

/-! ### Words and their range -/

/-- The value of a word is in the range of words (R7). -/
theorem fitsWord_toInt (w : Word) : fitsWord w.toInt := by
  have h1 := BitVec.le_toInt w
  have h2 := BitVec.toInt_lt (x := w)
  simp only [fitsWord, xmin, xmax]
  omega

/-- Storing a word's value stores the word. -/
@[simp] theorem ofInt_toInt (w : Word) : BitVec.ofInt 32 w.toInt = w := BitVec.ofInt_toInt

/-- The word that stores a value in range has that value. -/
theorem toInt_ofInt_of_fits (v : Int) (h : fitsWord v) : (BitVec.ofInt 32 v).toInt = v := by
  simp only [fitsWord, xmin, xmax] at h
  rw [BitVec.toInt_ofInt, Int.bmod_def]
  omega

/-- Counting a word up by one, in range. -/
theorem ofInt_add_one (w : Word) : BitVec.ofInt 32 (w.toInt + 1) = w + 1 := by
  rw [BitVec.ofInt_add]; simp

/-- Counting a word down by one. -/
theorem ofInt_sub_one (w : Word) : BitVec.ofInt 32 (w.toInt - 1) = w - 1 := by
  rw [Int.sub_eq_add_neg, BitVec.ofInt_add, BitVec.sub_eq_add_neg, ofInt_toInt]; rfl

theorem fitsWord_add_one (w : Word) : fitsWord (w.toInt + 1) ↔ w.toInt < xmax := by
  have h := fitsWord_toInt w
  simp only [fitsWord, xmin, xmax] at *
  omega

theorem fitsWord_sub_one (w : Word) : fitsWord (w.toInt - 1) ↔ xmin < w.toInt := by
  have h := fitsWord_toInt w
  simp only [fitsWord, xmin, xmax] at *
  omega

/-! ### Sequencing -/

/-- A sequence completes when its first part does and the rest does with its value. -/
theorem bind_ok {α β : Type} (x : Result α) (f : α → Result β) (b : β) :
    (x >>= f) = .ok b ↔ ∃ a, x = .ok a ∧ f a = .ok b := by
  cases x with
  | error e => exact ⟨fun h => (by cases h), fun ⟨a, h, _⟩ => (by cases h)⟩
  | ok a => exact ⟨fun h => ⟨a, rfl, h⟩, fun ⟨a', h, h'⟩ => by cases h; exact h'⟩

@[simp] theorem ok_bind {α β : Type} (a : α) (f : α → Result β) :
    ((Except.ok a : Result α) >>= f) = f a := rfl

@[simp] theorem error_bind {α β : Type} (e : Raise) (f : α → Result β) :
    ((Except.error e : Result α) >>= f) = .error e := rfl

/-! ### Checks -/

theorem State.bounds_ok (s : State) (a : Int) (u : Unit) :
    s.bounds a = .ok u ↔ s.Mapped a := by
  cases u
  unfold State.bounds State.Mapped
  split
  · next h => simp only [reduceCtorEq, false_iff]; omega
  · next h => simp only [true_iff]; omega

theorem State.bounds_error (s : State) (a : Int) (h : ¬ s.Mapped a) :
    s.bounds a = .error ⟨.outOfBounds, a⟩ := by
  unfold State.bounds
  rw [if_pos]
  unfold State.Mapped at h
  omega

theorem State.modeOk_ok (s : State) (a : Int) (u : Unit) :
    s.modeOk a = .ok u ↔ s.Allowed a := by
  cases u
  unfold State.modeOk State.Allowed
  split
  · next h => simp only [reduceCtorEq, false_iff]; intro h'; have := h' h.1; omega
  · next h =>
    simp only [true_iff]
    intro hm
    by_contra hlt
    exact h ⟨hm, by omega⟩

theorem State.modeOk_error (s : State) (a : Int) (h : ¬ s.Allowed a) :
    s.modeOk a = .error ⟨.protectionViolation, a⟩ := by
  unfold State.modeOk
  rw [if_pos]
  unfold State.Allowed at h
  push Not at h
  exact ⟨h.1, h.2⟩

theorem State.number_ok (s : State) (a : Int) (w : Word) : s.number a = .ok w ↔ s.Holds a w := by
  unfold State.number State.Holds
  cases h : s.cell a.toNat <;> simp

theorem State.number_error (s : State) (a : Int) {o : Opcode} {x y : Word}
    (h : s.cell a.toNat = .ins o x y) : s.number a = .error ⟨.codeAsData, a⟩ := by
  unfold State.number
  rw [h]

theorem inRange_ok (a v : Int) (w : Word) :
    inRange a v = .ok w ↔ fitsWord v ∧ w = BitVec.ofInt 32 v := by
  unfold inRange
  split
  · next h => exact ⟨fun hw => ⟨h, by cases hw; rfl⟩, fun hw => by rw [hw.2]⟩
  · next h => exact ⟨fun hw => (by cases hw), fun hw => absurd hw.1 h⟩

theorem inRange_error (a v : Int) (h : ¬ fitsWord v) :
    inRange a v = .error ⟨.arithmeticOverflow, a⟩ := if_neg h

/-! ### Access primitives -/

/-- What `MemRead` answers (R66). -/
theorem State.memRead_ok (s : State) (a : Int) (w : Word) :
    s.memRead a = .ok w ↔ s.Readable a w := by
  simp only [State.memRead, bind_ok, State.bounds_ok, State.modeOk_ok, State.number_ok]
  exact ⟨fun ⟨_, h1, _, h2, h3⟩ => ⟨h1, h2, h3⟩, fun ⟨h1, h2, h3⟩ => ⟨(), h1, (), h2, h3⟩⟩

/-- What `MemWrite` answers (R67). -/
theorem State.memWrite_ok (s : State) (a v : Int) (t : State) :
    s.memWrite a v = .ok t ↔
      s.Writable a ∧ fitsWord v ∧ t = s.poke a.toNat (BitVec.ofInt 32 v) := by
  simp only [State.memWrite, bind_ok, State.bounds_ok, State.modeOk_ok, inRange_ok]
  constructor
  · rintro ⟨_, h1, _, h2, _, ⟨h3, rfl⟩, h4⟩
    exact ⟨⟨h1, h2⟩, h3, by cases h4; rfl⟩
  · rintro ⟨⟨h1, h2⟩, h3, rfl⟩
    exact ⟨(), h1, (), h2, _, ⟨h3, rfl⟩, rfl⟩

/-- What a read of a control register answers (R68). -/
theorem State.reg_ok (s : State) (r : Reg) (w : Word) : s.reg r = .ok w ↔ s.HoldsReg r w :=
  s.number_ok r.addr w

/-- What a write of a control register answers (R69). -/
theorem State.setReg_ok (s : State) (r : Reg) (v : Int) (t : State) :
    s.setReg r v = .ok t ↔ fitsWord v ∧ t = s.poke r.addr (BitVec.ofInt 32 v) := by
  simp only [State.setReg, bind_ok, inRange_ok]
  constructor
  · rintro ⟨_, ⟨h3, rfl⟩, h4⟩
    exact ⟨h3, by cases h4; rfl⟩
  · rintro ⟨h3, rfl⟩
    exact ⟨_, ⟨h3, rfl⟩, rfl⟩

/-- What `TblRead` answers (R70). -/
theorem State.tblRead_ok (s : State) (a : Int) (w : Word) :
    s.tblRead a = .ok w ↔ s.Mapped a ∧ s.Holds a w := by
  simp only [State.tblRead, bind_ok, State.bounds_ok, State.number_ok]
  exact ⟨fun ⟨_, h1, h3⟩ => ⟨h1, h3⟩, fun ⟨h1, h3⟩ => ⟨(), h1, h3⟩⟩

/-- What `TblWrite` answers (R70). -/
theorem State.tblWrite_ok (s : State) (a v : Int) (t : State) :
    s.tblWrite a v = .ok t ↔
      s.Mapped a ∧ fitsWord v ∧ t = s.poke a.toNat (BitVec.ofInt 32 v) := by
  simp only [State.tblWrite, bind_ok, State.bounds_ok, inRange_ok]
  constructor
  · rintro ⟨_, h1, _, ⟨h3, rfl⟩, h4⟩
    exact ⟨h1, h3, by cases h4; rfl⟩
  · rintro ⟨h1, h3, rfl⟩
    exact ⟨(), h1, _, ⟨h3, rfl⟩, rfl⟩

/-- What `Fetch` answers (R72). -/
theorem State.fetch_ok (s : State) (a : Int) (c : Cell) :
    s.fetch a = .ok c ↔ s.Mapped a ∧ s.Allowed a ∧ s.cell a.toNat = c := by
  simp only [State.fetch, bind_ok, State.bounds_ok, State.modeOk_ok, Except.ok.injEq]
  exact ⟨fun ⟨_, h1, _, h2, h3⟩ => ⟨h1, h2, h3⟩, fun ⟨h1, h2, h3⟩ => ⟨(), h1, (), h2, h3⟩⟩

/-! ### The faults of an access, in the order of the checks (R73) -/

theorem State.memRead_outOfBounds (s : State) (a : Int) (h : ¬ s.Mapped a) :
    s.memRead a = .error ⟨.outOfBounds, a⟩ := by
  simp [State.memRead, s.bounds_error a h]

theorem State.memRead_protected (s : State) (a : Int) (h : s.Mapped a) (h' : ¬ s.Allowed a) :
    s.memRead a = .error ⟨.protectionViolation, a⟩ := by
  simp [State.memRead, (s.bounds_ok a ()).2 h, s.modeOk_error a h']

theorem State.memRead_code (s : State) (a : Int) (h : s.Mapped a) (h' : s.Allowed a) {o : Opcode}
    {x y : Word} (hc : s.cell a.toNat = .ins o x y) :
    s.memRead a = .error ⟨.codeAsData, a⟩ := by
  simp [State.memRead, (s.bounds_ok a ()).2 h, (s.modeOk_ok a ()).2 h', s.number_error a hc]

theorem State.memWrite_outOfBounds (s : State) (a v : Int) (h : ¬ s.Mapped a) :
    s.memWrite a v = .error ⟨.outOfBounds, a⟩ := by
  simp [State.memWrite, s.bounds_error a h]

theorem State.memWrite_protected (s : State) (a v : Int) (h : s.Mapped a) (h' : ¬ s.Allowed a) :
    s.memWrite a v = .error ⟨.protectionViolation, a⟩ := by
  simp [State.memWrite, (s.bounds_ok a ()).2 h, s.modeOk_error a h']

theorem State.memWrite_overflow (s : State) (a v : Int) (h : s.Writable a) (hv : ¬ fitsWord v) :
    s.memWrite a v = .error ⟨.arithmeticOverflow, a⟩ := by
  simp [State.memWrite, (s.bounds_ok a ()).2 h.1, (s.modeOk_ok a ()).2 h.2, inRange_error a v hv]

theorem State.isCode_iff (s : State) (a : Int) :
    s.isCode a = true ↔ ∃ o x y, s.cell a.toNat = .ins o x y := by
  unfold State.isCode
  cases s.cell a.toNat <;> simp

/-- The fault a read raises, whichever check fails first (R66, R73). -/
theorem State.memRead_faults {s : State} {a : Int} {c : FaultCause} (h : s.ReadFaults a c) :
    s.memRead a = .error ⟨c, a⟩ := by
  rcases h with ⟨h, rfl⟩ | ⟨h, h', rfl⟩ | ⟨h, h', hc, rfl⟩
  · exact s.memRead_outOfBounds a h
  · exact s.memRead_protected a h h'
  · obtain ⟨_, _, _, hc⟩ := (s.isCode_iff a).1 hc
    exact s.memRead_code a h h' hc

/-- The fault a write raises before its value is looked at (R67, R73). -/
theorem State.memWrite_faults {s : State} {a : Int} (v : Int) {c : FaultCause}
    (h : s.WriteFaults a c) : s.memWrite a v = .error ⟨c, a⟩ := by
  rcases h with ⟨h, rfl⟩ | ⟨h, h', rfl⟩
  · exact s.memWrite_outOfBounds a v h
  · exact s.memWrite_protected a v h h'

theorem State.tblWrite_outOfBounds (s : State) (a v : Int) (h : ¬ s.Mapped a) :
    s.tblWrite a v = .error ⟨.outOfBounds, a⟩ := by
  simp [State.tblWrite, s.bounds_error a h]

theorem State.reg_code (s : State) (r : Reg) {o : Opcode} {x y : Word}
    (h : s.cell r.addr = .ins o x y) : s.reg r = .error ⟨.codeAsData, r.addr⟩ := by
  unfold State.reg
  exact s.number_error _ (by simpa using h)

theorem State.setReg_overflow (s : State) (r : Reg) (v : Int) (h : ¬ fitsWord v) :
    s.setReg r v = .error ⟨.arithmeticOverflow, r.addr⟩ := by
  simp [State.setReg, inRange_error _ _ h]

/-! ### The end of a tick -/

@[simp] theorem settle_ok (o : Option Opcode) (s t : State) : settle o s (.ok t) = t := rfl

@[simp] theorem settle_error (o : Option Opcode) (s : State) (e : Raise) :
    settle o s (.error e) = s.takeFault o e := rfl

/-- An instruction that completes gives the state its pseudocode reached (R153). -/
theorem commit_ok (o : Option Opcode) (s t : State) : commit o s (.ok t) = .next t := rfl

/-- An instruction that faults gives the state it began in, with the fault taken (R291). -/
theorem commit_error (o : Option Opcode) (s : State) (e : Raise) :
    commit o s (.error e) = .next (s.takeFault o e) := rfl

/-- What an instruction can answer: it completes, or it takes a fault. -/
theorem commit_cases (o : Option Opcode) (s t : State) (r : Result State)
    (h : commit o s r = .next t) : r = .ok t ∨ ∃ e, r = .error e ∧ t = s.takeFault o e := by
  cases r with
  | ok u => cases h; exact .inl rfl
  | error e => cases h; exact .inr ⟨e, rfl, rfl⟩

/-! ### Step 6 and the stack -/

/-- What step 6 answers (R149). -/
theorem State.autoAdvance_ok (s t : State) :
    s.autoAdvance = .ok t ↔ ∃ p n, s.CountsFrom p n ∧ t = s.advanced p n := by
  simp only [State.autoAdvance, bind_ok, State.reg_ok, State.setReg_ok]
  constructor
  · rintro ⟨p, hp, s1, ⟨hf, rfl⟩, n, hn, hf', rfl⟩
    rw [fitsWord_add_one] at hf hf'
    simp only [State.HoldsReg, State.cell_poke, Reg.addr_pc, Reg.addr_tic] at hn
    exact ⟨p, n, ⟨hp, hf, by simpa [State.HoldsReg] using hn, hf'⟩, by simp [State.advanced, ofInt_add_one]⟩
  · rintro ⟨p, n, ⟨hp, hf, hn, hf'⟩, rfl⟩
    refine ⟨p, hp, _, ⟨(fitsWord_add_one p).2 hf, rfl⟩, n, ?_, (fitsWord_add_one n).2 hf', ?_⟩
    · simpa [State.HoldsReg] using hn
    · simp [State.advanced, ofInt_add_one]

/-- `PC + 1` does not fit (R149). -/
theorem State.autoAdvance_pcOverflow (s : State) {p : Word} (hp : s.HoldsReg .pc p)
    (hx : p.toInt = xmax) : s.autoAdvance = .error ⟨.arithmeticOverflow, 0⟩ := by
  have hf : ¬ fitsWord (p.toInt + 1) := by rw [fitsWord_add_one]; omega
  simp [State.autoAdvance, (s.reg_ok .pc p).2 hp, s.setReg_overflow .pc _ hf]

/-- Past `PC + 1`, step 6 is what it does with `TIC` (R149). -/
theorem State.autoAdvance_tic (s : State) {p : Word} (hp : s.HoldsReg .pc p)
    (hx : p.toInt < xmax) :
    s.autoAdvance = (do
      let n ← s.reg .tic
      (s.poke Reg.pc.addr (p + 1)).setReg .tic (n.toInt + 1)) := by
  have h1 : s.setReg .pc (p.toInt + 1) = .ok (s.poke Reg.pc.addr (p + 1)) :=
    (s.setReg_ok _ _ _).2 ⟨(fitsWord_add_one p).2 hx, by rw [ofInt_add_one]⟩
  have h2 : (s.poke Reg.pc.addr (p + 1)).reg .tic = s.reg .tic := by
    simp [State.reg, State.number]
  simp only [State.autoAdvance, (s.reg_ok .pc p).2 hp, h1, h2, ok_bind]

/-- `TIC` is an instruction cell (R149, R305). -/
theorem State.autoAdvance_ticCode (s : State) {p : Word} (hp : s.HoldsReg .pc p)
    (hx : p.toInt < xmax) (hc : s.isCode 3 = true) :
    s.autoAdvance = .error ⟨.codeAsData, 3⟩ := by
  obtain ⟨o, x, y, h⟩ := (s.isCode_iff 3).1 hc
  rw [s.autoAdvance_tic hp hx, s.reg_code .tic h]
  rfl

/-- `TIC + 1` does not fit (R149). -/
theorem State.autoAdvance_ticOverflow (s : State) {p n : Word} (hp : s.HoldsReg .pc p)
    (hx : p.toInt < xmax) (hn : s.HoldsReg .tic n) (hm : n.toInt = xmax) :
    s.autoAdvance = .error ⟨.arithmeticOverflow, 3⟩ := by
  have hf : ¬ fitsWord (n.toInt + 1) := by rw [fitsWord_add_one]; omega
  rw [s.autoAdvance_tic hp hx, (s.reg_ok .tic n).2 hn]
  exact (s.poke Reg.pc.addr (p + 1)).setReg_overflow .tic _ hf

/-- What a read through an address operand answers (R66). -/
theorem State.readOperand_ok (s : State) (a w : Word) :
    s.readOperand a = .ok w ↔ s.Readable a.toInt w := s.memRead_ok a.toInt w

/-- What a read through a pointer answers (R172). -/
theorem State.readIndirect_ok (s : State) (a w : Word) :
    s.readIndirect a = .ok w ↔ ∃ p, s.Readable a.toInt p ∧ s.Readable p.toInt w := by
  simp only [State.readIndirect, bind_ok, State.readOperand_ok, State.memRead_ok]

/-- What a store to an address operand answers (R67). -/
theorem State.writeOperand_ok (s : State) (a : Word) (v : Int) (t : State) :
    s.writeOperand a v = .ok t ↔
      s.Writable a.toInt ∧ fitsWord v ∧ t = s.poke a.toInt.toNat (BitVec.ofInt 32 v) :=
  s.memWrite_ok a.toInt v t

/-- What a push answers (R190). -/
theorem State.push_ok (s : State) (v : Result Int) (t : State) :
    s.push v = .ok t ↔
      ∃ p x q, s.HoldsReg .sp p ∧ v = .ok x ∧ s.Writable p.toInt ∧ fitsWord x ∧
        (s.poke p.toInt.toNat (BitVec.ofInt 32 x)).HoldsReg .sp q ∧ xmin < q.toInt ∧
        t = (s.poke p.toInt.toNat (BitVec.ofInt 32 x)).poke Reg.sp.addr (q - 1) := by
  simp only [State.push, bind_ok, State.reg_ok, State.setReg_ok, State.memWrite_ok,
    fitsWord_sub_one, ofInt_sub_one]
  constructor
  · rintro ⟨p, hp, x, hx, s1, ⟨hw, hf, rfl⟩, q, hq, hm, rfl⟩
    exact ⟨p, x, q, hp, hx, hw, hf, hq, hm, rfl⟩
  · rintro ⟨p, x, q, hp, hx, hw, hf, hq, hm, rfl⟩
    exact ⟨p, hp, x, hx, _, ⟨hw, hf, rfl⟩, q, hq, hm, rfl⟩

/-- What a pop answers (R190). -/
theorem State.pop_ok (s : State) (w : Word) (t : State) :
    s.pop = .ok (w, t) ↔
      ∃ p, s.HoldsReg .sp p ∧ p.toInt < xmax ∧
        (s.poke Reg.sp.addr (p + 1)).Readable (p.toInt + 1) w ∧ t = s.poke Reg.sp.addr (p + 1) := by
  simp only [State.pop, bind_ok, State.reg_ok, State.setReg_ok, State.memRead_ok,
    fitsWord_add_one, ofInt_add_one, Except.ok.injEq, Prod.mk.injEq]
  have hval : ∀ p : Word, p.toInt < xmax → (p + 1).toInt = p.toInt + 1 := by
    intro p hp
    rw [← ofInt_add_one]
    exact toInt_ofInt_of_fits _ ((fitsWord_add_one p).2 hp)
  constructor
  · rintro ⟨p, hp, s1, ⟨hf, rfl⟩, q, hq, w', hw, rfl, rfl⟩
    have : q = p + 1 := by simpa [State.HoldsReg, eq_comm] using hq
    subst this
    rw [hval p hf] at hw
    exact ⟨p, hp, hf, hw, rfl⟩
  · rintro ⟨p, hp, hf, hw, rfl⟩
    refine ⟨p, hp, _, ⟨hf, rfl⟩, p + 1, by simp [State.HoldsReg], w, ?_, rfl, rfl⟩
    rwa [hval p hf]

/-- A push whose stack cell may not be written faults there (R190). -/
theorem State.push_faults {s : State} {sp : Word} (x : Int) {c : FaultCause}
    (hsp : s.HoldsReg .sp sp) (h : s.WriteFaults sp.toInt c) :
    s.push (.ok x) = .error ⟨c, sp.toInt⟩ := by
  simp [State.push, (s.reg_ok .sp sp).2 hsp, State.memWrite_faults x h]

/-- A push of a value that no word holds faults at the stack cell (R71, R190). -/
theorem State.push_overflow {s : State} {sp : Word} {x : Int} (hsp : s.HoldsReg .sp sp)
    (hw : s.Writable sp.toInt) (hx : ¬ fitsWord x) :
    s.push (.ok x) = .error ⟨.arithmeticOverflow, sp.toInt⟩ := by
  simp [State.push, (s.reg_ok .sp sp).2 hsp, s.memWrite_overflow sp.toInt x hw hx]

/-- A push that cannot count `SP` down faults at `SP` (R190, R297). -/
theorem State.push_spOverflow {s : State} {sp w q : Word} (hsp : s.HoldsReg .sp sp)
    (hw : s.Writable sp.toInt) (hq : (s.poke sp.toInt.toNat w).HoldsReg .sp q)
    (hm : q.toInt = xmin) : s.push (.ok w.toInt) = .error ⟨.arithmeticOverflow, 1⟩ := by
  have h1 : s.memWrite sp.toInt w.toInt = .ok (s.poke sp.toInt.toNat w) :=
    (s.memWrite_ok _ _ _).2 ⟨hw, fitsWord_toInt w, by rw [ofInt_toInt]⟩
  have hf : ¬ fitsWord (q.toInt - 1) := by rw [fitsWord_sub_one]; omega
  simp only [State.push, (s.reg_ok .sp sp).2 hsp, h1, ok_bind, (State.reg_ok _ .sp q).2 hq]
  exact State.setReg_overflow _ .sp _ hf

/-- A pop that cannot count `SP` up faults at `SP` (R190, R297). -/
theorem State.pop_spOverflow {s : State} {sp : Word} (hsp : s.HoldsReg .sp sp)
    (hm : sp.toInt = xmax) : s.pop = .error ⟨.arithmeticOverflow, 1⟩ := by
  have hf : ¬ fitsWord (sp.toInt + 1) := by rw [fitsWord_add_one]; omega
  simp [State.pop, (s.reg_ok .sp sp).2 hsp, s.setReg_overflow .sp _ hf]

/-- A pop whose stack cell may not be read faults there (R190). -/
theorem State.pop_faults {s : State} {sp : Word} {c : FaultCause} (hsp : s.HoldsReg .sp sp)
    (hx : sp.toInt < xmax) (h : (s.popped sp).ReadFaults (sp.toInt + 1) c) :
    s.pop = .error ⟨c, sp.toInt + 1⟩ := by
  have hf := (fitsWord_add_one sp).2 hx
  have h1 : s.setReg .sp (sp.toInt + 1) = .ok (s.popped sp) :=
    (s.setReg_ok _ _ _).2 ⟨hf, by rw [ofInt_add_one]; rfl⟩
  have h2 : (s.popped sp).reg .sp = .ok (sp + 1) :=
    (State.reg_ok _ _ _).2 (by simp [State.popped, State.HoldsReg])
  have h3 : (sp + 1).toInt = sp.toInt + 1 := by
    rw [← ofInt_add_one]
    exact toInt_ofInt_of_fits _ hf
  simp only [State.pop, (s.reg_ok .sp sp).2 hsp, h1, h2, h3, State.memRead_faults h, ok_bind]
  rfl

/-- What the return address of CALL is (R201). -/
theorem State.returnAddress_ok (s : State) (x : Int) :
    s.returnAddress = .ok x ↔ ∃ p, s.HoldsReg .pc p ∧ x = p.toInt + 1 := by
  simp only [State.returnAddress, bind_ok, State.reg_ok, Except.ok.injEq]
  exact exists_congr fun _ => and_congr_right fun _ => eq_comm

/-! ### Conditions -/

theorem jumpTaken_iff (w : Word) : jumpTaken w = true ↔ w.toInt ≤ 0 := decide_eq_true_iff

theorem isReady_iff (w : Word) : isReady w = true ↔ w.toInt = 1 := decide_eq_true_iff

theorem isRunning_iff (w : Word) : isRunning w = true ↔ w.toInt = 2 := decide_eq_true_iff

theorem State.validId_iff (s : State) (i : Int) :
    s.validId i = true ↔ 1 ≤ i ∧ i ≤ (s.cfg.maxThreads : Int) := by
  simp [State.validId]

end Sys2Proof.Machine
end

