-- ==== Sys2Proof/Laws/PerInstr.lean ====
section
/-! SUPPORT. A statement about every instruction as syntax, one lemma per constructor: the bits of its
encoding are those of R110, R111 and R113, and its reserved fields are zero. -/

namespace Sys2Proof.Laws.EncodedFields

/-- The encoding of `i` is a 73-bit cell with the tag 1, the opcode number of `i` in bits 71:64, its first
operand in 63:32 and its second in 31:0 (R110, R111); the reserved fields of its format are zero (R114);
and its number is an assigned one exactly if `i` is one of the sixteen instructions (R117). -/
def Statement (i : Instr) : Prop :=
  (encode i).getLsbD 72 = true ∧ (encode i).extractLsb' 64 8 = i.opcode ∧
    (encode i).extractLsb' 32 32 = i.fieldA ∧ (encode i).extractLsb' 0 32 = i.fieldB ∧
    (formatOf i.opcode).reservedZero i.fieldA i.fieldB = true ∧
    opcodeAssigned i.opcode = i.isInstruction

/-- The part that no constructor decides. -/
theorem of_format (i : Instr) (h : (formatOf i.opcode).reservedZero i.fieldA i.fieldB = true)
    (h' : opcodeAssigned i.opcode = i.isInstruction) : Statement i :=
  ⟨Cell.toBits_ins_tag _ _ _, Cell.toBits_ins_opc _ _ _, Cell.toBits_ins_a _ _ _,
    Cell.toBits_ins_b _ _ _, h, h'⟩

theorem blank : Statement .blank := of_format _ rfl rfl
theorem set (v a : Word) : Statement (.set v a) := of_format _ rfl rfl
theorem cpy (a b : Word) : Statement (.cpy a b) := of_format _ rfl rfl
theorem cpyi (a b : Word) : Statement (.cpyi a b) := of_format _ rfl rfl
theorem add (a v : Word) : Statement (.add a v) := of_format _ rfl rfl
theorem addi (a b : Word) : Statement (.addi a b) := of_format _ rfl rfl
theorem subi (a b : Word) : Statement (.subi a b) := of_format _ rfl rfl
theorem jif (a t : Word) : Statement (.jif a t) := of_format _ rfl rfl
theorem push (a : Word) : Statement (.push a) := of_format _ rfl rfl
theorem pop (a : Word) : Statement (.pop a) := of_format _ rfl rfl
theorem call (t : Word) : Statement (.call t) := of_format _ rfl rfl
theorem ret : Statement .ret := of_format _ rfl rfl
theorem hlt : Statement .hlt := of_format _ rfl rfl
theorem user (a : Word) : Statement (.user a) := of_format _ rfl rfl
theorem syscallPrn (a : Word) : Statement (.syscallPrn a) := of_format _ rfl rfl
theorem syscallHlt : Statement .syscallHlt := of_format _ rfl rfl
theorem syscallYield : Statement .syscallYield := of_format _ rfl rfl
theorem malformed : Statement .malformed := of_format _ rfl rfl

end Sys2Proof.Laws.EncodedFields
end

