-- ==== Sys2Proof/Laws/Stores.lean ====
section
/-! SUPPORT. What a sequence of stores can do to a state: nothing but memory differs, the cells outside
an address set are as before, and no cell becomes an instruction cell. -/

namespace Sys2Proof.Machine

/-- `t` is `s` after stores of numbers at addresses in `A` only. -/
structure Stores (A : Nat → Prop) (s t : State) : Prop where
  frame : t = { s with mem := t.mem }
  outside : ∀ a, ¬ A a → t.cell a = s.cell a
  numeric : ∀ a, t.cell a = s.cell a ∨ ∃ v, t.cell a = .num v
  wf : s.mem.wf → t.mem.wf
  within : ∀ n, (∀ a, A a → a < n) → s.mem.within n → t.mem.within n

theorem Stores.refl (A : Nat → Prop) (s : State) : Stores A s s :=
  ⟨rfl, fun _ _ => rfl, fun _ => .inl rfl, id, fun _ _ h => h⟩

/-- One store. -/
theorem Stores.poke {A : Nat → Prop} (s : State) (a : Nat) (w : Word) (ha : A a) :
    Stores A s (s.poke a w) where
  frame := rfl
  outside b hb := by
    rw [State.cell_poke, if_neg]
    rintro rfl
    exact hb ha
  numeric b := by
    rw [State.cell_poke]
    split
    · exact .inr ⟨w, rfl⟩
    · exact .inl rfl
  wf h := Memory.wf_set _ _ _ h
  within n hA h := Memory.within_set _ _ _ _ h (hA a ha)

theorem Stores.trans {A : Nat → Prop} {s t u : State} (h : Stores A s t) (h' : Stores A t u) :
    Stores A s u where
  frame := by
    have h1 := h.frame
    have h2 := h'.frame
    rw [h1] at h2
    exact h2
  outside a ha := (h'.outside a ha).trans (h.outside a ha)
  numeric a := by
    rcases h'.numeric a with h2 | ⟨v, h2⟩
    · rw [h2]; exact h.numeric a
    · exact .inr ⟨v, h2⟩
  wf hw := h'.wf (h.wf hw)
  within n hA hw := h'.within n hA (h.within n hA hw)

theorem Stores.mono {A B : Nat → Prop} {s t : State} (h : Stores A s t) (hAB : ∀ a, A a → B a) :
    Stores B s t :=
  ⟨h.frame, fun a ha => h.outside a (fun h' => ha (hAB a h')), h.numeric, h.wf,
    fun n hB => h.within n (fun a ha => hB a (hAB a ha))⟩

section fields
variable {A : Nat → Prop} {s t : State}

theorem Stores.cfg (h : Stores A s t) : t.cfg = s.cfg := by rw [h.frame]
theorem Stores.mode (h : Stores A s t) : t.mode = s.mode := by rw [h.frame]
theorem Stores.halted (h : Stores A s t) : t.halted = s.halted := by rw [h.frame]
theorem Stores.block (h : Stores A s t) : t.block = s.block := by rw [h.frame]
theorem Stores.wdTicks (h : Stores A s t) : t.wdTicks = s.wdTicks := by rw [h.frame]
theorem Stores.wdLastPc (h : Stores A s t) : t.wdLastPc = s.wdLastPc := by rw [h.frame]
theorem Stores.wdRepeat (h : Stores A s t) : t.wdRepeat = s.wdRepeat := by rw [h.frame]
theorem Stores.haltCause (h : Stores A s t) : t.haltCause = s.haltCause := by rw [h.frame]
theorem Stores.fault (h : Stores A s t) : t.fault = s.fault := by rw [h.frame]
theorem Stores.out (h : Stores A s t) : t.out = s.out := by rw [h.frame]

end fields

/-! ### The shared operations as stores -/

section ops
variable {A : Nat → Prop} {s t : State}

theorem memWrite_stores {a v : Int} (h : s.memWrite a v = .ok t) (hA : s.Mapped a → A a.toNat) :
    Stores A s t := by
  obtain ⟨⟨hm, -⟩, -, rfl⟩ := (State.memWrite_ok s a v t).1 h
  exact Stores.poke s _ _ (hA hm)

theorem setReg_stores {r : Reg} {v : Int} (h : s.setReg r v = .ok t) (hA : A r.addr) :
    Stores A s t := by
  obtain ⟨-, rfl⟩ := (State.setReg_ok s r v t).1 h
  exact Stores.poke s _ _ hA

theorem tblWrite_stores {a v : Int} (h : s.tblWrite a v = .ok t) (hA : s.Mapped a → A a.toNat) :
    Stores A s t := by
  obtain ⟨hm, -, rfl⟩ := (State.tblWrite_ok s a v t).1 h
  exact Stores.poke s _ _ (hA hm)

theorem writeOperand_stores {a : Word} {v : Int} (h : s.writeOperand a v = .ok t)
    (hA : s.Mapped a.toInt → A a.toInt.toNat) : Stores A s t := memWrite_stores h hA

theorem autoAdvance_stores (h : s.autoAdvance = .ok t) (h0 : A 0) (h3 : A 3) : Stores A s t := by
  obtain ⟨p, n, -, rfl⟩ := (State.autoAdvance_ok s t).1 h
  exact (Stores.poke s _ _ h0).trans (Stores.poke _ _ _ h3)

theorem push_stores {v : Result Int} (h : s.push v = .ok t) (h1 : A 1)
    (hA : ∀ p, s.HoldsReg .sp p → s.Mapped p.toInt → A p.toInt.toNat) : Stores A s t := by
  obtain ⟨p, x, q, hp, -, hw, -, -, -, rfl⟩ := (State.push_ok s v t).1 h
  exact (Stores.poke s _ _ (hA p hp hw.1)).trans (Stores.poke _ _ _ h1)

theorem pop_stores {w : Word} (h : s.pop = .ok (w, t)) (h1 : A 1) : Stores A s t := by
  obtain ⟨p, -, -, -, rfl⟩ := (State.pop_ok s w t).1 h
  exact Stores.poke s _ _ h1

end ops

end Sys2Proof.Machine
end

