-- ==== Sys2Proof/Laws/Scheduler.lean ====
section
/-! SUPPORT. What the operations of the scheduler can answer, said once. -/

namespace Sys2Proof.Machine

/-! ### Slot words -/

/-- What the address of a slot word is (R240). -/
theorem State.slot_ok (s : State) (i : Int) (k : SlotWord) (a : Int) :
    s.slot i k = .ok a ↔ ∃ base, s.HoldsReg .ttb base ∧ a = slotAddr s.cfg base i k := by
  simp only [State.slot, bind_ok, State.reg_ok, Except.ok.injEq]
  exact exists_congr fun _ => and_congr_right fun _ => eq_comm

theorem State.slotRead_ok (s : State) (i : Int) (k : SlotWord) (w : Word) :
    s.slotRead i k = .ok w ↔
      ∃ base, s.HoldsReg .ttb base ∧ s.Mapped (slotAddr s.cfg base i k) ∧
        s.Holds (slotAddr s.cfg base i k) w := by
  simp only [State.slotRead, bind_ok, State.slot_ok, State.tblRead_ok]
  exact ⟨fun ⟨_, ⟨base, hb, h⟩, hm, hh⟩ => ⟨base, hb, h ▸ hm, h ▸ hh⟩,
    fun ⟨base, hb, hm, hh⟩ => ⟨_, ⟨base, hb, rfl⟩, hm, hh⟩⟩

theorem State.slotWrite_ok (s : State) (i : Int) (k : SlotWord) (v : Int) (t : State) :
    s.slotWrite i k v = .ok t ↔
      ∃ base, s.HoldsReg .ttb base ∧ s.Mapped (slotAddr s.cfg base i k) ∧ fitsWord v ∧
        t = s.poke (slotAddr s.cfg base i k).toNat (BitVec.ofInt 32 v) := by
  simp only [State.slotWrite, bind_ok, State.slot_ok, State.tblWrite_ok]
  exact ⟨fun ⟨_, ⟨base, hb, h⟩, hm, hf, ht⟩ => ⟨base, hb, h ▸ hm, hf, h ▸ ht⟩,
    fun ⟨base, hb, hm, hf, ht⟩ => ⟨_, ⟨base, hb, rfl⟩, hm, hf, ht⟩⟩

theorem State.slotSave_ok (s : State) (i : Int) (k : SlotWord) (r : Reg) (t : State) :
    s.slotSave i k r = .ok t ↔
      ∃ base w, s.HoldsReg .ttb base ∧ s.HoldsReg r w ∧ s.Mapped (slotAddr s.cfg base i k) ∧
        t = s.poke (slotAddr s.cfg base i k).toNat w := by
  simp only [State.slotSave, bind_ok, State.slot_ok, State.reg_ok, State.tblWrite_ok]
  constructor
  · rintro ⟨_, ⟨base, hb, rfl⟩, w, hw, hm, -, rfl⟩
    exact ⟨base, w, hb, hw, hm, by rw [ofInt_toInt]⟩
  · rintro ⟨base, w, hb, hw, hm, rfl⟩
    exact ⟨_, ⟨base, hb, rfl⟩, w, hw, hm, fitsWord_toInt w, by rw [ofInt_toInt]⟩

theorem State.slotLoad_ok (s : State) (i : Int) (k : SlotWord) (r : Reg) (t : State) :
    s.slotLoad i k r = .ok t ↔
      ∃ base w, s.HoldsReg .ttb base ∧ s.Mapped (slotAddr s.cfg base i k) ∧
        s.Holds (slotAddr s.cfg base i k) w ∧ t = s.poke r.addr w := by
  simp only [State.slotLoad, bind_ok, State.slotRead_ok, State.setReg_ok]
  constructor
  · rintro ⟨w, ⟨base, hb, hm, hw⟩, -, rfl⟩
    exact ⟨base, w, hb, hm, hw, by rw [ofInt_toInt]⟩
  · rintro ⟨base, w, hb, hm, hw, rfl⟩
    exact ⟨w, ⟨base, hb, hm, hw⟩, fitsWord_toInt w, by rw [ofInt_toInt]⟩

/-! ### The current thread and its context -/

/-- What the current thread is (R241, R242). -/
theorem State.currentThread_ok (s : State) (i : Int) :
    s.currentThread = .ok i ↔
      ∃ w, s.HoldsReg .ctid w ∧ s.validId w.toInt = true ∧ i = w.toInt := by
  simp only [State.currentThread, bind_ok, State.reg_ok]
  constructor
  · rintro ⟨w, hw, h⟩
    by_cases hv : s.validId w.toInt = true
    · rw [if_pos hv] at h; cases h; exact ⟨w, hw, hv, rfl⟩
    · rw [if_neg hv] at h; cases h
  · rintro ⟨w, hw, hv, rfl⟩
    exact ⟨w, hw, if_pos hv⟩

/-- An id that names no slot faults (R298). -/
theorem State.currentThread_invalid (s : State) {w : Word} (hw : s.HoldsReg .ctid w)
    (hv : s.validId w.toInt = false) :
    s.currentThread = .error ⟨.invalidThreadId, w.toInt⟩ := by
  simp [State.currentThread, (State.reg_ok s .ctid w).2 hw, hv]

/-- What persisting the context answers (R242). -/
theorem persistContext_ok (s t : State) :
    persistContext s = .ok t ↔
      ∃ i base p q, s.HoldsReg .ctid i ∧ s.validId i.toInt = true ∧ s.HoldsReg .ttb base ∧
        s.HoldsReg .pc p ∧ s.Mapped (slotAddr s.cfg base i.toInt .savedPc) ∧
        (s.poke (slotAddr s.cfg base i.toInt .savedPc).toNat p).HoldsReg .sp q ∧
        s.Mapped (slotAddr s.cfg base i.toInt .savedSp) ∧
        t = (s.poke (slotAddr s.cfg base i.toInt .savedPc).toNat p).poke
          (slotAddr s.cfg base i.toInt .savedSp).toNat q := by
  simp only [persistContext, bind_ok, State.currentThread_ok, State.reg_ok, State.tblWrite_ok]
  constructor
  · rintro ⟨_, ⟨i, hi, hv, rfl⟩, base, hb, p, hp, s1, ⟨hm, -, rfl⟩, q, hq, hm', -, rfl⟩
    rw [ofInt_toInt] at hq
    exact ⟨i, base, p, q, hi, hv, hb, hp, hm, hq, hm', by simp only [ofInt_toInt]⟩
  · rintro ⟨i, base, p, q, hi, hv, hb, hp, hm, hq, hm', rfl⟩
    refine ⟨_, ⟨i, hi, hv, rfl⟩, base, hb, p, hp, _, ⟨hm, fitsWord_toInt p, rfl⟩, q, ?_, hm',
      fitsWord_toInt q, ?_⟩
    · rwa [ofInt_toInt]
    · simp only [ofInt_toInt]

theorem persistContext_invalid (s : State) {w : Word} (hw : s.HoldsReg .ctid w)
    (hv : s.validId w.toInt = false) :
    persistContext s = .error ⟨.invalidThreadId, w.toInt⟩ := by
  simp [persistContext, s.currentThread_invalid hw hv]

theorem persistContext_savedPc_unmapped (s : State) {i base p : Word} (hi : s.HoldsReg .ctid i)
    (hv : s.validId i.toInt = true) (hb : s.HoldsReg .ttb base) (hp : s.HoldsReg .pc p)
    (hm : ¬ s.Mapped (slotAddr s.cfg base i.toInt .savedPc)) :
    persistContext s = .error ⟨.outOfBounds, slotAddr s.cfg base i.toInt .savedPc⟩ := by
  have hc : s.currentThread = .ok i.toInt := (s.currentThread_ok _).2 ⟨i, hi, hv, rfl⟩
  simp [persistContext, hc, (s.reg_ok .ttb base).2 hb, (s.reg_ok .pc p).2 hp,
    s.tblWrite_outOfBounds _ _ hm]

theorem persistContext_savedSp_unmapped (s : State) {i base p q : Word} (hi : s.HoldsReg .ctid i)
    (hv : s.validId i.toInt = true) (hb : s.HoldsReg .ttb base) (hp : s.HoldsReg .pc p)
    (hm : s.Mapped (slotAddr s.cfg base i.toInt .savedPc))
    (hq : (s.poke (slotAddr s.cfg base i.toInt .savedPc).toNat p).HoldsReg .sp q)
    (hm' : ¬ s.Mapped (slotAddr s.cfg base i.toInt .savedSp)) :
    persistContext s = .error ⟨.outOfBounds, slotAddr s.cfg base i.toInt .savedSp⟩ := by
  have hc : s.currentThread = .ok i.toInt := (s.currentThread_ok _).2 ⟨i, hi, hv, rfl⟩
  have h1 : s.tblWrite (slotAddr s.cfg base i.toInt .savedPc) p.toInt =
      .ok (s.poke (slotAddr s.cfg base i.toInt .savedPc).toNat p) :=
    (s.tblWrite_ok _ _ _).2 ⟨hm, fitsWord_toInt p, by rw [ofInt_toInt]⟩
  simp only [persistContext, hc, (s.reg_ok .ttb base).2 hb, (s.reg_ok .pc p).2 hp, h1,
    (State.reg_ok _ .sp q).2 hq, ok_bind]
  exact State.tblWrite_outOfBounds _ _ _ hm'

/-- `ATC - 1` does not fit (R245, R297). -/
theorem terminateCurrent_atcOverflow (s : State) {c base atc : Word} (hc : s.HoldsReg .ctid c)
    (hv : s.validId c.toInt = true) (hb : s.HoldsReg .ttb base)
    (hm : s.Mapped (slotAddr s.cfg base c.toInt .state))
    (ha : (s.poke (slotAddr s.cfg base c.toInt .state).toNat 0).HoldsReg .atc atc)
    (hx : atc.toInt = xmin) : terminateCurrent s = .error ⟨.arithmeticOverflow, 5⟩ := by
  have h0 : s.currentThread = .ok c.toInt := (s.currentThread_ok _).2 ⟨c, hc, hv, rfl⟩
  have h1 : s.slotWrite c.toInt .state ThreadState.inactive.code =
      .ok (s.poke (slotAddr s.cfg base c.toInt .state).toNat 0) :=
    (s.slotWrite_ok _ _ _ _).2 ⟨base, hb, hm, fitsWord_toInt 0, rfl⟩
  have hf : ¬ fitsWord (atc.toInt - 1) := by rw [fitsWord_sub_one]; omega
  simp only [terminateCurrent, h0, h1, (State.reg_ok _ .atc atc).2 ha, ok_bind,
    State.setReg_overflow _ .atc _ hf]
  rfl

/-- The words persisting the context stores to (R242). -/
theorem persistContext_stores {A : Nat → Prop} {s t : State} (h : persistContext s = .ok t)
    (hA : ∀ i base k, s.HoldsReg .ctid i → s.validId i.toInt = true → s.HoldsReg .ttb base →
      k ≠ .state → s.Mapped (slotAddr s.cfg base i.toInt k) →
      A (slotAddr s.cfg base i.toInt k).toNat) : Stores A s t := by
  obtain ⟨i, base, p, q, hi, hv, hb, -, hm, -, hm', rfl⟩ := (persistContext_ok s t).1 h
  exact (Stores.poke s _ _ (hA i base .savedPc hi hv hb (by decide) hm)).trans
    (Stores.poke _ _ _ (hA i base .savedSp hi hv hb (by decide) hm'))

/-! ### The scan -/

/-- The id visited at a place of the scan names a slot (R243). -/
theorem scanId_range (maxThreads : Nat) (cur : Int) (j : Nat) (h : 1 ≤ maxThreads) :
    1 ≤ scanId maxThreads cur j ∧ scanId maxThreads cur j ≤ (maxThreads : Int) := by
  unfold scanId
  have h1 := Int.emod_nonneg (cur - 1 + (j : Int)) (b := (maxThreads : Int)) (by omega)
  have h2 := Int.emod_lt_of_pos (cur - 1 + (j : Int)) (b := (maxThreads : Int)) (by omega)
  omega

/-- What the scan answers: the first Ready thread of the places it visits, every earlier one being
readable and not Ready; or none, every visited one being readable and not Ready (R243). -/
theorem scanReady_ok (s : State) (cur : Int) (left j : Nat) (n : Int) :
    scanReady s cur left j = .ok n ↔
      (∃ d, d < left ∧ n = scanId s.cfg.maxThreads cur (j + d) ∧
        (∃ w, s.slotRead n .state = .ok w ∧ w.toInt = 1) ∧
        ∀ e, e < d → ∃ w, s.slotRead (scanId s.cfg.maxThreads cur (j + e)) .state = .ok w ∧
          w.toInt ≠ 1) ∨
      (n = noThread ∧ ∀ e, e < left →
        ∃ w, s.slotRead (scanId s.cfg.maxThreads cur (j + e)) .state = .ok w ∧ w.toInt ≠ 1) := by
  induction left generalizing j with
  | zero =>
    simp only [scanReady, Except.ok.injEq, Nat.not_lt_zero, false_and, exists_false, false_or,
      false_imp_iff, implies_true, and_true]
    exact eq_comm
  | succ left ih =>
    simp only [scanReady, bind_ok]
    constructor
    · rintro ⟨w, hw, h⟩
      by_cases hr : isReady w = true
      · rw [if_pos hr] at h
        cases h
        exact .inl ⟨0, Nat.succ_pos _, rfl, ⟨w, hw, (isReady_iff w).1 hr⟩,
          fun e he => absurd he (Nat.not_lt_zero e)⟩
      · rw [if_neg hr] at h
        have hn : w.toInt ≠ 1 := fun h1 => hr ((isReady_iff w).2 h1)
        have hall : ∀ d, (∀ e, e < d → ∃ w, s.slotRead (scanId s.cfg.maxThreads cur (j + 1 + e))
            .state = .ok w ∧ w.toInt ≠ 1) → ∀ e, e < d + 1 →
            ∃ w, s.slotRead (scanId s.cfg.maxThreads cur (j + e)) .state = .ok w ∧
              w.toInt ≠ 1 := by
          intro d hd e he
          cases e with
          | zero => exact ⟨w, hw, hn⟩
          | succ e =>
            have := hd e (by omega)
            rwa [show j + 1 + e = j + (e + 1) by omega] at this
        rcases (ih (j + 1)).1 h with ⟨d, hd, hnd, hready, hbefore⟩ | ⟨hnone, hbefore⟩
        · refine .inl ⟨d + 1, by omega, ?_, hready, hall d hbefore⟩
          rw [hnd, show j + 1 + d = j + (d + 1) by omega]
        · exact .inr ⟨hnone, hall left hbefore⟩
    · rintro (⟨d, hd, hnd, ⟨w, hw, hw1⟩, hbefore⟩ | ⟨hnone, hbefore⟩)
      · cases d with
        | zero =>
          subst hnd
          exact ⟨w, hw, if_pos ((isReady_iff w).2 hw1)⟩
        | succ d =>
          obtain ⟨w0, hw0, hn0⟩ := hbefore 0 (Nat.succ_pos d)
          refine ⟨w0, hw0, ?_⟩
          rw [if_neg (fun h1 => hn0 ((isReady_iff w0).1 h1))]
          refine (ih (j + 1)).2 (.inl ⟨d, by omega, ?_, ⟨w, hw, hw1⟩, ?_⟩)
          · rw [hnd, show j + 1 + d = j + (d + 1) by omega]
          · intro e he
            have := hbefore (e + 1) (by omega)
            rwa [show j + (e + 1) = j + 1 + e by omega] at this
      · obtain ⟨w0, hw0, hn0⟩ := hbefore 0 (Nat.succ_pos left)
        refine ⟨w0, hw0, ?_⟩
        rw [if_neg (fun h1 => hn0 ((isReady_iff w0).1 h1))]
        refine (ih (j + 1)).2 (.inr ⟨hnone, ?_⟩)
        intro e he
        have := hbefore (e + 1) (by omega)
        rwa [show j + (e + 1) = j + 1 + e by omega] at this

/-- The thread the scan picks names a slot, or is none (R243). -/
theorem selectNextReady_range (s : State) (cur n : Int) (h : selectNextReady s cur = .ok n) :
    s.validId n = true ∨ n = noThread := by
  rcases (scanReady_ok s cur s.cfg.maxThreads 1 n).1 h with ⟨d, hd, rfl, -, -⟩ | ⟨hn, -⟩
  · exact .inl ((s.validId_iff _).2 (scanId_range _ cur (1 + d) (by omega)))
  · exact .inr hn

/-! ### Switching -/

/-- What saving the outgoing thread answers (R244). -/
theorem saveOutgoing_ok (s t : State) (c : Int) :
    saveOutgoing s c = .ok t ↔
      (s.validId c = false ∧ t = s) ∨
      (s.validId c = true ∧ ∃ w, s.slotRead c .state = .ok w ∧
        ((w.toInt ≠ 2 ∧ t = s) ∨
         (w.toInt = 2 ∧ ∃ s1 s2, s.slotSave c .savedPc .pc = .ok s1 ∧
            s1.slotSave c .savedSp .sp = .ok s2 ∧ s2.slotWrite c .state 1 = .ok t))) := by
  unfold saveOutgoing
  by_cases hv : s.validId c = true
  · simp only [hv, if_true, bind_ok, Bool.true_eq_false, false_and, false_or, true_and]
    refine exists_congr fun w => and_congr_right fun _ => ?_
    by_cases hr : isRunning w = true
    · have h2 := (isRunning_iff w).1 hr
      simp only [hr, if_true, bind_ok, h2, ne_eq, not_true_eq_false, false_and, false_or,
        true_and, ThreadState.code]
      exact ⟨fun ⟨s1, h1, s2, h2, h3⟩ => ⟨s1, s2, h1, h2, h3⟩,
        fun ⟨s1, s2, h1, h2, h3⟩ => ⟨s1, h1, s2, h2, h3⟩⟩
    · have h2 : w.toInt ≠ 2 := fun h => hr ((isRunning_iff w).2 h)
      simp only [hr, if_false, Except.ok.injEq, ne_eq, h2, not_false_eq_true, true_and, false_and,
        or_false, Bool.false_eq_true]
      exact eq_comm
  · have hv' : s.validId c = false := by simpa using hv
    simp only [hv', Bool.false_eq_true, if_false, Except.ok.injEq, true_and, false_and, or_false]
    exact eq_comm

/-- What loading the incoming thread answers (R244). -/
theorem loadIncoming_ok (s t : State) (n : Int) :
    loadIncoming s n = .ok t ↔
      (s.validId n = false ∧ t = s.halt .noReadyThread) ∨
      (s.validId n = true ∧ ∃ s1 s2, s.slotLoad n .savedPc .pc = .ok s1 ∧
        s1.slotLoad n .savedSp .sp = .ok s2 ∧ s2.slotWrite n .state 2 = .ok t) := by
  unfold loadIncoming
  by_cases hv : s.validId n = true
  · simp only [hv, if_true, bind_ok, Bool.true_eq_false, false_and, false_or, true_and,
      ThreadState.code]
    exact ⟨fun ⟨s1, h1, s2, h2, h3⟩ => ⟨s1, s2, h1, h2, h3⟩,
      fun ⟨s1, s2, h1, h2, h3⟩ => ⟨s1, h1, s2, h2, h3⟩⟩
  · have hv' : s.validId n = false := by simpa using hv
    simp only [hv', Bool.false_eq_true, if_false, Except.ok.injEq, true_and, false_and, or_false]
    exact eq_comm

/-- What switching to a thread answers (R244). -/
theorem switchTo_ok (s t : State) (n : Int) :
    switchTo s n = .ok t ↔
      ∃ c s1, s.HoldsReg .ctid c ∧ saveOutgoing s c.toInt = .ok s1 ∧ fitsWord n ∧
        loadIncoming (s1.poke Reg.ctid.addr (BitVec.ofInt 32 n)) n = .ok t := by
  simp only [switchTo, bind_ok, State.reg_ok, State.setReg_ok]
  constructor
  · rintro ⟨c, hc, s1, h1, s2, ⟨hf, rfl⟩, h⟩
    exact ⟨c, s1, hc, h1, hf, h⟩
  · rintro ⟨c, s1, hc, h1, hf, h⟩
    exact ⟨c, hc, s1, h1, _, ⟨hf, rfl⟩, h⟩

/-- What the second part of termination answers (R245). -/
theorem succeed_ok (s t : State) (c : Int) :
    succeed s c = .ok t ↔
      ∃ n, s.HoldsReg .atc n ∧
        ((n.toInt ≤ 0 ∧ t = s.halt .allThreadsDone) ∨
         (0 < n.toInt ∧ ∃ i, selectNextReady s c = .ok i ∧ switchTo s i = .ok t)) := by
  simp only [succeed, bind_ok, State.reg_ok]
  refine exists_congr fun n => and_congr_right fun _ => ?_
  by_cases hn : n.toInt ≤ 0
  · simp only [hn, if_true, Except.ok.injEq, true_and, not_lt.2 hn, false_and, or_false]
    exact eq_comm
  · simp only [hn, if_false, bind_ok, false_and, not_le.1 hn, true_and, false_or]

/-- What terminating the current thread answers (R245). -/
theorem terminateCurrent_ok (s t : State) :
    terminateCurrent s = .ok t ↔
      ∃ c s1 n, s.HoldsReg .ctid c ∧ s.validId c.toInt = true ∧
        s.slotWrite c.toInt .state 0 = .ok s1 ∧ s1.HoldsReg .atc n ∧ xmin < n.toInt ∧
        succeed (s1.poke Reg.atc.addr (n - 1)) c.toInt = .ok t := by
  simp only [terminateCurrent, bind_ok, State.currentThread_ok, State.reg_ok, State.setReg_ok,
    fitsWord_sub_one, ofInt_sub_one, ThreadState.code]
  constructor
  · rintro ⟨_, ⟨c, hc, hv, rfl⟩, s1, h1, n, hn, s2, ⟨hf, rfl⟩, h⟩
    exact ⟨c, s1, n, hc, hv, h1, hn, hf, h⟩
  · rintro ⟨c, s1, n, hc, hv, h1, hn, hf, h⟩
    exact ⟨_, ⟨c, hc, hv, rfl⟩, s1, h1, n, hn, _, ⟨hf, rfl⟩, h⟩

theorem terminateCurrent_invalid (s : State) {w : Word} (hw : s.HoldsReg .ctid w)
    (hv : s.validId w.toInt = false) :
    terminateCurrent s = .error ⟨.invalidThreadId, w.toInt⟩ := by
  simp [terminateCurrent, s.currentThread_invalid hw hv]

/-! ### The operations of the scheduler as stores

`A` is any set that holds every cell of the memory and the control registers; with `A` the addresses
below the capacity this says that the scheduler never leaves the memory. -/

section stores
variable {A : Nat → Prop} {s t : State}

/-- Every cell of the memory and every control register is in `A`. -/
def Covers (A : Nat → Prop) (cfg : Params) : Prop :=
  (∀ r : Reg, A r.addr) ∧ ∀ a : Int, 0 ≤ a → a < (cfg.memCapacity : Int) → A a.toNat

theorem covers_lt (cfg : Params) (h : cfg.Valid) : Covers (· < cfg.memCapacity) cfg :=
  ⟨fun r => lt_of_lt_of_le r.addr_lt h.1, fun a h0 h1 => by
    show a.toNat < cfg.memCapacity
    omega⟩

theorem slotWrite_stores {i : Int} {k : SlotWord} {v : Int} (hc : Covers A s.cfg)
    (h : s.slotWrite i k v = .ok t) : Stores A s t := by
  obtain ⟨base, -, hm, -, rfl⟩ := (State.slotWrite_ok s i k v t).1 h
  exact Stores.poke s _ _ (hc.2 _ hm.1 hm.2)

theorem slotSave_stores {i : Int} {k : SlotWord} {r : Reg} (hc : Covers A s.cfg)
    (h : s.slotSave i k r = .ok t) : Stores A s t := by
  obtain ⟨base, w, -, -, hm, rfl⟩ := (State.slotSave_ok s i k r t).1 h
  exact Stores.poke s _ _ (hc.2 _ hm.1 hm.2)

theorem slotLoad_stores {i : Int} {k : SlotWord} {r : Reg} (hc : Covers A s.cfg)
    (h : s.slotLoad i k r = .ok t) : Stores A s t := by
  obtain ⟨base, w, -, -, -, rfl⟩ := (State.slotLoad_ok s i k r t).1 h
  exact Stores.poke s _ _ (hc.1 r)

theorem persistContext_covers (hc : Covers A s.cfg) (h : persistContext s = .ok t) :
    Stores A s t :=
  persistContext_stores h (fun _ _ _ _ _ _ _ hm => hc.2 _ hm.1 hm.2)

theorem saveOutgoing_stores {c : Int} (hc : Covers A s.cfg) (h : saveOutgoing s c = .ok t) :
    Stores A s t := by
  rcases (saveOutgoing_ok s t c).1 h with ⟨-, rfl⟩ | ⟨-, w, -, ⟨-, rfl⟩ | ⟨-, s1, s2, h1, h2, h3⟩⟩
  · exact Stores.refl A _
  · exact Stores.refl A _
  · have e1 := slotSave_stores hc h1
    have c1 : Covers A s1.cfg := e1.cfg ▸ hc
    have e2 := slotSave_stores c1 h2
    have c2 : Covers A s2.cfg := e2.cfg ▸ c1
    exact (e1.trans e2).trans (slotWrite_stores c2 h3)

/-- Loading a thread stores, or halts because there is none (R244). -/
theorem loadIncoming_stores {n : Int} (hc : Covers A s.cfg) (h : loadIncoming s n = .ok t) :
    Stores A s t ∨ t = s.halt .noReadyThread := by
  rcases (loadIncoming_ok s t n).1 h with ⟨-, rfl⟩ | ⟨-, s1, s2, h1, h2, h3⟩
  · exact .inr rfl
  · have e1 := slotLoad_stores hc h1
    have c1 : Covers A s1.cfg := e1.cfg ▸ hc
    have e2 := slotLoad_stores c1 h2
    have c2 : Covers A s2.cfg := e2.cfg ▸ c1
    exact .inl ((e1.trans e2).trans (slotWrite_stores c2 h3))

/-- Switching stores, and may halt because there is no thread to switch to (R244). -/
theorem switchTo_stores {n : Int} (hc : Covers A s.cfg) (h : switchTo s n = .ok t) :
    ∃ u, Stores A s u ∧ (t = u ∨ t = u.halt .noReadyThread) := by
  obtain ⟨c, s1, -, h1, -, h2⟩ := (switchTo_ok s t n).1 h
  have e1 := saveOutgoing_stores hc h1
  have e2 := e1.trans (Stores.poke s1 _ (BitVec.ofInt 32 n) (hc.1 .ctid))
  have c2 : Covers A (s1.poke Reg.ctid.addr (BitVec.ofInt 32 n)).cfg := e2.cfg ▸ hc
  rcases loadIncoming_stores c2 h2 with e3 | rfl
  · exact ⟨t, e2.trans e3, .inl rfl⟩
  · exact ⟨_, e2, .inr rfl⟩

/-- Termination stores, and may halt for one of the two reasons of R302 (R245). -/
theorem terminateCurrent_stores (hc : Covers A s.cfg) (h : terminateCurrent s = .ok t) :
    ∃ u, Stores A s u ∧
      (t = u ∨ t = u.halt .allThreadsDone ∨ t = u.halt .noReadyThread) := by
  obtain ⟨c, s1, n, -, -, h1, -, -, h2⟩ := (terminateCurrent_ok s t).1 h
  have e1 := (slotWrite_stores hc h1).trans (Stores.poke s1 _ (n - 1) (hc.1 .atc))
  have c1 : Covers A (s1.poke Reg.atc.addr (n - 1)).cfg := e1.cfg ▸ hc
  obtain ⟨m, -, ⟨-, rfl⟩ | ⟨-, i, -, h3⟩⟩ := (succeed_ok _ t c.toInt).1 h2
  · exact ⟨_, e1, .inr (.inl rfl)⟩
  · obtain ⟨u, e2, rfl | rfl⟩ := switchTo_stores c1 h3
    · exact ⟨t, e1.trans e2, .inl rfl⟩
    · exact ⟨u, e1.trans e2, .inr (.inr rfl)⟩

end stores

end Sys2Proof.Machine
end

