-- ==== Sys2Proof/Laws/Step.lean ====
section
/-! SUPPORT. What a tick comes to before step 5, and what an instruction and a tick can do, said once. -/

namespace Sys2Proof.Machine

/-! ### Steps 0 to 4 -/

theorem plan_of_halted (s : State) (h : s.halted = true) : plan s = .idle := by
  simp [plan, h]

theorem plan_of_hardCap (s : State) (h : s.halted = false) (hc : s.cfg.hardCap < s.wdTicks + 1) :
    plan s = .hardCap := by
  simp [plan, h, hc]

theorem plan_of_codePc (s : State) (h : s.halted = false) (hc : s.wdTicks + 1 ≤ s.cfg.hardCap)
    {o : Opcode} {x y : Word} (hp : s.cell 0 = .ins o x y) :
    plan s = .raised s.countTick none ⟨.codeAsData, 0⟩ := by
  have e : s.countTick.reg .pc = .error ⟨.codeAsData, 0⟩ :=
    State.reg_code s.countTick .pc (by simpa using hp)
  simp [plan, h, not_lt.2 hc, e]

/-- The tick at program counter `p`, past the hard cap (R272). -/
theorem plan_of_pc (s : State) (p : Word) (h : s.halted = false)
    (hc : s.wdTicks + 1 ≤ s.cfg.hardCap) (hp : s.HoldsReg .pc p) :
    plan s = planAt p (s.watched p) := by
  have e : s.countTick.reg .pc = .ok p := (State.reg_ok s.countTick .pc p).2 hp
  simp [plan, h, not_lt.2 hc, e, State.countRepeat_countTick]

theorem planAt_evict (p : Word) (s : State) (h : s.cfg.softCap < s.wdRepeat) :
    planAt p s = .evict s := by
  simp [planAt, h]

theorem planAt_blocked (p : Word) (s : State) (h : s.wdRepeat ≤ s.cfg.softCap) (hb : 0 < s.block) :
    planAt p s = .blocked s := by
  simp [planAt, not_lt.2 h, hb]

theorem planAt_fetched (p : Word) (s : State) (c : Cell) (h : s.wdRepeat ≤ s.cfg.softCap)
    (hb : s.block = 0) (hf : s.fetch p.toInt = .ok c) : planAt p s = planCell p c s := by
  simp [planAt, not_lt.2 h, hb, hf]

theorem planAt_fetchFault (p : Word) (s : State) (e : Raise) (h : s.wdRepeat ≤ s.cfg.softCap)
    (hb : s.block = 0) (hf : s.fetch p.toInt = .error e) : planAt p s = .raised s none e := by
  simp [planAt, not_lt.2 h, hb, hf]

/-- A tick that reaches its fetch and fetches the cell `c` (R145). -/
theorem plan_of_fetches (s : State) (p : Word) (c : Cell) (h : s.Fetches p c) :
    plan s = planCell p c (s.watched p) := by
  obtain ⟨⟨hh, hc, hp, hr, hb⟩, hm, ha, hcell⟩ := h
  rw [plan_of_pc s p hh hc hp]
  exact planAt_fetched p _ c hr hb ((State.fetch_ok _ _ _).2 ⟨hm, ha, hcell⟩)

/-- An instruction runs only when its cell was fetched (R145, R148). -/
theorem plan_run_inv (s u : State) (i : Instr) (h : plan s = .run i u) :
    ∃ p c, s.Fetches p c ∧ decodeCell c = .ok i ∧ u = s.watched p := by
  unfold plan at h
  split at h
  · cases h
  · next hh =>
    split at h
    · cases h
    · next hc =>
      split at h
      · cases h
      · next p hp =>
        have hp' := (State.reg_ok _ _ _).1 hp
        unfold planAt at h
        split at h
        · cases h
        · next hr =>
          split at h
          · cases h
          · next hb =>
            split at h
            · cases h
            · next c hf =>
              unfold planCell at h
              obtain ⟨hm, ha, hcell⟩ := (State.fetch_ok _ _ _).1 hf
              split at h
              · next i' hd =>
                cases h
                exact ⟨p, c, ⟨⟨by simpa using hh, not_lt.1 hc, hp', not_lt.1 hr,
                  Nat.eq_zero_of_not_pos hb⟩, hm, ha, hcell⟩, hd, rfl⟩
              · cases h
              · cases h
              · cases h

/-- The state of a plan is that after step 1: only the watchdog's counters differ (R143). -/
def Counted (s b : State) : Prop := b = s.countTick ∨ ∃ p, b = s.watched p

/-- What a tick can come to from the soft cap on. -/
theorem planAt_cases (p : Word) (s : State) :
    (∃ o e, planAt p s = .raised s o e) ∨ planAt p s = .evict s ∨
      (s.wdRepeat ≤ s.cfg.softCap ∧
        ((0 < s.block ∧ planAt p s = .blocked s) ∨ planAt p s = .fetchFailed s ∨
          ∃ i, planAt p s = .run i s)) := by
  by_cases hr : s.wdRepeat ≤ s.cfg.softCap
  · by_cases hb : s.block = 0
    · cases hf : s.fetch p.toInt with
      | error e => exact .inl ⟨none, e, planAt_fetchFault p s e hr hb hf⟩
      | ok c =>
        rw [planAt_fetched p s c hr hb hf]
        unfold planCell
        split
        · next i _ => exact .inr (.inr ⟨hr, .inr (.inr ⟨i, rfl⟩)⟩)
        · exact .inr (.inr ⟨hr, .inr (.inl rfl)⟩)
        · exact .inl ⟨_, _, rfl⟩
        · exact .inl ⟨_, _, rfl⟩
    · exact .inr (.inr ⟨hr, .inl ⟨Nat.pos_of_ne_zero hb,
      planAt_blocked p s hr (Nat.pos_of_ne_zero hb)⟩⟩)
  · exact .inr (.inl (planAt_evict p s (not_le.1 hr)))

/-- What a tick can come to, on a machine that is not halted. -/
theorem plan_cases (s : State) (h : s.halted = false) :
    (plan s = .hardCap ∧ s.cfg.hardCap < s.wdTicks + 1) ∨
    (s.wdTicks + 1 ≤ s.cfg.hardCap ∧ ∃ b, Counted s b ∧
      ((∃ o e, plan s = .raised b o e) ∨ plan s = .evict b ∨
        (b.wdRepeat ≤ b.cfg.softCap ∧
          ((0 < b.block ∧ plan s = .blocked b) ∨ plan s = .fetchFailed b ∨
            ∃ i, plan s = .run i b)))) := by
  by_cases hc : s.wdTicks + 1 ≤ s.cfg.hardCap
  · refine .inr ⟨hc, ?_⟩
    cases hp : s.cell 0 with
    | ins o x y =>
      exact ⟨s.countTick, .inl rfl, .inl ⟨none, _, plan_of_codePc s h hc hp⟩⟩
    | num p =>
      refine ⟨s.watched p, .inr ⟨p, rfl⟩, ?_⟩
      rw [plan_of_pc s p h hc hp]
      exact planAt_cases p (s.watched p)
  · exact .inl ⟨plan_of_hardCap s h (not_le.1 hc), not_le.1 hc⟩

/-! ### What an instruction can do -/

/-- The state an instruction's stores start from: the state it is given, or that state in User mode
(USER), or that state with a word emitted and the stall started (SYSCALL PRN). -/
def StartsFrom (i : Instr) (s b : State) : Prop :=
  b = s ∨ (∃ a, i = .user a ∧ b = s.enterUser) ∨
    ∃ a w, i = .syscallPrn a ∧ s.Readable a.toInt w ∧ b = (s.emit w).stall

/-- The instructions that may stop the machine by a normal halt. -/
def MayHalt (i : Instr) : Prop := i = .hlt ∨ i = .syscallHlt ∨ i = .syscallYield ∨ i = .blank

/-- What an instruction can do: take a fault, or store from its start, and then perhaps halt (R148, R291,
R301). -/
theorem exec_effect {A : Nat → Prop} (i : Instr) (s t : State) (hc : Covers A s.cfg)
    (h : exec i s = .next t) :
    (∃ o e, t = s.takeFault o e) ∨
      ∃ b u, StartsFrom i s b ∧ Stores A b u ∧
        (t = u ∨ MayHalt i ∧ (t = u.halt .allThreadsDone ∨ t = u.halt .noReadyThread)) := by
  have hA : ∀ {b : State} {a : Int}, b.cfg = s.cfg → b.Mapped a → A a.toNat :=
    fun hb hm => hc.2 _ hm.1 (hb ▸ hm.2)
  have plain : ∀ {r : Result State} {o : Option Opcode}, commit o s r = .next t →
      (∀ u, r = .ok u → Stores A s u) →
      (∃ o e, t = s.takeFault o e) ∨ ∃ b u, StartsFrom i s b ∧ Stores A b u ∧
        (t = u ∨ MayHalt i ∧ (t = u.halt .allThreadsDone ∨ t = u.halt .noReadyThread)) := by
    intro r o hr hs
    rcases commit_cases o s t r hr with hok | ⟨e, -, rfl⟩
    · exact .inr ⟨s, t, .inl rfl, hs t hok, .inl rfl⟩
    · exact .inl ⟨o, e, rfl⟩
  have ending : ∀ {o : Option Opcode}, MayHalt i → commit o s (terminateCurrent s) = .next t →
      (∃ o e, t = s.takeFault o e) ∨ ∃ b u, StartsFrom i s b ∧ Stores A b u ∧
        (t = u ∨ MayHalt i ∧ (t = u.halt .allThreadsDone ∨ t = u.halt .noReadyThread)) := by
    intro o hm hr
    rcases commit_cases o s t _ hr with hok | ⟨e, -, rfl⟩
    · obtain ⟨u, hu, rfl | hh⟩ := terminateCurrent_stores hc hok
      · exact .inr ⟨s, t, .inl rfl, hu, .inl rfl⟩
      · exact .inr ⟨s, u, .inl rfl, hu, .inr ⟨hm, hh⟩⟩
    · exact .inl ⟨o, e, rfl⟩
  cases i with
  | blank => exact ending (by simp [MayHalt]) h
  | hlt => exact ending (by simp [MayHalt]) h
  | syscallHlt => exact ending (by simp [MayHalt]) h
  | set v a =>
    refine plain h fun u hu => ?_
    simp only [bind_ok] at hu
    obtain ⟨s1, h1, h2⟩ := hu
    exact (writeOperand_stores h1 (hA rfl)).trans (autoAdvance_stores h2 (hc.1 .pc) (hc.1 .tic))
  | cpy a b =>
    refine plain h fun u hu => ?_
    simp only [bind_ok] at hu
    obtain ⟨w, -, s1, h1, h2⟩ := hu
    exact (writeOperand_stores h1 (hA rfl)).trans (autoAdvance_stores h2 (hc.1 .pc) (hc.1 .tic))
  | cpyi a b =>
    refine plain h fun u hu => ?_
    simp only [bind_ok] at hu
    obtain ⟨w, -, s1, h1, h2⟩ := hu
    exact (writeOperand_stores h1 (hA rfl)).trans (autoAdvance_stores h2 (hc.1 .pc) (hc.1 .tic))
  | add a v =>
    refine plain h fun u hu => ?_
    simp only [bind_ok] at hu
    obtain ⟨w, -, s1, h1, h2⟩ := hu
    exact (writeOperand_stores h1 (hA rfl)).trans (autoAdvance_stores h2 (hc.1 .pc) (hc.1 .tic))
  | addi a b =>
    refine plain h fun u hu => ?_
    simp only [bind_ok] at hu
    obtain ⟨w, -, w2, -, s1, h1, h2⟩ := hu
    exact (writeOperand_stores h1 (hA rfl)).trans (autoAdvance_stores h2 (hc.1 .pc) (hc.1 .tic))
  | subi a b =>
    refine plain h fun u hu => ?_
    simp only [bind_ok] at hu
    obtain ⟨w, -, w2, -, s1, h1, h2⟩ := hu
    exact (writeOperand_stores h1 (hA rfl)).trans (autoAdvance_stores h2 (hc.1 .pc) (hc.1 .tic))
  | jif a t' =>
    refine plain h fun u hu => ?_
    simp only [bind_ok] at hu
    obtain ⟨w, -, h1⟩ := hu
    split at h1
    · simp only [bind_ok] at h1
      obtain ⟨s1, h2, h3⟩ := h1
      exact (persistContext_covers hc h2).trans (setReg_stores h3 (hc.1 .pc))
    · exact autoAdvance_stores h1 (hc.1 .pc) (hc.1 .tic)
  | push a =>
    refine plain h fun u hu => ?_
    simp only [bind_ok] at hu
    obtain ⟨w, -, s1, h1, h2⟩ := hu
    exact (push_stores h1 (hc.1 .sp) (fun _ _ hm => hA rfl hm)).trans
      (autoAdvance_stores h2 (hc.1 .pc) (hc.1 .tic))
  | pop a =>
    refine plain h fun u hu => ?_
    simp only [bind_ok] at hu
    obtain ⟨⟨w, s1⟩, h1, s2, h2, h3⟩ := hu
    have e1 := pop_stores (A := A) h1 (hc.1 .sp)
    exact (e1.trans (writeOperand_stores h2 (hA e1.cfg))).trans
      (autoAdvance_stores h3 (hc.1 .pc) (hc.1 .tic))
  | call t' =>
    refine plain h fun u hu => ?_
    simp only [bind_ok] at hu
    obtain ⟨s1, h1, s2, h2, h3⟩ := hu
    have e1 := push_stores (A := A) h1 (hc.1 .sp) (fun _ _ hm => hA rfl hm)
    have c1 : Covers A s1.cfg := e1.cfg ▸ hc
    exact (e1.trans (persistContext_covers c1 h2)).trans (setReg_stores h3 (hc.1 .pc))
  | ret =>
    refine plain h fun u hu => ?_
    simp only [bind_ok] at hu
    obtain ⟨s1, h1, ⟨w, s2⟩, h2, h3⟩ := hu
    exact ((persistContext_covers hc h1).trans (pop_stores h2 (hc.1 .sp))).trans
      (setReg_stores h3 (hc.1 .pc))
  | user a =>
    rcases commit_cases _ s t _ h with hok | ⟨e, -, rfl⟩
    · simp only [bind_ok] at hok
      obtain ⟨w, -, s1, h1, h2⟩ := hok
      have c1 : Covers A s.enterUser.cfg := hc
      exact .inr ⟨s.enterUser, t, .inr (.inl ⟨a, rfl, rfl⟩),
        (persistContext_covers c1 h1).trans (setReg_stores h2 (hc.1 .pc)), .inl rfl⟩
    · exact .inl ⟨_, e, rfl⟩
  | syscallPrn a =>
    rcases commit_cases _ s t _ h with hok | ⟨e, -, rfl⟩
    · simp only [bind_ok] at hok
      obtain ⟨w, hw, p, hp, s2, h2, h3⟩ := hok
      cases h3
      obtain ⟨-, rfl⟩ := (State.setReg_ok _ _ _ _).1 h2
      exact .inr ⟨(s.emit w).stall, _, .inr (.inr ⟨a, w, rfl, (s.readOperand_ok a w).1 hw, rfl⟩),
        Stores.poke _ _ _ (hc.1 .pc), .inl rfl⟩
    · exact .inl ⟨_, e, rfl⟩
  | syscallYield =>
    rcases commit_cases _ s t _ h with hok | ⟨e, -, rfl⟩
    · simp only [bind_ok] at hok
      obtain ⟨p, -, s1, h1, s2, h2, c, -, n, -, h3⟩ := hok
      have e1 := setReg_stores (A := A) h1 (hc.1 .pc)
      have c1 : Covers A s1.cfg := e1.cfg ▸ hc
      have e2 := e1.trans (persistContext_covers c1 h2)
      have c2 : Covers A s2.cfg := e2.cfg ▸ hc
      obtain ⟨u, e3, rfl | rfl⟩ := switchTo_stores c2 h3
      · exact .inr ⟨s, t, .inl rfl, e2.trans e3, .inl rfl⟩
      · exact .inr ⟨s, u, .inl rfl, e2.trans e3, .inr ⟨by simp [MayHalt], .inr rfl⟩⟩
    · exact .inl ⟨_, e, rfl⟩
  | malformed =>
    rcases commit_cases _ s t _ h with hok | ⟨e, -, rfl⟩
    · simp only [bind_ok] at hok
      obtain ⟨p, -, h1⟩ := hok
      cases h1
    · exact .inl ⟨_, e, rfl⟩

/-! ### What a tick can do -/

/-- What a tick can do to a machine that is not halted, with `b` the state after step 1: stop at the hard
cap; take a fault on `b`; or store from a start, and then perhaps clear the repeat count (an eviction),
and perhaps halt (R154). -/
theorem step_effect {A : Nat → Prop} (s t : State) (hc : Covers A s.cfg) (hh : s.halted = false)
    (h : step s = .next t) :
    (t = s.countTick.halt .watchdogHardCap ∧ s.cfg.hardCap < s.wdTicks + 1) ∨
    (s.wdTicks + 1 ≤ s.cfg.hardCap ∧ ∃ b, Counted s b ∧
      ((∃ o e, t = b.takeFault o e) ∨
       (∃ u, Stores A b u ∧ (t = u.clearRepeat ∨
          t = (u.halt .allThreadsDone).clearRepeat ∨ t = (u.halt .noReadyThread).clearRepeat)) ∨
       (b.wdRepeat ≤ b.cfg.softCap ∧
        ((∃ u, 0 < b.block ∧ Stores A b.unblockOne u ∧ t = u) ∨
         (∃ u, Stores A b u ∧
          (t = u ∨ t = u.halt .allThreadsDone ∨ t = u.halt .noReadyThread)) ∨
         ∃ i c u, plan s = .run i b ∧ StartsFrom i b c ∧ Stores A c u ∧
          (t = u ∨
            MayHalt i ∧ (t = u.halt .allThreadsDone ∨ t = u.halt .noReadyThread)))))) := by
  have cov : ∀ {b}, Counted s b → Covers A b.cfg := by
    rintro b (rfl | ⟨p, rfl⟩) <;> exact hc
  rcases plan_cases s hh with ⟨hp, hcap⟩ | ⟨hcap, b, hb, hrest⟩
  · refine .inl ⟨?_, hcap⟩
    simp only [step, hp, Plan.finish] at h
    cases h
    rfl
  · refine .inr ⟨hcap, b, hb, ?_⟩
    rcases hrest with ⟨o, e, hp⟩ | hp | ⟨hr, ⟨hblock, hp⟩ | hp | ⟨i, hp⟩⟩
    · simp only [step, hp, Plan.finish] at h
      cases h
      exact .inl ⟨o, e, rfl⟩
    · simp only [step, hp, Plan.finish] at h
      cases hres : evictCurrent b with
      | error e => rw [hres] at h; cases h; exact .inl ⟨_, e, rfl⟩
      | ok v =>
        rw [hres] at h
        cases h
        simp only [evictCurrent, bind_ok, Except.ok.injEq] at hres
        obtain ⟨w, hw, rfl⟩ := hres
        obtain ⟨u, hu, rfl | rfl | rfl⟩ := terminateCurrent_stores (cov hb) hw
        · exact .inr (.inl ⟨_, hu, .inl rfl⟩)
        · exact .inr (.inl ⟨u, hu, .inr (.inl rfl)⟩)
        · exact .inr (.inl ⟨u, hu, .inr (.inr rfl)⟩)
    · simp only [step, hp, Plan.finish] at h
      cases hres : blockedTick b with
      | error e => rw [hres] at h; cases h; exact .inl ⟨_, e, rfl⟩
      | ok v =>
        rw [hres] at h
        cases h
        simp only [blockedTick, bind_ok] at hres
        obtain ⟨n, -, h2⟩ := hres
        exact .inr (.inr ⟨hr, .inl ⟨_, hblock, setReg_stores h2 (hc.1 .tic), rfl⟩⟩)
    · simp only [step, hp, Plan.finish] at h
      cases hres : terminateCurrent b with
      | error e => rw [hres] at h; cases h; exact .inl ⟨_, e, rfl⟩
      | ok v =>
        rw [hres] at h
        cases h
        obtain ⟨u, hu, hh⟩ := terminateCurrent_stores (cov hb) hres
        exact .inr (.inr ⟨hr, .inr (.inl ⟨u, hu, hh⟩)⟩)
    · simp only [step, hp] at h
      rcases exec_effect i b t (cov hb) h with hf | ⟨c, u, hs, hu, hend⟩
      · exact .inl hf
      · exact .inr (.inr ⟨hr, .inr (.inr ⟨i, c, u, hp, hs, hu, hend⟩)⟩)

/-! ### Steps and runs -/

/-- A tick that runs an instruction is that instruction (R148). -/
theorem step_of_run {s t : State} {i : Instr} (h : plan s = .run i t) : step s = exec i t := by
  simp [step, h]

/-- A tick that runs no instruction ends as its plan says. -/
theorem step_of_plan {s : State} {p : Plan} (h : plan s = p) (hp : ∀ i t, p ≠ .run i t) :
    step s = .next (p.finish s) := by
  unfold step
  rw [h]
  cases p <;> first | rfl | exact absurd rfl (hp _ _)

/-- Every tick gives a next state: the model neither faults nor refuses (log 4). -/
theorem step_next (s : State) : ∃ t, step s = .next t := by
  unfold step
  split
  · next i t _ => cases i <;> exact ⟨_, rfl⟩
  · exact ⟨_, rfl⟩

/-- A run of one more tick is the run from the state after the first. -/
theorem run_succ (n : Nat) (s u : State) (h : step s = .next u) :
    Host.Core.run Sys2Proof.core (n + 1) s = Host.Core.run Sys2Proof.core n u := by
  have : Sys2Proof.core.step s = .next u := h
  simp only [Host.Core.run, this]

end Sys2Proof.Machine
end

