-- ==== Sys2Proof/Tests/Slice0.lean ====
section
/-! SUPPORT. Small tests, and a state that meets the hypotheses of each statement. Expected values of the
`test_` theorems are those of the spec's own vectors (95_test_vectors.md, whose ids stand in the
comments) or are worked out by hand from the rule named. -/

namespace Sys2Proof.Tests

open Sys2Proof.Machine

/-! ### Helpers -/

/-- A memory from a list of cells; a later entry replaces an earlier one. -/
def memOf (cells : List (Nat × Cell)) : Memory := cells.foldl (fun m e => Memory.set m e.1 e.2) []

/-- Data cells. -/
def data (ds : List (Nat × Int)) : List (Nat × Cell) :=
  ds.map (fun e => (e.1, Cell.num (BitVec.ofInt 32 e.2)))

/-- Instruction cells. -/
def code (is : List (Nat × Instr)) : List (Nat × Cell) := is.map (fun e => (e.1, encodeCell e.2))

/-- The start state `BOOT` of the test vectors, with more data and with code. -/
def boot (ds : List (Nat × Int)) (is : List (Nat × Instr)) : State :=
  { State.reset with
    mem := memOf (data [(0, 10), (1, 900), (4, 1), (5, 1), (6, 200), (200, 1), (203, 2)] ++
      data ds ++ code is) }

/-- `BOOT` in User mode at address 1000, with its stack at 1900. -/
def userBoot (ds : List (Nat × Int)) (is : List (Nat × Instr)) : State :=
  { boot ([(0, 1000), (1, 1900)] ++ ds) is with mode := .user }

/-- `BOOT` with a second thread that is Ready (the start of V46). -/
def twoThreads (is : List (Nat × Instr)) : State :=
  boot [(5, 2), (220, 2), (223, 1), (224, 30), (225, 800)] is

/-- `twoThreads` with a given state word of thread 1. -/
def twoThreads' (w : Word) : State := (twoThreads []).poke 203 w

/-- The state after one tick. -/
def after (s : State) : State :=
  match step s with
  | .next t => t
  | .fault _ => s
  | .refused _ => s

/-- The numbers in some cells; none for an instruction cell. -/
def numbers (s : State) (as : List Nat) : List (Option Int) :=
  as.map (fun a => match s.cell a with
    | .num w => some w.toInt
    | .ins _ _ _ => none)

/-- The fault record with the words read as numbers. -/
def record (s : State) : Option (FaultCause × Int × Option Int × Option Nat × Option Int) :=
  s.fault.map (fun r => (r.cause, r.addr, r.pc.map BitVec.toInt, r.opc.map BitVec.toNat,
    r.tid.map BitVec.toInt))

/-! ### Well-formed and ill-formed cells and terms (R111, R114, R117) -/

theorem test_wf_numeric_cell_refused : (Cell.num 7).wellFormed = false := by decide
theorem test_wf_unassigned_opcode_refused : (Cell.ins 0x0E 0 0).wellFormed = false := by decide
theorem test_wf_blank_cell_refused : (Cell.ins 0x00 0 0).wellFormed = false := by decide
theorem test_wf_malformed_cell_refused : (Cell.ins 0xFE 0 0).wellFormed = false := by decide
theorem test_wf_one_operand_reserved_field_refused :
    (Cell.ins 0x08 100 7).wellFormed = false := by decide
theorem test_wf_no_operand_reserved_fields_refused :
    (Cell.ins 0x0B 1 0).wellFormed = false ∧ (Cell.ins 0x0B 0 1).wellFormed = false := by decide
theorem test_wf_accepts_well_formed_cells :
    (Cell.ins 0x01 7 100).wellFormed = true ∧ (Cell.ins 0x08 100 0).wellFormed = true ∧
      (Cell.ins 0x12 0 0).wellFormed = true := by decide
theorem test_wf_rows_that_are_no_instructions :
    Instr.blank.isInstruction = false ∧ Instr.malformed.isInstruction = false ∧
      Instr.ret.isInstruction = true := by decide

/-! ### Every constructor's word (95_test_vectors.md 2.1) -/

theorem test_decode_blank : decode 0x1000000000000000000#73 = .ok .blank ∧
    decode 0x1000000000500000007#73 = .ok .blank := by decide
theorem test_decode_set : decode 0x1010000000700000064#73 = .ok (.set 7 100) ∧
    decode 0x101800000007FFFFFFF#73 = .ok (.set (-2147483648) 2147483647) := by decide
theorem test_decode_cpy : decode 0x1020000006400000065#73 = .ok (.cpy 100 101) := by decide
theorem test_decode_cpyi : decode 0x103000000C9000000CA#73 = .ok (.cpyi 201 202) := by decide
theorem test_decode_add : decode 0x10400000064FFFFFFFD#73 = .ok (.add 100 (-3)) := by decide
theorem test_decode_addi : decode 0x1050000006400000065#73 = .ok (.addi 100 101) := by decide
theorem test_decode_subi : decode 0x1060000006400000065#73 = .ok (.subi 100 101) := by decide
theorem test_decode_jif : decode 0x107000000640000000A#73 = .ok (.jif 100 10) := by decide
theorem test_decode_push : decode 0x1080000006400000000#73 = .ok (.push 100) := by decide
theorem test_decode_pop : decode 0x1090000006500000000#73 = .ok (.pop 101) := by decide
theorem test_decode_call : decode 0x10A0000003C00000000#73 = .ok (.call 60) := by decide
theorem test_decode_ret : decode 0x10B0000000000000000#73 = .ok .ret := by decide
theorem test_decode_hlt : decode 0x10C0000000000000000#73 = .ok .hlt := by decide
theorem test_decode_user : decode 0x10D000005DC00000000#73 = .ok (.user 1500) := by decide
theorem test_decode_syscallPrn : decode 0x1100000006400000000#73 = .ok (.syscallPrn 100) := by decide
theorem test_decode_syscallHlt : decode 0x1110000000000000000#73 = .ok .syscallHlt := by decide
theorem test_decode_syscallYield : decode 0x1120000000000000000#73 = .ok .syscallYield := by decide
theorem test_decode_malformed : decode 0x1FE0000000000000000#73 = .ok .malformed := by decide
theorem test_decode_refusals :
    decode 0x10B0000000100000000#73 = .error (.reservedNotZero 0x0B) ∧
    decode 0x1080000006400000007#73 = .error (.reservedNotZero 0x08) ∧
    decode 0x10E0000000000000000#73 = .error (.unknownOpcode 0x0E) ∧
    decode 0x1FF0000000000000000#73 = .error (.unknownOpcode 0xFF) ∧
    decode 0x0AB00000000000000FF#73 = .error .notInstruction := by decide
theorem test_numeric_cell_ignores_reserved_bits :
    Cell.ofBits 0x0AB00000000000000FF#73 = .num 255 ∧
      (Cell.num (-1)).toBits = 0x00000000000FFFFFFFF#73 := by decide
theorem test_encode_words :
    encode (.set (-5) 1000) = 0x101FFFFFFFB000003E8#73 ∧ encode (.jif 0 0) = 0x1070000000000000000#73 ∧
      encode .malformed = 0x1FE0000000000000000#73 := by decide
theorem test_decodeTableWord :
    decodeTableWord 80 0x1010000000700000064 = some (.set 7 100) ∧
      decodeTableWord 80 0x10E0000000000000000 = none ∧ decodeTableWord 80 (2 ^ 73) = none := by
  decide

/-! ### The text form (95_test_vectors.md 2.1) -/

theorem test_text_set : encodeText "SET  -5\t1000".toList = .ok (.ins 0x01 (-5) 1000) := by decide
theorem test_text_syscall : encodeText "SYSCALL PRN 100".toList = .ok (.ins 0x10 100 0) := by decide
theorem test_text_blank : encodeText " \t".toList = .ok (.ins 0x00 0 0) := by decide
theorem test_text_malformed : encodeText "PUSH".toList = .ok (.ins 0xFE 0 0) ∧
    encodeText "SET x 5".toList = .ok (.ins 0xFE 0 0) ∧
    encodeText "SET 1 2 3".toList = .ok (.ins 0xFE 0 0) := by decide
theorem test_text_unknown : encodeText "MOV 1 2".toList = .ok (.ins 0xFF 0 0) ∧
    encodeText "SYSCALL FOO".toList = .ok (.ins 0xFF 0 0) ∧
    encodeText "set 1 100".toList = .ok (.ins 0xFF 0 0) := by decide
theorem test_text_out_of_range :
    encodeText "SET 2147483648 5".toList = .error .operandOutOfRange := by decide
/-- An instruction line wins over a data line of its address, wherever the two stand (R346). -/
theorem test_load_instruction_wins :
    (match State.reset.load { data := [(10, 5), (11, 6)], code := [(10, "RET".toList)] } with
      | .ok t => [t.cell 10, t.cell 11]
      | .error _ => []) = [.ins 0x0B 0 0, .num 6] := by decide

/-! ### Placing and running the first instruction -/

/-- From reset, a placed instruction is what the next tick runs: `SET 7 100` at 1000. -/
theorem test_withFetchWord_runs :
    numbers (after (State.reset.withFetchWord 80 0x1010000000700000064)) [0, 3, 100] =
      [some 1001, some 1, some 7] := by decide
/-- From reset with nothing loaded the first tick fetches `Num(0)` at 0, and the current thread id 0
names no slot (R46, R146, R245). -/
theorem test_reset_alone_halts :
    record (after State.reset) = some (.invalidThreadId, 0, some 0, none, some 0) := by decide

/-! ### One step of each instruction -/

-- V1, V2
theorem test_set : numbers (after (boot [] [(10, .set (-5) 1000)])) [1000, 0, 3] =
    [some (-5), some 11, some 1] := by decide
theorem test_set_pc : numbers (after (boot [] [(10, .set 50 0)])) [0, 3] = [some 51, some 1] := by
  decide
-- V6, V5
theorem test_cpy : numbers (after (boot [] [(10, .cpy 0 100)])) [100, 0] = [some 10, some 11] := by
  decide
theorem test_cpy_code : record (after (boot [] [(10, .cpy 11 100), (11, .hlt)])) =
    some (.codeAsData, 11, some 10, some 2, some 1) := by decide
-- S4, V7
theorem test_cpyi : numbers (after (boot [(300, 5), (301, 300)] [(10, .cpyi 301 302)]))
    [300, 301, 302, 0] = [some 5, some 300, some 5, some 11] := by decide
theorem test_cpyi_pointer : record (after (boot [(100, -1)] [(10, .cpyi 100 101)])) =
    some (.outOfBounds, -1, some 10, some 3, some 1) := by decide
-- V10, V11b
theorem test_add : numbers (after (boot [(100, 7)] [(10, .add 100 (-3))])) [100, 0, 3] =
    [some 4, some 11, some 1] := by decide
theorem test_add_overflow : record (after (boot [(100, -2147483648)] [(10, .add 100 (-1))])) =
    some (.arithmeticOverflow, 100, some 10, some 4, some 1) := by decide
-- V13b, V13
theorem test_addi : numbers (after (boot [(100, 7), (101, -10)] [(10, .addi 100 101)])) [100, 101] =
    [some (-3), some (-10)] := by decide
theorem test_addi_same : numbers (after (boot [(100, 21)] [(10, .addi 100 100)])) [100] =
    [some 42] := by decide
-- V14, V15
theorem test_subi : numbers (after (boot [(100, 7), (101, 10)] [(10, .subi 100 101)])) [100, 101] =
    [some 7, some (-3)] := by decide
theorem test_subi_overflow : record (after (boot [(101, -2147483648)] [(10, .subi 100 101)])) =
    some (.arithmeticOverflow, 101, some 10, some 6, some 1) := by decide
-- V30a, V30b
theorem test_jif_taken : numbers (after (boot [] [(10, .jif 100 50)])) [0, 3, 204, 205] =
    [some 50, some 0, some 10, some 900] := by decide
theorem test_jif_not_taken : numbers (after (boot [(100, 1)] [(10, .jif 100 50)])) [0, 3, 204, 205] =
    [some 11, some 1, some 0, some 0] := by decide
-- V21, V24
theorem test_push : numbers (after (boot [] [(10, .push 1)])) [900, 1] = [some 900, some 899] := by
  decide
theorem test_push_on_pc : numbers (after (boot [(1, 0), (100, 42)] [(10, .push 100)])) [0, 1, 3] =
    [some 43, some (-1), some 1] := by decide
-- V22, V23
theorem test_pop_sp : numbers (after (boot [(1, 899), (900, 555)] [(10, .pop 1)])) [1] =
    [some 555] := by decide
theorem test_pop_pc : numbers (after (boot [(1, 899), (900, 60)] [(10, .pop 0)])) [0, 1, 3] =
    [some 61, some 900, some 1] := by decide
-- S6, V37
theorem test_call : numbers (after (boot [] [(10, .call 60)])) [900, 1, 204, 205, 0, 3] =
    [some 11, some 899, some 10, some 899, some 60, some 0] := by decide
theorem test_call_discards : numbers (after (boot [(6, 1995)] [(10, .call 60)])) [900, 1, 1999, 0] =
    [some 0, some 900, some 0, some 10] := by decide
-- S6, V33
theorem test_ret : numbers (after (boot [(1, 899), (900, 11)] [(10, .ret)])) [0, 1, 204, 205, 3] =
    [some 11, some 900, some 10, some 899, some 0] := by decide
theorem test_ret_code : record (after (boot [] [(10, .ret), (901, .hlt)])) =
    some (.codeAsData, 901, some 10, some 11, some 1) := by decide
-- V40, V52c
theorem test_hlt : numbers (after (boot [] [(10, .hlt)])) [203, 5, 0, 4, 204] =
    [some 0, some 0, some 10, some 1, some 0] ∧
    (after (boot [] [(10, .hlt)])).haltCause = some .allThreadsDone := by decide
theorem test_hlt_switches : numbers (after (twoThreads [(10, .hlt)])) [203, 5, 4, 223, 0, 1, 204] =
    [some 0, some 1, some 2, some 2, some 30, some 800, some 0] := by decide
-- V43, V44
theorem test_user : numbers (after (boot [(1500, 1000)] [(10, .user 1500)])) [0, 204, 205, 3] =
    [some 1000, some 10, some 900, some 0] ∧
    (after (boot [(1500, 1000)] [(10, .user 1500)])).mode = .user := by decide
theorem test_user_protected : record (after (boot [(500, 1000)] [(10, .user 500)])) =
    some (.protectionViolation, 500, some 10, some 13, some 1) := by decide
-- S8, V45d
theorem test_syscallPrn : (after (boot [(100, 42)] [(10, .syscallPrn 100)])).out = [42] ∧
    (after (boot [(100, 42)] [(10, .syscallPrn 100)])).block = 100 ∧
    numbers (after (boot [(100, 42)] [(10, .syscallPrn 100)])) [0, 3] = [some 11, some 0] := by decide
theorem test_syscallPrn_code : record (after (boot [] [(10, .syscallPrn 11), (11, .hlt)])) =
    some (.codeAsData, 11, some 10, some 16, some 1) := by decide
-- V40, V52a
theorem test_syscallHlt : numbers (after (boot [] [(10, .syscallHlt)])) [203, 5, 0] =
    [some 0, some 0, some 10] := by decide
theorem test_syscallHlt_no_ready : numbers (after (boot [(5, 2)] [(10, .syscallHlt)])) [5, 4, 203, 0] =
    [some 1, some 0, some 0, some 10] ∧
    (after (boot [(5, 2)] [(10, .syscallHlt)])).haltCause = some .noReadyThread := by decide
-- V46, V47
theorem test_syscallYield : numbers (after (twoThreads [(10, .syscallYield)]))
    [203, 204, 205, 4, 223, 0, 1, 3, 5] =
    [some 1, some 11, some 900, some 2, some 2, some 30, some 800, some 0, some 2] := by decide
theorem test_syscallYield_no_ready : numbers (after (boot [] [(10, .syscallYield)]))
    [203, 204, 205, 4, 0, 5] = [some 1, some 11, some 900, some 0, some 11, some 1] := by decide
-- V48b, V48d
theorem test_blank : numbers (after (boot [] [(10, .blank)])) [203, 5, 0, 3] =
    [some 0, some 0, some 10, some 0] := by decide
theorem test_fetch_failure : numbers (after (twoThreads [])) [203, 5, 4, 223, 0, 204] =
    [some 0, some 1, some 2, some 2, some 30, some 0] := by decide
-- V49a
theorem test_malformed : record (after (boot [] [(10, .malformed)])) =
    some (.malformedOperands, 10, some 10, some 254, some 1) := by decide

/-! ### The tick -/

-- V54
theorem test_tick_pc_is_code : record (after (boot [] [(0, .hlt)])) =
    some (.codeAsData, 0, none, none, some 1) ∧ (after (boot [] [(0, .hlt)])).wdLastPc = none := by
  decide
-- V50b
theorem test_tick_pc_negative : record (after (boot [(0, -1)] [])) =
    some (.outOfBounds, -1, some (-1), none, some 1) := by decide
-- V44b
theorem test_tick_fetch_protected : record (after (userBoot [(0, 500)] [])) =
    some (.protectionViolation, 500, some 500, none, some 1) := by decide
-- V18
theorem test_tick_discards : record (after (boot [(3, 2147483647)] [(10, .set 1 100)])) =
    some (.arithmeticOverflow, 3, some 10, some 1, some 1) ∧
    numbers (after (boot [(3, 2147483647)] [(10, .set 1 100)])) [100] = [some 0] := by decide
-- V41, the last tick: the repeat count passes the soft cap
theorem test_tick_evicts :
    (after { boot [] [(10, .jif 100 10)] with
      wdTicks := 101, wdLastPc := some 10, wdRepeat := 100 }).haltCause = some .allThreadsDone ∧
    (after { boot [] [(10, .jif 100 10)] with
      wdTicks := 101, wdLastPc := some 10, wdRepeat := 100 }).wdLastPc = none := by decide
-- S8, tick 2
theorem test_tick_blocked : numbers (after { boot [(0, 11)] [(11, .hlt)] with block := 100 }) [0, 3] =
    [some 11, some 1] ∧ (after { boot [(0, 11)] [(11, .hlt)] with block := 100 }).block = 99 := by
  decide
-- V57a: the scan from thread 2 visits 3 first
theorem test_scan_order : selectNextReady (boot [(203, 1), (223, 2), (243, 1)] []) 2 = .ok 3 := by
  decide
-- V57b: the scan from thread 4 wraps to 1
theorem test_scan_wraps : selectNextReady (boot [(203, 1), (243, 1), (263, 2)] []) 4 = .ok 1 := by
  decide

/-! ### States that meet the hypotheses of the statements

One theorem for each statement that has hypotheses, with a case for each of its clauses; boundary values
where the clauses of a statement meet. -/

theorem witness_AcceptedWordIsItsEncoding :
    decode 0x1010000000700000064#73 = .ok (.set 7 100) ∧ (Instr.set 7 100).isInstruction = true := by
  decide

/-- Tag 0; BLANK; MALFORMED; the unassigned numbers next to assigned ones; a reserved `B`; a reserved `A`
and a reserved `B`; one instruction of each format. -/
theorem witness_DecodeFollowsItsRule :
    (0x0AB00000000000000FF#73).getLsbD 72 = false ∧
    (0x1000000000500000007#73).getLsbD 72 = true ∧
    (0x1000000000500000007#73).extractLsb' 64 8 = 0x00#8 ∧
    (0x1FE0000000000000000#73).extractLsb' 64 8 = 0xFE#8 ∧
    (∀ n ∈ [0x0E, 0x0F, 0x13, 0xFD, 0xFF], n ∉ [0x00, 0x01, 0x02, 0x03, 0x04, 0x05, 0x06, 0x07, 0x08,
      0x09, 0x0A, 0x0B, 0x0C, 0x0D, 0x10, 0x11, 0x12, 0xFE]) ∧
    (0x1080000006400000007#73).extractLsb' 0 32 ≠ 0#32 ∧
    (0x10B0000000100000000#73).extractLsb' 32 32 ≠ 0#32 ∧
    (0x10B0000000000000001#73).extractLsb' 0 32 ≠ 0#32 ∧
    (0x1080000006400000000#73).extractLsb' 0 32 = 0#32 ∧
    (0x1120000000000000000#73).extractLsb' 32 32 = 0#32 := by decide

theorem witness_NumericCellLayout : (0x0AB00000000000000FF#73).getLsbD 72 = false := by decide

theorem witness_UndecodableCellFaults :
    ({ boot [] [] with mem := memOf (data [(0, 10)] ++ [(10, .ins 0x0E 0 0)]) } : State).Fetches 10
      (.ins 0x0E 0 0) ∧
    opcodeAssigned 0x0E = false ∧
    ({ boot [] [] with mem := memOf (data [(0, 10)] ++ [(10, .ins 0x0B 1 0)]) } : State).Fetches 10
      (.ins 0x0B 1 0) ∧
    opcodeAssigned 0x0B = true ∧ (formatOf 0x0B).reservedZero 1 0 = false := by decide

/-- What a load that succeeds answers. -/
theorem ok_of_isOk {ε α : Type} (r : Except ε α) (h : r.isOk = true) : ∃ t, r = .ok t := by
  cases r with
  | ok t => exact ⟨t, rfl⟩
  | error e => cases h

/-- An image with two lines of code at 10 and a data line that they hide, two data lines at 11, and
nothing at 12. -/
def image : Image :=
  { data := [(10, 5), (11, 6), (11, 7)], code := [(10, "RET".toList), (10, "HLT".toList)] }

theorem witness_LoaderGivesInstructionsPriority :
    (∃ t, State.reset.load image = .ok t) ∧
      (image.code.filter (fun l => l.1 = 10)).getLast? = some (10, "HLT".toList) ∧
      image.hasCodeAt 11 = false ∧ (image.data.filter (fun l => l.1 = 11)).getLast? = some (11, 7) ∧
      image.hasCodeAt (12 : Nat) = false ∧
      image.data.filter (fun l => l.1 = ((12 : Nat) : Int)) = [] :=
  ⟨ok_of_isOk _ (by decide), by decide, by decide, by decide, by decide, by decide⟩

theorem witness_StepRunsTheDecodedInstruction :
    (boot [] [(10, .set 7 100)]).Fetches 10 (encodeCell (.set 7 100)) ∧
      decodeCell (encodeCell (.set 7 100)) = .ok (.set 7 100) := by decide

theorem witness_HaltedTickDoesNothing : ({ State.reset with halted := true } : State).halted = true := rfl

/-- The cap at its boundary: 100000 ticks counted. -/
theorem witness_HardCapHalts :
    ({ State.reset with wdTicks := 100000 } : State).halted = false ∧
    ({ State.reset with wdTicks := 100000 } : State).cfg.hardCap <
      ({ State.reset with wdTicks := 100000 } : State).wdTicks + 1 ∧
    (∃ t, step ({ State.reset with wdTicks := 99999 } : State) = .next t) ∧
    ({ State.reset with wdTicks := 100001, halted := true } : State).wdTicks ≤
      State.reset.cfg.hardCap + 1 :=
  ⟨rfl, by decide, step_next _, by decide⟩

/-- `BOOT` with 99 repeats counted and the program counter of the tick before. -/
def repeating (last : Option Word) : State :=
  { boot [] [(10, .set 7 100)] with wdLastPc := last, wdRepeat := 99 }

/-- The tick repeats the program counter of the one before (100 repeats, the cap), or has another one, or
its program counter is an instruction cell. -/
theorem witness_RepeatCountFollowsThePc :
    ((repeating (some 10)).halted = false ∧
      (repeating (some 10)).wdTicks + 1 ≤ (repeating (some 10)).cfg.hardCap ∧
      (repeating (some 10)).HoldsReg .pc 10 ∧
      ((repeating (some 10)).watched 10).wdRepeat ≤ (repeating (some 10)).cfg.softCap ∧
      (repeating (some 10)).wdLastPc = some 10) ∧
    (((repeating none).watched 10).wdRepeat ≤ (repeating none).cfg.softCap ∧
      (repeating none).wdLastPc ≠ some 10) ∧
    (∀ s, ∃ t, step s = .next t) ∧
    (boot [] [(0, .hlt)]).halted = false ∧ (boot [] [(0, .hlt)]).cell 0 = .ins 0x0C 0 0 :=
  ⟨by decide, by decide, step_next, by decide, by decide⟩

/-- An eviction that ends the thread, and one that faults because the thread id names no slot. -/
theorem witness_SoftCapEvicts :
    (∀ id ∈ [1, 0],
      let s : State := { boot [(4, id)] [] with wdLastPc := some 10, wdRepeat := 100 }
      s.halted = false ∧ s.wdTicks + 1 ≤ s.cfg.hardCap ∧ s.HoldsReg .pc 10 ∧
        s.cfg.softCap < (s.watched 10).wdRepeat) ∧
    (terminateCurrent (boot [] [])).isOk = true ∧
      (terminateCurrent (boot [(4, 0)] [])).isOk = false := by decide

theorem witness_BlockedTickCountsDown :
    ∀ n ∈ [2147483646, 2147483647],
      let s : State := { boot [(3, n)] [] with block := 1 }
      s.halted = false ∧ s.wdTicks + 1 ≤ s.cfg.hardCap ∧ s.HoldsReg .pc 10 ∧
        (s.watched 10).wdRepeat ≤ s.cfg.softCap ∧ 0 < s.block ∧
        s.HoldsReg .tic (BitVec.ofInt 32 n) := by decide

/-- The stall after a PRN at 9: with the count 0, and with a stale count of 100, which is only just too high
to stay (R274). -/
theorem witness_StallLastsItsCount :
    (let s : State := { boot [] [] with block := 100, wdLastPc := some 9 }
     s.halted = false ∧ s.block = 100 ∧ s.HoldsReg .pc 10 ∧ s.HoldsReg .tic 0 ∧
      (0 : Word).toInt + (100 : Nat) ≤ xmax ∧ s.wdTicks + 100 ≤ s.cfg.hardCap ∧
      (s.watched 10).wdRepeat + 100 ≤ s.cfg.softCap + 1) ∧
    (let s : State := { boot [] [] with block := 100, wdLastPc := some 9, wdRepeat := 100 }
     (s.watched 10).wdRepeat + 100 ≤ s.cfg.softCap + 1) ∧
    (let s : State := { boot [] [] with block := 1, wdLastPc := some 10, wdRepeat := 99 }
     (s.watched 10).wdRepeat + 1 ≤ s.cfg.softCap + 1) := by decide

/-- Just outside the memory on both sides, and just below `USER_BASE` in User mode. -/
theorem witness_FetchIsChecked :
    ((boot [(0, 2000)] []).Fetching 2000 ∧ ¬ (boot [(0, 2000)] []).Mapped (2000 : Word).toInt) ∧
    ((boot [(0, -1)] []).Fetching (-1) ∧ ¬ (boot [(0, -1)] []).Mapped (-1 : Word).toInt) ∧
    ((userBoot [(0, 999)] []).Fetching 999 ∧ (userBoot [(0, 999)] []).Mapped (999 : Word).toInt ∧
      ¬ (userBoot [(0, 999)] []).Allowed (999 : Word).toInt) := by decide

theorem witness_FetchFailureEndsTheThread :
    (boot [] []).Fetches 10 (.num 0) ∧ (boot [(4, 5)] []).Fetches 10 (.num 0) ∧
      (terminateCurrent ((boot [] []).watched 10)).isOk = true ∧
      (terminateCurrent ((boot [(4, 5)] []).watched 10)).isOk = false := by decide

theorem witness_FaultKeepsNothingOfTheTick :
    (boot [] [(10, .set 1 2000)]).halted = false ∧ (boot [] [(10, .set 1 2000)]).fault = none ∧
      (after (boot [] [(10, .set 1 2000)])).fault ≠ none ∧
      ∃ t, step (boot [] [(10, .set 1 2000)]) = .next t := ⟨rfl, rfl, by decide, step_next _⟩

theorem witness_MachineHaltsWithinTheHardCap : State.reset.wdTicks = 0 := rfl

theorem witness_ResetMeetsTheInvariant : Params.standard.Valid := by decide

/-- The invariant of a booted machine. -/
theorem boot_inv : (boot [] [(10, .set 1 2000)]).Inv :=
  ⟨by decide, by decide, by decide, by decide, by decide, by decide, fun _ => by decide, trivial⟩

theorem witness_LoadKeepsTheInvariant :
    (boot [] [(10, .set 1 2000)]).Inv ∧ ∃ t, (boot [] [(10, .set 1 2000)]).load image = .ok t :=
  ⟨boot_inv, ok_of_isOk _ (by decide)⟩

theorem witness_StepKeepsTheInvariant :
    (boot [] [(10, .set 1 2000)]).Inv ∧ ∃ t, step (boot [] [(10, .set 1 2000)]) = .next t :=
  ⟨boot_inv, step_next _⟩

theorem witness_ModeTransitions :
    (boot [(1500, 1000)] [(10, .user 1500)]).mode = .kernel ∧
      (after (boot [(1500, 1000)] [(10, .user 1500)])).mode = .user ∧
      (userBoot [] [(1000, .set 1 1200)]).mode = .user ∧ (∀ s, ∃ t, step s = .next t) ∧
      (after (boot [(1500, 1000)] [(10, .user 1500)])).fault = none :=
  ⟨rfl, by decide, rfl, step_next, by decide⟩

theorem witness_StepStoresOnlyNumbers : ∃ t, step (boot [] [(10, .set 1 11)]) = .next t := step_next _

theorem witness_OutputOnlyBySyscallPrn :
    (∃ t, step (boot [(100, 42)] [(10, .syscallPrn 100)]) = .next t) ∧
      (after (boot [(100, 42)] [(10, .syscallPrn 100)])).out ≠ [] := ⟨step_next _, by decide⟩

/-- The thread table of a booted machine is at 200 and clear of the control registers. -/
theorem userBoot_tableClear : (userBoot [(500, 7)] [(1000, .cpy 1200 1201)]).TableClear := by
  intro base i hb h1 h4
  have e : base = 200 := by
    have : (userBoot [(500, 7)] [(1000, .cpy 1200 1201)]).cell 6 = .num 200 := by decide
    have hb' := hb
    simp only [State.HoldsReg, Reg.addr_ttb] at hb'
    rw [this] at hb'
    exact (Cell.num.inj hb').symm
  subst e
  have hc : (userBoot [(500, 7)] [(1000, .cpy 1200 1201)]).cfg = Params.standard := rfl
  rw [hc]
  have ht : (200 : Word).toInt = 200 := by decide
  simp only [SlotClear, slotAddr, SlotWord.offset, ht, Params.standard]
  omega

/-- Cell 500 is hidden from User mode: below `USER_BASE`, no control register, not in the table. -/
theorem userBoot_hidden : (userBoot [(500, 7)] [(1000, .cpy 1200 1201)]).Hidden 500 := by
  refine ⟨by decide, by decide, ?_⟩
  rintro base hb ⟨i, k, h1, h4, ha⟩
  have e : base = 200 := by
    have : (userBoot [(500, 7)] [(1000, .cpy 1200 1201)]).cell 6 = .num 200 := by decide
    have hb' := hb
    simp only [State.HoldsReg, Reg.addr_ttb] at hb'
    rw [this] at hb'
    exact (Cell.num.inj hb').symm
  subst e
  have hc : (userBoot [(500, 7)] [(1000, .cpy 1200 1201)]).cfg = Params.standard := rfl
  rw [hc] at h4 ha
  have ht : (200 : Word).toInt = 200 := by decide
  simp only [slotAddr, ht, Params.standard] at ha h4
  cases k <;> simp only [SlotWord.offset] at ha <;> omega

theorem witness_UserModeConfinesStores :
    (userBoot [(500, 7)] [(1000, .cpy 1200 1201)]).mode = .user ∧
      7 ≤ (userBoot [(500, 7)] [(1000, .cpy 1200 1201)]).cfg.userBase ∧
      (userBoot [(500, 7)] [(1000, .cpy 1200 1201)]).TableClear ∧
      (∃ t, step (userBoot [(500, 7)] [(1000, .cpy 1200 1201)]) = .next t) ∧
      (userBoot [(500, 7)] [(1000, .cpy 1200 1201)]).Hidden 500 :=
  ⟨rfl, by decide, userBoot_tableClear, step_next _, userBoot_hidden⟩

/-- Two machines that differ in cell 500 only. -/
theorem witness_UserModeReadsNothingHidden :
    let s1 := userBoot [(500, 7)] [(1000, .cpy 1200 1201)]
    let s2 := s1.poke 500 8
    s1.mode = .user ∧ 7 ≤ s1.cfg.userBase ∧ s1.TableClear ∧ s1.SameInSight s2 ∧
      s2.cell 500 ≠ s1.cell 500 ∧ (∃ t, step s1 = .next t) ∧ ∃ t, step s2 = .next t := by
  intro s1 s2
  refine ⟨rfl, by decide, userBoot_tableClear, ⟨rfl, fun a ha => ?_⟩, by decide, step_next _,
    step_next _⟩
  have hne : a ≠ 500 := fun h => ha (h ▸ userBoot_hidden)
  show (s1.poke 500 8).cell a = s1.cell a
  rw [State.cell_poke, if_neg (Ne.symm hne)]

/-- The edges of the memory and of User mode's part of it, a number and an instruction cell. -/
theorem witness_OperandReadIsChecked :
    let k := boot [] [(11, .hlt)]
    let u := userBoot [] [(1000, .hlt)]
    (-1 < (0 : Int) ∧ (k.cfg.memCapacity : Int) ≤ 2000) ∧ (1999 : Int) < (k.cfg.memCapacity : Int) ∧
      u.mode = .user ∧ (999 : Int) < (u.cfg.userBase : Int) ∧ (u.cfg.userBase : Int) ≤ 1000 ∧
      k.mode = .kernel ∧ k.cell 11 = .ins 0x0C 0 0 ∧ k.cell 0 = .num 10 ∧
      u.cell 1000 = .ins 0x0C 0 0 := by decide

/-- As for the read; and the values on both sides of each end of a word's range. -/
theorem witness_OperandWriteIsChecked :
    let k := boot [] [(11, .hlt)]
    let u := userBoot [] [(1000, .hlt)]
    (-1 < (0 : Int) ∧ (k.cfg.memCapacity : Int) ≤ 2000) ∧ (1999 : Int) < (k.cfg.memCapacity : Int) ∧
      u.mode = .user ∧ (999 : Int) < (u.cfg.userBase : Int) ∧ (u.cfg.userBase : Int) ≤ 1000 ∧
      k.mode = .kernel ∧ (-2147483649 < xmin ∧ xmax < 2147483648) ∧
      xmin ≤ -2147483648 ∧ 2147483647 ≤ xmax := by decide

theorem witness_RegisterAccessIsNotModeChecked :
    (boot [] [(3, .hlt)]).cell Reg.tic.addr = .ins 0x0C 0 0 ∧
      (userBoot [] []).cell Reg.atc.addr = .num 1 ∧ (-2147483649 < xmin ∧ xmax < 2147483648) ∧
      xmin ≤ -2147483648 ∧ 2147483647 ≤ xmax := by decide

theorem witness_TableAccessIsNotModeChecked :
    let u := userBoot [] [(204, .hlt)]
    (-1 < (0 : Int) ∧ (u.cfg.memCapacity : Int) ≤ 2000) ∧ (1999 : Int) < (u.cfg.memCapacity : Int) ∧
      u.cell 204 = .ins 0x0C 0 0 ∧ u.cell 203 = .num 2 ∧ (-2147483649 < xmin ∧ xmax < 2147483648) ∧
      xmin ≤ -2147483648 ∧ 2147483647 ≤ xmax := by decide

/-- The first and the last thread, the ids next to the valid ones, and a table of which the first slot's
saved-PC, or only its saved-SP, lies just outside the memory. -/
theorem witness_PersistStoresPcAndSp :
    (boot [] []).HoldsReg .ttb 200 ∧
    (boot [] []).CanPersist 1 200 10 900 ∧ (boot [(4, 4)] []).CanPersist 4 200 10 900 ∧
      ((boot [(4, 0)] []).HoldsReg .ctid 0 ∧ (0 : Word).toInt < 1) ∧
      ((boot [(4, 5)] []).HoldsReg .ctid 5 ∧ ((boot [(4, 5)] []).cfg.maxThreads : Int) <
        (5 : Word).toInt) ∧
      (let s := boot [(6, 1996)] []
       s.HoldsReg .ctid 1 ∧ s.validId (1 : Word).toInt = true ∧ s.HoldsReg .ttb 1996 ∧
        s.HoldsReg .pc 10 ∧ ¬ s.Mapped (slotAddr s.cfg 1996 (1 : Word).toInt .savedPc)) ∧
      (let s := boot [(6, 1995)] []
       s.HoldsReg .ctid 1 ∧ s.validId (1 : Word).toInt = true ∧ s.HoldsReg .ttb 1995 ∧
        s.HoldsReg .pc 10 ∧ s.Mapped (slotAddr s.cfg 1995 (1 : Word).toInt .savedPc) ∧
        (s.poke (slotAddr s.cfg 1995 (1 : Word).toInt .savedPc).toNat 10).HoldsReg .sp 900 ∧
        ¬ s.Mapped (slotAddr s.cfg 1995 (1 : Word).toInt .savedSp)) := by decide

/-- Thread 2 is the first Ready one after thread 1 (at place 1), thread 1 after itself (at the last
place), and in a booted machine none is Ready. -/
theorem witness_ScanPicksTheFirstReady :
    (twoThreads []).HoldsReg .ttb 200 ∧ (twoThreads []).FirstReady 200 1 2 ∧
      (boot [(203, 1)] []).FirstReady 200 1 1 ∧ (boot [] []).NoneReady 200 1 :=
  ⟨by decide, ⟨1, by decide, by decide, by decide, by decide, by decide⟩,
    ⟨4, by decide, by decide, by decide, by decide, by decide⟩, by unfold State.NoneReady; decide⟩

/-- An ordinary cell, a control register and, in User mode, the first cell it may write. -/
theorem witness_SetStoresTheLiteral :
    ((boot [] []).Writable (1999 : Word).toInt ∧
      ((boot [] []).poke (1999 : Word).toInt.toNat 7).CountsFrom 10 0) ∧
    ((boot [] []).Writable (0 : Word).toInt ∧
      ((boot [] []).poke (0 : Word).toInt.toNat 50).CountsFrom 50 0) ∧
    ((userBoot [] []).Writable (1000 : Word).toInt ∧
      ((userBoot [] []).poke (1000 : Word).toInt.toNat 7).CountsFrom 1000 0) := by decide

theorem witness_CpyCopiesTheWord :
    (boot [] []).Readable (0 : Word).toInt 10 ∧ (boot [] []).Writable (100 : Word).toInt ∧
      ((boot [] []).poke (100 : Word).toInt.toNat 10).CountsFrom 10 0 := by decide

theorem witness_CpyiCopiesThroughThePointer :
    (boot [(300, 5), (301, 300)] []).Readable (301 : Word).toInt 300 ∧
      (boot [(300, 5), (301, 300)] []).Readable (300 : Word).toInt 5 ∧
      (boot [(300, 5), (301, 300)] []).Writable (302 : Word).toInt ∧
      ((boot [(300, 5), (301, 300)] []).poke (302 : Word).toInt.toNat 5).CountsFrom 10 0 := by decide

theorem witness_AddAddsTheLiteral :
    (boot [(100, 7)] []).Readable (100 : Word).toInt 7 ∧
      (4 : Word).toInt = (7 : Word).toInt + (-3 : Word).toInt ∧
      ((boot [(100, 7)] []).poke (100 : Word).toInt.toNat 4).CountsFrom 10 0 := by decide

theorem witness_AddiAddsIntoTheFirst :
    (boot [(100, 7), (101, -10)] []).Readable (100 : Word).toInt 7 ∧
      (boot [(100, 7), (101, -10)] []).Readable (101 : Word).toInt (-10) ∧
      (-3 : Word).toInt = (7 : Word).toInt + (-10 : Word).toInt ∧
      ((boot [(100, 7), (101, -10)] []).poke (100 : Word).toInt.toNat (-3)).CountsFrom 10 0 := by
  decide

theorem witness_SubiSubtractsIntoTheSecond :
    (boot [(100, 7), (101, 10)] []).Readable (100 : Word).toInt 7 ∧
      (boot [(100, 7), (101, 10)] []).Readable (101 : Word).toInt 10 ∧
      (-3 : Word).toInt = (7 : Word).toInt - (10 : Word).toInt ∧
      ((boot [(100, 7), (101, 10)] []).poke (101 : Word).toInt.toNat (-3)).CountsFrom 10 0 := by decide

/-- An ordinary push, and one whose stack cell is PC itself (V24). -/
theorem witness_PushStoresOnTheStack :
    ((boot [(100, 42)] []).Readable (100 : Word).toInt 42 ∧
      (boot [(100, 42)] []).CanPush 900 42 900 ∧
      ((boot [(100, 42)] []).pushed 900 42 900).CountsFrom 10 0) ∧
    ((boot [(1, 0), (100, 42)] []).Readable (100 : Word).toInt 42 ∧
      (boot [(1, 0), (100, 42)] []).CanPush 0 42 0 ∧
      ((boot [(1, 0), (100, 42)] []).pushed 0 42 0).CountsFrom 42 0) := by decide

theorem witness_PopTakesFromTheStack :
    (boot [(1, 899), (900, 60)] []).CanPop 899 60 ∧
      (boot [(1, 899), (900, 60)] []).Writable (0 : Word).toInt ∧
      (((boot [(1, 899), (900, 60)] []).popped 899).poke (0 : Word).toInt.toNat 60).CountsFrom 60 0 := by
  decide

theorem witness_PushThenPopRestores :
    let s := boot [(100, 42)] []
    s.Readable (100 : Word).toInt 42 ∧ s.HoldsReg .sp 900 ∧ s.Writable (900 : Word).toInt ∧
      s.Writable (101 : Word).toInt ∧ 3 < (900 : Word).toInt ∧ 3 < (101 : Word).toInt ∧
      s.HoldsReg .pc 10 ∧ (10 : Word).toInt + 2 ≤ xmax ∧ s.HoldsReg .tic 0 ∧
      (0 : Word).toInt + 2 ≤ xmax := by decide

/-- The word 0 jumps, the word 1 does not. -/
theorem witness_JifJumpsOnNonPositive :
    ((boot [] []).Readable (100 : Word).toInt 0 ∧ (0 : Word).toInt ≤ 0 ∧
      (boot [] []).CanPersist 1 200 10 900) ∧
    ((boot [(100, 1)] []).Readable (100 : Word).toInt 1 ∧ 0 < (1 : Word).toInt ∧
      (boot [(100, 1)] []).CountsFrom 10 0) := by decide

theorem witness_CallPushesAndJumps :
    (boot [] []).HoldsReg .pc 10 ∧ (10 : Word).toInt < xmax ∧
      (boot [] []).CanPush 900 (10 + 1) 900 ∧
      ((boot [] []).pushed 900 (10 + 1) 900).CanPersist 1 200 10 899 := by decide

theorem witness_RetPopsIntoPc :
    (boot [(1, 899), (900, 11)] []).CanPersist 1 200 10 899 ∧
      ((boot [(1, 899), (900, 11)] []).persisted 1 200 10 899).CanPop 899 11 := by decide

theorem witness_CallThenRetReturns :
    let s := boot [] []
    s.HoldsReg .pc 10 ∧ (10 : Word).toInt < xmax ∧ s.HoldsReg .sp 900 ∧
      s.Writable (900 : Word).toInt ∧ 6 < (900 : Word).toInt ∧ s.HoldsReg .ctid 1 ∧
      s.validId (1 : Word).toInt = true ∧ s.HoldsReg .ttb 200 ∧
      s.SlotMapped 200 (1 : Word).toInt ∧ SlotClear s.cfg 200 (1 : Word).toInt ∧
      (900 : Word).toInt ≠ slotAddr s.cfg 200 (1 : Word).toInt .savedPc ∧
      (900 : Word).toInt ≠ slotAddr s.cfg 200 (1 : Word).toInt .savedSp := by decide

/-- The operand at `USER_BASE` exactly. -/
theorem witness_UserEntersUserMode :
    (boot [(1000, 1200)] []).Mapped (1000 : Word).toInt ∧
      ((boot [(1000, 1200)] []).cfg.userBase : Int) ≤ (1000 : Word).toInt ∧
      (boot [(1000, 1200)] []).Holds (1000 : Word).toInt 1200 ∧
      (boot [(1000, 1200)] []).CanPersist 1 200 10 900 := by decide

theorem witness_PrnOutputsAndStalls :
    (boot [(100, 42)] []).Readable (100 : Word).toInt 42 ∧ (boot [(100, 42)] []).HoldsReg .pc 10 ∧
      (10 : Word).toInt < xmax := by decide

/-- The last active thread; two active threads with thread 2 Ready; two active threads with none
Ready. -/
theorem witness_TerminationEndsTheThread :
    (Instr.hlt ∈ [Instr.hlt, .syscallHlt, .blank] ∧ (boot [] []).HoldsReg .ctid 1 ∧
      (boot [] []).validId (1 : Word).toInt = true ∧ (boot [] []).HoldsReg .ttb 200 ∧
      (boot [] []).Mapped (slotAddr (boot [] []).cfg 200 (1 : Word).toInt .state) ∧
      6 < slotAddr (boot [] []).cfg 200 (1 : Word).toInt .state ∧ (boot [] []).HoldsReg .atc 1 ∧
      xmin < (1 : Word).toInt ∧ (1 : Word).toInt ≤ 1) ∧
    (let s := twoThreads []
     let A := slotAddr s.cfg 200 (1 : Word).toInt .state
     s.HoldsReg .ctid 1 ∧ s.HoldsReg .ttb 200 ∧ s.HoldsReg .atc 2 ∧ 1 < (2 : Word).toInt ∧
      s.validId (2 : Word).toInt = true ∧ (2 : Word) ≠ 1 ∧
      ((s.poke A.toNat 0).poke Reg.atc.addr (2 - 1)).FirstReady 200 (1 : Word).toInt
        (2 : Word).toInt ∧
      SlotClear s.cfg 200 (2 : Word).toInt ∧ s.SlotMapped 200 (2 : Word).toInt ∧
      s.Holds (slotAddr s.cfg 200 (2 : Word).toInt .savedPc) 30 ∧
      s.Holds (slotAddr s.cfg 200 (2 : Word).toInt .savedSp) 800 ∧
      A ≠ slotAddr s.cfg 200 (2 : Word).toInt .savedPc ∧
      A ≠ slotAddr s.cfg 200 (2 : Word).toInt .savedSp ∧
      A ≠ slotAddr s.cfg 200 (2 : Word).toInt .state) ∧
    (let s := boot [(5, 2)] []
     s.HoldsReg .atc 2 ∧ 1 < (2 : Word).toInt ∧
      ((s.poke (slotAddr s.cfg 200 (1 : Word).toInt .state).toNat 0).poke Reg.atc.addr
        (2 - 1)).NoneReady 200 (1 : Word).toInt) := by
  refine ⟨by decide, ⟨by decide, by decide, by decide, by decide, by decide, by decide,
    ⟨1, by decide, by decide, by decide, by decide, by decide⟩, by decide, by decide, by decide,
    by decide, by decide, by decide, by decide⟩, by decide, by decide, ?_⟩
  unfold State.NoneReady
  decide

/-- Thread 1 yields to thread 2, Running and (its state word 0) not Running; thread 1, its state word
already Ready, yields to itself; and no thread is Ready. -/
theorem witness_YieldSwitchesThreads :
    (∀ w ∈ [(2 : Word), 0],
      let s := twoThreads' w
      s.HoldsReg .ctid 1 ∧ s.validId (1 : Word).toInt = true ∧ s.HoldsReg .ttb 200 ∧
      s.SlotMapped 200 (1 : Word).toInt ∧ SlotClear s.cfg 200 (1 : Word).toInt ∧
      s.HoldsReg .pc 10 ∧ (10 : Word).toInt < xmax ∧ s.HoldsReg .sp 900 ∧
      s.Holds (slotAddr s.cfg 200 (1 : Word).toInt .state) w ∧
      s.validId (2 : Word).toInt = true ∧ (2 : Word) ≠ 1 ∧
      ((s.poke Reg.pc.addr (10 + 1)).persisted 1 200 (10 + 1) 900).FirstReady 200 (1 : Word).toInt
        (2 : Word).toInt ∧
      SlotClear s.cfg 200 (2 : Word).toInt ∧ s.SlotMapped 200 (2 : Word).toInt ∧
      s.Holds (slotAddr s.cfg 200 (2 : Word).toInt .savedPc) 30 ∧
      s.Holds (slotAddr s.cfg 200 (2 : Word).toInt .savedSp) 800 ∧
      ∀ k l : SlotWord, slotAddr s.cfg 200 (1 : Word).toInt k ≠
        slotAddr s.cfg 200 (2 : Word).toInt l) ∧
    (let s := boot [(203, 1)] []
     s.HoldsReg .ctid 1 ∧ s.validId (1 : Word).toInt = true ∧ s.HoldsReg .ttb 200 ∧
      s.SlotMapped 200 (1 : Word).toInt ∧ SlotClear s.cfg 200 (1 : Word).toInt ∧
      s.HoldsReg .pc 10 ∧ s.HoldsReg .sp 900 ∧
      s.Holds (slotAddr s.cfg 200 (1 : Word).toInt .state) 1 ∧
      ((s.poke Reg.pc.addr (10 + 1)).persisted 1 200 (10 + 1) 900).FirstReady 200 (1 : Word).toInt
        (1 : Word).toInt) ∧
    (let s := boot [] []
     s.HoldsReg .ctid 1 ∧ s.validId (1 : Word).toInt = true ∧ s.HoldsReg .ttb 200 ∧
      s.SlotMapped 200 (1 : Word).toInt ∧ SlotClear s.cfg 200 (1 : Word).toInt ∧
      s.HoldsReg .pc 10 ∧ s.HoldsReg .sp 900 ∧
      s.Holds (slotAddr s.cfg 200 (1 : Word).toInt .state) 2 ∧
      ((s.poke Reg.pc.addr (10 + 1)).persisted 1 200 (10 + 1) 900).NoneReady 200
        (1 : Word).toInt) := by
  refine ⟨?_, ?_, ?_⟩
  · intro w hw
    simp only [List.mem_cons, List.not_mem_nil, or_false] at hw
    rcases hw with rfl | rfl <;>
      exact ⟨by decide, by decide, by decide, by decide, by decide, by decide, by decide, by decide,
        by decide, by decide, by decide, ⟨1, by decide, by decide, by decide, by decide, by decide⟩,
        by decide, by decide, by decide, by decide,
        fun k l => by cases k <;> cases l <;> decide⟩
  · exact ⟨by decide, by decide, by decide, by decide, by decide, by decide, by decide, by decide,
      ⟨4, by decide, by decide, by decide, by decide, by decide⟩⟩
  · exact ⟨by decide, by decide, by decide, by decide, by decide, by decide, by decide, by decide,
      by unfold State.NoneReady; decide⟩

theorem witness_MalformedHaltsTheMachine : (boot [] []).HoldsReg .pc 10 := by decide

/-- The addresses next to the edges: 2000 and -1 outside, 999 below `USER_BASE`; and a cell that holds
code. -/
theorem witness_FirstOperandFaults :
    firstOperand (.set 7 2000) = some 2000 ∧ ¬ (boot [] []).Mapped (2000 : Word).toInt ∧
      firstOperand (.push (-1)) = some (-1) ∧ ¬ (boot [] []).Mapped (-1 : Word).toInt ∧
      firstOperand (.cpy 999 1200) = some 999 ∧ (userBoot [] []).Mapped (999 : Word).toInt ∧
      ¬ (userBoot [] []).Allowed (999 : Word).toInt ∧
      firstOperand (.jif 11 50) = some 11 ∧ (boot [] [(11, .hlt)]).Mapped (11 : Word).toInt ∧
      (boot [] [(11, .hlt)]).Allowed (11 : Word).toInt ∧
      (boot [] [(11, .hlt)]).cell (11 : Word).toInt.toNat = .ins 0x0C 0 0 := by decide

theorem witness_UserOperandIsCheckedAsUser :
    ¬ (boot [] []).Mapped (2000 : Word).toInt ∧
      ((boot [] []).Mapped (999 : Word).toInt ∧
        (999 : Word).toInt < ((boot [] []).cfg.userBase : Int)) ∧
      ((boot [] [(1000, .hlt)]).Mapped (1000 : Word).toInt ∧
        ((boot [] []).cfg.userBase : Int) ≤ (1000 : Word).toInt ∧
        (boot [] [(1000, .hlt)]).cell (1000 : Word).toInt.toNat = .ins 0x0C 0 0) := by decide

/-- One past each end of a word's range. -/
theorem witness_ArithmeticOverflowFaults :
    ((boot [(100, 2147483647)] []).Readable (100 : Word).toInt 2147483647 ∧
      xmax < (2147483647 : Word).toInt + (1 : Word).toInt) ∧
    ((boot [(100, -2147483648), (101, -1)] []).Readable (100 : Word).toInt (-2147483648) ∧
      (boot [(100, -2147483648), (101, -1)] []).Readable (101 : Word).toInt (-1) ∧
      (-2147483648 : Word).toInt + (-1 : Word).toInt < xmin) ∧
    ((boot [(101, -2147483648)] []).Readable (100 : Word).toInt 0 ∧
      (boot [(101, -2147483648)] []).Readable (101 : Word).toInt (-2147483648) ∧
      xmax < (0 : Word).toInt - (-2147483648 : Word).toInt) := by decide

/-- The ids next to the valid ones; a tick that fetches a number and one that evicts; and a CALL whose push
leaves the id as it was. -/
theorem witness_InvalidThreadIdFaults :
    (let s := boot [(4, 0)] []
     s.HoldsReg .ctid 0 ∧ (0 : Word).toInt < 1 ∧ s.HoldsReg .pc 10 ∧ (10 : Word).toInt < xmax ∧
      s.Fetches 10 (.num 0) ∧ s.CanPush 900 (10 + 1) 900 ∧
      (s.pushed 900 (10 + 1) 900).HoldsReg .ctid 0) ∧
    (let s : State := { boot [(4, 0)] [] with wdLastPc := some 10, wdRepeat := 100 }
     s.HoldsReg .ctid 0 ∧ s.halted = false ∧ s.wdTicks + 1 ≤ s.cfg.hardCap ∧ s.HoldsReg .pc 10 ∧
      s.cfg.softCap < (s.watched 10).wdRepeat) ∧
    (let s := boot [(4, 5), (1000, 1200)] []
     s.HoldsReg .ctid 5 ∧ (s.cfg.maxThreads : Int) < (5 : Word).toInt ∧
      s.Readable (100 : Word).toInt 0 ∧ (0 : Word).toInt ≤ 0 ∧ s.Mapped (1000 : Word).toInt ∧
      (s.cfg.userBase : Int) ≤ (1000 : Word).toInt ∧ s.Holds (1000 : Word).toInt 1200 ∧
      (s.pushed 900 (10 + 1) 900).HoldsReg .ctid 5) := by decide

theorem witness_StoringInstructionsFrame :
    destination (.set 7 100) = some 100 ∧ ∃ t, exec (.set 7 100) (boot [] []) = .next t :=
  ⟨rfl, _, rfl⟩

theorem witness_StackInstructionsFrame :
    (∃ t, exec (.push 100) (boot [] []) = .next t) ∧ (boot [] []).HoldsReg .sp 900 ∧
      ∃ t, exec (.pop 100) (boot [] []) = .next t := ⟨⟨_, rfl⟩, by decide, _, rfl⟩

/-- A JIF on 0, which is taken, and on 1, which is not. -/
theorem witness_PersistingInstructionsFrame :
    (∃ t, exec (.jif 100 50) (boot [] []) = .next t) ∧ (boot [] []).Holds (100 : Word).toInt 0 ∧
      (0 : Word).toInt ≤ 0 ∧ (boot [] []).HoldsReg .ctid 1 ∧ (boot [] []).HoldsReg .ttb 200 ∧
      (∃ t, exec (.jif 100 50) (boot [(100, 1)] []) = .next t) ∧
      (boot [(100, 1)] []).Holds (100 : Word).toInt 1 ∧ 0 < (1 : Word).toInt ∧
      (∃ t, exec (.call 50) (boot [] []) = .next t) ∧ (boot [] []).HoldsReg .sp 900 ∧
      ((boot [] []).push (boot [] []).returnAddress).isOk = true ∧
      (∃ t, exec .ret (boot [] []) = .next t) ∧ ∃ t, exec (.user 1500) (boot [] []) = .next t :=
  ⟨⟨_, rfl⟩, by decide, by decide, by decide, by decide, ⟨_, rfl⟩, by decide, by decide, ⟨_, rfl⟩,
    by decide, by decide, ⟨_, rfl⟩, _, rfl⟩

theorem witness_SystemInstructionsFrame :
    (∃ t, exec (.syscallPrn 100) (boot [] []) = .next t) ∧ (boot [] []).Holds (100 : Word).toInt 0 ∧
      Instr.blank ∈ [Instr.hlt, .syscallHlt, .blank] ∧
      (∃ t, exec .blank (twoThreads []) = .next t) ∧ (twoThreads []).HoldsReg .ctid 1 ∧
      (twoThreads []).HoldsReg .ttb 200 ∧ (twoThreads []).HoldsReg .atc 2 ∧
      6 < slotAddr (twoThreads []).cfg 200 (1 : Word).toInt .state ∧
      (∃ t, exec .syscallYield (twoThreads []) = .next t) ∧ (twoThreads []).HoldsReg .pc 10 ∧
      (twoThreads []).HoldsReg .sp 900 ∧ SlotClear (twoThreads []).cfg 200 (1 : Word).toInt :=
  ⟨⟨_, rfl⟩, by decide, by decide, ⟨_, rfl⟩, by decide, by decide, by decide, by decide, ⟨_, rfl⟩,
    by decide, by decide, by decide⟩

/-- Each access just outside the memory (V7, V25, V25b, V35), one to a cell of code (V33) and one below
`USER_BASE` in User mode. -/
theorem witness_LaterAccessFaults :
    (let s := boot [(100, -1), (1000, 1)] [(901, .hlt)]
     s.Readable (100 : Word).toInt (-1) ∧ s.ReadFaults (-1 : Word).toInt .outOfBounds ∧
      s.WriteFaults (2000 : Word).toInt .outOfBounds ∧
      s.Readable (1000 : Word).toInt 1 ∧ s.Readable (1 : Word).toInt 900 ∧
      s.ReadFaults (901 : Word).toInt .codeAsData ∧ s.HoldsReg .sp 900 ∧
      (s.popped 900).ReadFaults ((900 : Word).toInt + 1) .codeAsData ∧
      s.CanPersist 1 200 10 900 ∧ (s.persisted 1 200 10 900).HoldsReg .sp 900 ∧
      ((s.persisted 1 200 10 900).popped 900).ReadFaults ((900 : Word).toInt + 1) .codeAsData) ∧
    (let s := boot [(1, 1999)] []
     s.HoldsReg .sp 1999 ∧ (1999 : Word).toInt < xmax ∧
      (s.popped 1999).ReadFaults ((1999 : Word).toInt + 1) .outOfBounds) ∧
    (let s := boot [(1, -1)] []
     s.Readable (100 : Word).toInt 0 ∧ s.HoldsReg .sp (-1) ∧ s.HoldsReg .pc 10 ∧
      s.WriteFaults (-1 : Word).toInt .outOfBounds ∧ s.CanPop (-1) 10 ∧
      s.WriteFaults (2000 : Word).toInt .outOfBounds) ∧
    (let s := userBoot [] []
     s.Readable (1000 : Word).toInt 0 ∧ s.ReadFaults (0 : Word).toInt .protectionViolation ∧
      s.WriteFaults (999 : Word).toInt .protectionViolation) := by
  refine ⟨⟨?_, ?_, ?_, ?_, ?_, ?_, ?_, ?_, ?_, ?_, ?_⟩, ?_, ⟨?_, ?_, ?_, ?_, ?_, ?_⟩, ?_⟩ <;> decide

/-- Each counter at the last value a word holds. -/
theorem witness_CounterOverflowFaults :
    (let s := boot [(0, 2147483647)] []
     ReachesStepSix (.set 7 100) s (s.poke (100 : Word).toInt.toNat 7) ∧
      (s.poke (100 : Word).toInt.toNat 7).HoldsReg .pc 2147483647 ∧
      (2147483647 : Word).toInt = xmax ∧ s.HoldsReg .pc 2147483647 ∧
      s.Readable (100 : Word).toInt 0 ∧ s.HoldsReg .sp 900 ∧ s.Writable (900 : Word).toInt) ∧
    (let s := boot [(3, 2147483647)] []
     ReachesStepSix (.set 1 100) s (s.poke (100 : Word).toInt.toNat 1) ∧
      (s.poke (100 : Word).toInt.toNat 1).HoldsReg .pc 10 ∧ (10 : Word).toInt < xmax ∧
      (s.poke (100 : Word).toInt.toNat 1).HoldsReg .tic 2147483647) ∧
    (let s := boot [] [(3, .hlt)]
     ReachesStepSix (.set 1 100) s (s.poke (100 : Word).toInt.toNat 1) ∧
      (s.poke (100 : Word).toInt.toNat 1).isCode 3 = true) ∧
    (let s := boot [(1, 1), (100, -2147483648)] []
     s.Readable (100 : Word).toInt (-2147483648) ∧ s.HoldsReg .sp 1 ∧ s.Writable (1 : Word).toInt ∧
      (s.poke (1 : Word).toInt.toNat (-2147483648)).HoldsReg .sp (-2147483648) ∧
      (-2147483648 : Word).toInt = xmin) ∧
    (let s := boot [(1, 2147483647)] []
     s.HoldsReg .sp 2147483647 ∧ s.CanPersist 1 200 10 2147483647 ∧
      (s.persisted 1 200 10 2147483647).HoldsReg .sp 2147483647) ∧
    (let s := boot [(5, -2147483648)] []
     s.HoldsReg .ctid 1 ∧ s.validId (1 : Word).toInt = true ∧ s.HoldsReg .ttb 200 ∧
      s.Mapped (slotAddr s.cfg 200 (1 : Word).toInt .state) ∧
      (s.poke (slotAddr s.cfg 200 (1 : Word).toInt .state).toNat 0).HoldsReg .atc
        (-2147483648)) := by
  unfold ReachesStepSix
  decide

end Sys2Proof.Tests
end

section
/-! PROOFS. User mode and the cells it must not reach (R45(b), R63, R65, R72): O24 and O25.

Both are one fact about two machines run side by side. `Twins s0 s r` says that `s`, reached from `s0`, and
`r` agree on everything but the cells that `s0` hides from User mode, and that `s` has in these what `s0`
had. Every operation of the model takes twins to twins or raises the same fault on both. That the two stay
alike is O25; that a hidden cell keeps its content is O24. -/

namespace Sys2Proof.Machine

/-! ### Two computations that go alike -/

/-- Two computations end alike: both with values related by `R`, or both with the same fault. -/
inductive Matched {α : Type} (R : α → α → Prop) : Result α → Result α → Prop
  | ok {a b : α} (h : R a b) : Matched R (.ok a) (.ok b)
  | error (e : Raise) : Matched R (.error e) (.error e)

section matched
variable {α β : Type} {R : α → α → Prop} {Q : β → β → Prop}

/-- Sequencing after a part that gives related values. -/
theorem Matched.bind {x y : Result α} {f g : α → Result β} (h : Matched R x y)
    (hf : ∀ a b, R a b → Matched Q (f a) (g b)) : Matched Q (x >>= f) (y >>= g) := by
  cases h with
  | ok hab => exact hf _ _ hab
  | error e => exact .error e

/-- Sequencing after a part that gives the same value on both sides: a read or a check. -/
theorem Matched.bind_eq {x y : Result α} {f g : α → Result β} (h : y = x)
    (hf : ∀ a, x = .ok a → Matched Q (f a) (g a)) : Matched Q (x >>= f) (y >>= g) := by
  subst h
  cases y with
  | ok a => exact hf a rfl
  | error e => exact .error e

end matched

/-! ### Twins -/

/-- What a machine in User mode needs for its low memory to be out of reach: the control registers lie
below `USER_BASE`, and the thread table is clear of them (R343(d)). -/
structure UserStart (s : State) : Prop where
  mode : s.mode = .user
  userBase : 7 ≤ s.cfg.userBase
  table : s.TableClear

/-- `s`, reached from `s0`, and `r` differ only in cells that `s0` hides from User mode, and `s` holds there
what `s0` held. -/
structure Twins (s0 s r : State) : Prop where
  start : UserStart s0
  cfg : s.cfg = s0.cfg
  mode : s.mode = .user
  ttb : s.cell Reg.ttb.addr = s0.cell Reg.ttb.addr
  frame : r = { s with mem := r.mem }
  sight : ∀ a, ¬ s0.Hidden a → r.cell a = s.cell a
  keeps : ∀ a, s0.Hidden a → s.cell a = s0.cell a

/-- Two machines that differ only in hidden cells are twins to begin with. -/
theorem State.SameInSight.twins {s r : State} (hs : UserStart s) (h : s.SameInSight r) :
    Twins s s r where
  start := hs
  cfg := rfl
  mode := hs.mode
  ttb := rfl
  frame := h.1
  sight := h.2
  keeps _ _ := rfl

/-! ### What is in sight -/

/-- A control register the hardware uses is in sight (R25, R63). -/
theorem State.reg_not_hidden (s : State) {k : Reg} (hk : k ≠ .lsr) : ¬ s.Hidden k.addr := by
  rintro ⟨-, h, -⟩
  cases k <;> simp at h hk

/-- What User mode may address is in sight (R65). -/
theorem State.not_hidden_of_userBase_le (s : State) {a : Int} (h : (s.cfg.userBase : Int) ≤ a) :
    ¬ s.Hidden a.toNat := by
  rintro ⟨hlt, -, -⟩
  omega

/-- A word of the thread table that the hardware touches is in sight (R35, R63). -/
theorem State.slot_not_hidden (s : State) {base : Word} {i : Int} {k : SlotWord}
    (hb : s.HoldsReg .ttb base) (hv : s.validId i = true) (h0 : 0 ≤ slotAddr s.cfg base i k) :
    ¬ s.Hidden (slotAddr s.cfg base i k).toNat := by
  rintro ⟨-, -, hout⟩
  obtain ⟨h1, h2⟩ := (s.validId_iff i).1 hv
  exact hout base hb ⟨i, k, h1, h2, Int.toNat_of_nonneg h0⟩

/-- A word of a table that is clear of the control registers is none of them (R343(d)). -/
theorem State.TableClear.lt_slotAddr {s : State} (h : s.TableClear) {base : Word} {i : Int}
    (k : SlotWord) (hb : s.HoldsReg .ttb base) (hv : s.validId i = true) :
    6 < slotAddr s.cfg base i k := by
  obtain ⟨h1, h2⟩ := (s.validId_iff i).1 hv
  obtain ⟨hst, hpc, hsp⟩ := h base i hb h1 h2
  cases k
  · exact hst
  · exact hpc
  · exact hsp

section twins
variable {s0 s r : State}

/-! ### Twins answer alike: checks and reads -/

theorem Twins.cfg_right (h : Twins s0 s r) : r.cfg = s.cfg := by rw [h.frame]
theorem Twins.mode_right (h : Twins s0 s r) : r.mode = s.mode := by rw [h.frame]

theorem Twins.bounds (h : Twins s0 s r) (a : Int) : r.bounds a = s.bounds a := by
  simp only [State.bounds, h.cfg_right]

theorem Twins.modeOk (h : Twins s0 s r) (a : Int) : r.modeOk a = s.modeOk a := by
  simp only [State.modeOk, h.cfg_right, h.mode_right]

theorem Twins.validId (h : Twins s0 s r) (i : Int) : s.validId i = s0.validId i := by
  simp only [State.validId, h.cfg]

theorem Twins.validId_right (h : Twins s0 s r) (i : Int) : r.validId i = s0.validId i := by
  simp only [State.validId, h.cfg_right, h.cfg]

/-- Where the mode admits an access in User mode, the cell is in sight (R65). -/
theorem Twins.in_sight (h : Twins s0 s r) {a : Int} (ha : s.Allowed a) :
    ¬ s0.Hidden a.toNat ∧ a.toNat ≠ Reg.ttb.addr := by
  have hle : (s0.cfg.userBase : Int) ≤ a := h.cfg ▸ ha h.mode
  have h7 := h.start.userBase
  exact ⟨s0.not_hidden_of_userBase_le hle, by simp only [Reg.addr_ttb]; omega⟩

/-- The word of a slot that the hardware touches is in sight, and is not `TTB` (R63, R343(d)). -/
theorem Twins.slot_in_sight (h : Twins s0 s r) {base : Word} {i : Int} (k : SlotWord)
    (hb : s.HoldsReg .ttb base) (hv : s0.validId i = true) :
    ¬ s0.Hidden (slotAddr s.cfg base i k).toNat ∧
      (slotAddr s.cfg base i k).toNat ≠ Reg.ttb.addr := by
  have hb0 : s0.HoldsReg .ttb base := h.ttb.symm.trans hb
  have h6 := h.start.table.lt_slotAddr k hb0 hv
  rw [h.cfg]
  exact ⟨s0.slot_not_hidden hb0 hv (by omega), by simp only [Reg.addr_ttb]; omega⟩

theorem Twins.number (h : Twins s0 s r) {a : Int} (ha : ¬ s0.Hidden a.toNat) :
    r.number a = s.number a := by
  simp only [State.number, h.sight _ ha]

theorem Twins.reg (h : Twins s0 s r) {k : Reg} (hk : k ≠ .lsr) : r.reg k = s.reg k :=
  h.number (by simpa using s0.reg_not_hidden hk)

theorem Twins.regOrNone (h : Twins s0 s r) {k : Reg} (hk : k ≠ .lsr) :
    r.regOrNone k = s.regOrNone k := by
  simp only [State.regOrNone, h.sight _ (s0.reg_not_hidden hk)]

/-- An operand read answers alike: the mode check stops it before a hidden cell (R65, R66). -/
theorem Twins.memRead (h : Twins s0 s r) (a : Int) : r.memRead a = s.memRead a := by
  simp only [State.memRead, h.bounds, h.modeOk]
  by_cases ha : s.Allowed a
  · rw [h.number (h.in_sight ha).1]
  · rw [s.modeOk_error a ha, error_bind, error_bind]

/-- A fetch answers alike: the mode check stops it before a hidden cell (R65, R72). -/
theorem Twins.fetch (h : Twins s0 s r) (a : Int) : r.fetch a = s.fetch a := by
  simp only [State.fetch, h.bounds, h.modeOk]
  by_cases ha : s.Allowed a
  · rw [h.sight _ (h.in_sight ha).1]
  · rw [s.modeOk_error a ha, error_bind, error_bind]

theorem Twins.readOperand (h : Twins s0 s r) (a : Word) : r.readOperand a = s.readOperand a :=
  h.memRead a.toInt

theorem Twins.readIndirect (h : Twins s0 s r) (a : Word) :
    r.readIndirect a = s.readIndirect a := by
  simp only [State.readIndirect, h.readOperand, h.memRead]

theorem Twins.slot (h : Twins s0 s r) (i : Int) (k : SlotWord) : r.slot i k = s.slot i k := by
  simp only [State.slot, h.reg (k := .ttb) (by decide), h.cfg_right]

theorem Twins.slotRead (h : Twins s0 s r) {i : Int} (k : SlotWord) (hv : s0.validId i = true) :
    r.slotRead i k = s.slotRead i k := by
  simp only [State.slotRead, h.slot]
  cases hs : s.slot i k with
  | error e => rfl
  | ok a =>
    obtain ⟨base, hb, rfl⟩ := (s.slot_ok i k a).1 hs
    simp only [ok_bind, State.tblRead, h.bounds, h.number (h.slot_in_sight k hb hv).1]

theorem Twins.currentThread (h : Twins s0 s r) : r.currentThread = s.currentThread := by
  simp only [State.currentThread, h.reg (k := .ctid) (by decide), h.validId, h.validId_right]

theorem Twins.currentThread_valid (h : Twins s0 s r) {i : Int} (hi : s.currentThread = .ok i) :
    s0.validId i = true := by
  obtain ⟨w, -, hv, rfl⟩ := (s.currentThread_ok i).1 hi
  rwa [← h.validId]

/-- The scan answers alike: it reads state words of slots only (R243). -/
theorem Twins.scanReady (h : Twins s0 s r) (cur : Int) (left j : Nat)
    (hl : left ≤ s.cfg.maxThreads) : scanReady r cur left j = scanReady s cur left j := by
  induction left generalizing j with
  | zero => rfl
  | succ left ih =>
    have hv : s.validId (scanId s.cfg.maxThreads cur j) = true :=
      (s.validId_iff _).2 (scanId_range _ cur j (by omega))
    simp only [Machine.scanReady, h.cfg_right, ih (j + 1) (by omega),
      h.slotRead .state ((h.validId _).symm.trans hv)]

theorem Twins.selectNextReady (h : Twins s0 s r) (cur : Int) :
    selectNextReady r cur = selectNextReady s cur := by
  simp only [Machine.selectNextReady, h.cfg_right, h.scanReady cur _ _ le_rfl]

/-! ### Twins stay twins: stores -/

/-- A store of one word to one cell in sight that is not `TTB`. -/
theorem Twins.poke (h : Twins s0 s r) {a : Nat} (w : Word)
    (ha : ¬ s0.Hidden a ∧ a ≠ Reg.ttb.addr) : Twins s0 (s.poke a w) (r.poke a w) where
  start := h.start
  cfg := h.cfg
  mode := h.mode
  ttb := by rw [State.cell_poke, if_neg ha.2]; exact h.ttb
  frame := by rw [h.frame]; rfl
  sight b hb := by simp only [State.cell_poke, h.sight b hb]
  keeps b hb := by
    have hab : a ≠ b := fun e => ha.1 (e ▸ hb)
    rw [State.cell_poke, if_neg hab]
    exact h.keeps b hb

/-- A store of a checked value to a cell in sight that is not `TTB`. -/
theorem Twins.inRange_poke (h : Twins s0 s r) (x v : Int) {a : Nat}
    (ha : ¬ s0.Hidden a ∧ a ≠ Reg.ttb.addr) :
    Matched (Twins s0) (inRange x v >>= fun w => .ok (s.poke a w))
      (inRange x v >>= fun w => .ok (r.poke a w)) :=
  .bind_eq rfl fun w _ => .ok (h.poke w ha)

/-- An operand write: the mode check stops it before a hidden cell (R65, R67). -/
theorem Twins.memWrite (h : Twins s0 s r) (a v : Int) :
    Matched (Twins s0) (s.memWrite a v) (r.memWrite a v) := by
  unfold State.memWrite
  exact .bind_eq (h.bounds a) fun _ _ => .bind_eq (h.modeOk a) fun u hu =>
    h.inRange_poke a v (h.in_sight ((s.modeOk_ok a u).1 hu))

theorem Twins.writeOperand (h : Twins s0 s r) (a : Word) (v : Int) :
    Matched (Twins s0) (s.writeOperand a v) (r.writeOperand a v) := h.memWrite a.toInt v

/-- The hardware writes control registers on its own account, but never `LSR` or `TTB` (R25, R63). -/
theorem Twins.setReg (h : Twins s0 s r) {k : Reg} (v : Int) (hk : k ≠ .lsr ∧ k ≠ .ttb) :
    Matched (Twins s0) (s.setReg k v) (r.setReg k v) :=
  h.inRange_poke k.addr v ⟨s0.reg_not_hidden hk.1, by cases k <;> simp at hk ⊢⟩

theorem Twins.tblWrite (h : Twins s0 s r) {base : Word} {i : Int} (k : SlotWord) (v : Int)
    (hb : s.HoldsReg .ttb base) (hv : s0.validId i = true) :
    Matched (Twins s0) (s.tblWrite (slotAddr s.cfg base i k) v)
      (r.tblWrite (slotAddr s.cfg base i k) v) := by
  unfold State.tblWrite
  exact .bind_eq (h.bounds _) fun _ _ => h.inRange_poke _ v (h.slot_in_sight k hb hv)

theorem Twins.slotWrite (h : Twins s0 s r) {i : Int} (k : SlotWord) (v : Int)
    (hv : s0.validId i = true) : Matched (Twins s0) (s.slotWrite i k v) (r.slotWrite i k v) := by
  unfold State.slotWrite
  refine .bind_eq (h.slot i k) fun a ha => ?_
  obtain ⟨base, hb, rfl⟩ := (s.slot_ok i k a).1 ha
  exact h.tblWrite k v hb hv

theorem Twins.slotSave (h : Twins s0 s r) {i : Int} (k : SlotWord) {g : Reg} (hg : g ≠ .lsr)
    (hv : s0.validId i = true) : Matched (Twins s0) (s.slotSave i k g) (r.slotSave i k g) := by
  unfold State.slotSave
  refine .bind_eq (h.slot i k) fun a ha => .bind_eq (h.reg hg) fun w _ => ?_
  obtain ⟨base, hb, rfl⟩ := (s.slot_ok i k a).1 ha
  exact h.tblWrite k w.toInt hb hv

theorem Twins.slotLoad (h : Twins s0 s r) {i : Int} (k : SlotWord) {g : Reg}
    (hg : g ≠ .lsr ∧ g ≠ .ttb) (hv : s0.validId i = true) :
    Matched (Twins s0) (s.slotLoad i k g) (r.slotLoad i k g) :=
  .bind_eq (h.slotRead k hv) fun w _ => h.setReg w.toInt hg

/-! ### Twins stay twins: the other updates of the state -/

theorem Twins.halt (h : Twins s0 s r) (c : HaltCause) : Twins s0 (s.halt c) (r.halt c) :=
  { h with frame := by rw [h.frame]; rfl }

theorem Twins.emit (h : Twins s0 s r) (w : Word) : Twins s0 (s.emit w) (r.emit w) :=
  { h with frame := by rw [h.frame]; rfl }

theorem Twins.stall (h : Twins s0 s r) : Twins s0 s.stall r.stall :=
  { h with frame := by rw [h.frame]; rfl }

theorem Twins.enterUser (h : Twins s0 s r) : Twins s0 s.enterUser r.enterUser :=
  { h with mode := rfl, frame := by rw [h.frame]; rfl }

theorem Twins.countTick (h : Twins s0 s r) : Twins s0 s.countTick r.countTick :=
  { h with frame := by rw [h.frame]; rfl }

theorem Twins.watched (h : Twins s0 s r) (p : Word) :
    Twins s0 (s.watched p) (r.watched p) :=
  { h with frame := by rw [h.frame]; rfl }

theorem Twins.clearRepeat (h : Twins s0 s r) : Twins s0 s.clearRepeat r.clearRepeat :=
  { h with frame := by rw [h.frame]; rfl }

theorem Twins.unblockOne (h : Twins s0 s r) : Twins s0 s.unblockOne r.unblockOne :=
  { h with frame := by rw [h.frame]; rfl }

/-- Twins that take the same fault get the same record: `PC` and `CTID` are in sight (R300). -/
theorem Twins.takeFault (h : Twins s0 s r) (o : Option Opcode) (e : Raise) :
    Twins s0 (s.takeFault o e) (r.takeFault o e) := by
  have hrec : r.faultRecord o e = s.faultRecord o e := by
    simp only [State.faultRecord, h.regOrNone (k := .pc) (by decide),
      h.regOrNone (k := .ctid) (by decide)]
  exact { h with frame := by rw [State.takeFault, hrec, h.frame]; rfl }

/-! ### Step 6 and the stack -/

theorem Twins.autoAdvance (h : Twins s0 s r) :
    Matched (Twins s0) s.autoAdvance r.autoAdvance := by
  unfold State.autoAdvance
  exact .bind_eq (h.reg (by decide)) fun p _ => (h.setReg _ (by decide)).bind fun s1 r1 h1 =>
    .bind_eq (h1.reg (by decide)) fun n _ => h1.setReg _ (by decide)

theorem Twins.push (h : Twins s0 s r) {v v' : Result Int} (hv : v' = v) :
    Matched (Twins s0) (s.push v) (r.push v') := by
  unfold State.push
  exact .bind_eq (h.reg (by decide)) fun p _ => .bind_eq hv fun x _ =>
    (h.memWrite _ x).bind fun s1 r1 h1 =>
    .bind_eq (h1.reg (by decide)) fun q _ => h1.setReg _ (by decide)

/-- A pop takes the same word from both (R190). -/
theorem Twins.pop (h : Twins s0 s r) :
    Matched (fun x y => x.1 = y.1 ∧ Twins s0 x.2 y.2) s.pop r.pop := by
  unfold State.pop
  exact .bind_eq (h.reg (by decide)) fun p _ => (h.setReg _ (by decide)).bind fun s1 r1 h1 =>
    .bind_eq (h1.reg (by decide)) fun q _ => .bind_eq (h1.memRead _) fun w _ => .ok ⟨rfl, h1⟩

theorem Twins.returnAddress (h : Twins s0 s r) : r.returnAddress = s.returnAddress := by
  simp only [State.returnAddress, h.reg (k := .pc) (by decide)]

/-! ### The scheduler -/

theorem Twins.persistContext (h : Twins s0 s r) :
    Matched (Twins s0) (persistContext s) (persistContext r) := by
  unfold Machine.persistContext
  rw [h.cfg_right]
  refine .bind_eq h.currentThread fun i hi => .bind_eq (h.reg (by decide)) fun base hb =>
    .bind_eq (h.reg (by decide)) fun p _ => ?_
  have hv := h.currentThread_valid hi
  have hb := (s.reg_ok .ttb base).1 hb
  refine (h.tblWrite .savedPc _ hb hv).bind fun s1 r1 h1 =>
    .bind_eq (h1.reg (by decide)) fun q _ => ?_
  rw [h.cfg, ← h1.cfg]
  exact h1.tblWrite .savedSp _ (h1.ttb.trans (h.ttb.symm.trans hb)) hv

theorem Twins.saveOutgoing (h : Twins s0 s r) (c : Int) :
    Matched (Twins s0) (saveOutgoing s c) (saveOutgoing r c) := by
  unfold Machine.saveOutgoing
  rw [h.validId, h.validId_right]
  split
  · next hv =>
    refine .bind_eq (h.slotRead .state hv) fun w _ => ?_
    split
    · exact (h.slotSave .savedPc (by decide) hv).bind fun s1 r1 h1 =>
        (h1.slotSave .savedSp (by decide) hv).bind fun s2 r2 h2 => h2.slotWrite .state _ hv
    · exact .ok h
  · exact .ok h

theorem Twins.loadIncoming (h : Twins s0 s r) (n : Int) :
    Matched (Twins s0) (loadIncoming s n) (loadIncoming r n) := by
  unfold Machine.loadIncoming
  rw [h.validId, h.validId_right]
  split
  · next hv =>
    exact (h.slotLoad .savedPc (by decide) hv).bind fun s1 r1 h1 =>
      (h1.slotLoad .savedSp (by decide) hv).bind fun s2 r2 h2 => h2.slotWrite .state _ hv
  · exact .ok (h.halt _)

theorem Twins.switchTo (h : Twins s0 s r) (n : Int) :
    Matched (Twins s0) (switchTo s n) (switchTo r n) := by
  unfold Machine.switchTo
  exact .bind_eq (h.reg (by decide)) fun c _ => (h.saveOutgoing _).bind fun s1 r1 h1 =>
    (h1.setReg n (by decide)).bind fun s2 r2 h2 => h2.loadIncoming n

theorem Twins.succeed (h : Twins s0 s r) (c : Int) :
    Matched (Twins s0) (succeed s c) (succeed r c) := by
  unfold Machine.succeed
  refine .bind_eq (h.reg (by decide)) fun n _ => ?_
  split
  · exact .ok (h.halt _)
  · exact .bind_eq (h.selectNextReady c) fun i _ => h.switchTo i

theorem Twins.terminateCurrent (h : Twins s0 s r) :
    Matched (Twins s0) (terminateCurrent s) (terminateCurrent r) := by
  unfold Machine.terminateCurrent
  exact .bind_eq h.currentThread fun c hc =>
    (h.slotWrite .state _ (h.currentThread_valid hc)).bind fun s1 r1 h1 =>
    .bind_eq (h1.reg (by decide)) fun n _ => (h1.setReg _ (by decide)).bind fun s2 r2 h2 =>
    h2.succeed c

theorem Twins.evictCurrent (h : Twins s0 s r) :
    Matched (Twins s0) (evictCurrent s) (evictCurrent r) := by
  unfold Machine.evictCurrent
  exact h.terminateCurrent.bind fun s1 r1 h1 => .ok h1.clearRepeat

theorem Twins.blockedTick (h : Twins s0 s r) :
    Matched (Twins s0) (blockedTick s) (blockedTick r) := by
  unfold Machine.blockedTick
  exact .bind_eq (h.unblockOne.reg (by decide)) fun n _ => h.unblockOne.setReg _ (by decide)

/-! ### Instructions -/

/-- The end of a tick: commit on both, or the same fault on both (R153). -/
theorem Twins.settle (h : Twins s0 s r) (o : Option Opcode) {x y : Result State}
    (hm : Matched (Twins s0) x y) : Twins s0 (settle o s x) (settle o r y) := by
  cases hm with
  | ok ht => exact ht
  | error e => exact h.takeFault o e

/-- Both outcomes are next states, and these are twins. -/
def TwinOutcomes (s0 : State) (x y : Host.Outcome State Fault Refusal) : Prop :=
  ∃ t u, x = .next t ∧ y = .next u ∧ Twins s0 t u

theorem Twins.commit (h : Twins s0 s r) (o : Option Opcode) {x y : Result State}
    (hm : Matched (Twins s0) x y) : TwinOutcomes s0 (commit o s x) (commit o r y) :=
  ⟨_, _, rfl, rfl, h.settle o hm⟩

/-- A store to a destination operand, and step 6: the end of the auto-increment class (R149, R150). -/
theorem Twins.storeAndAdvance (h : Twins s0 s r) (a : Word) (v : Int) :
    Matched (Twins s0) (s.writeOperand a v >>= State.autoAdvance)
      (r.writeOperand a v >>= State.autoAdvance) :=
  (h.writeOperand a v).bind fun _ _ h1 => h1.autoAdvance

/-- Persisting the context, and a jump: the end of JIF and CALL (R200, R201). -/
theorem Twins.persistAndJump (h : Twins s0 s r) (v : Int) :
    Matched (Twins s0) (Machine.persistContext s >>= fun s1 => s1.setReg .pc v)
      (Machine.persistContext r >>= fun r1 => r1.setReg .pc v) :=
  h.persistContext.bind fun _ _ h1 => h1.setReg v (by decide)

/-- USER's operand is checked as in User mode, which is the twins' own (R216). -/
theorem Twins.readAsUser (h : Twins s0 s r) (a : Word) : r.readAsUser a = s.readAsUser a := by
  have hmode : ∀ t : State, t.mode = .user → t.readAsUser a = t.memRead a.toInt := by
    intro t ht
    simp only [State.readAsUser, State.memRead, State.modeOk, State.enterUser_mode,
      State.enterUser_cfg, ht]
  rw [hmode s h.mode, hmode r (h.mode_right.trans h.mode), h.memRead]

/-- Every instruction takes twins to twins (R148). -/
theorem Twins.exec (h : Twins s0 s r) (i : Instr) :
    TwinOutcomes s0 (exec i s) (exec i r) := by
  cases i with
  | blank => exact h.commit _ h.terminateCurrent
  | hlt => exact h.commit _ h.terminateCurrent
  | syscallHlt => exact h.commit _ h.terminateCurrent
  | set v a => exact h.commit _ (h.storeAndAdvance a _)
  | cpy a b => exact h.commit _ (.bind_eq (h.readOperand a) fun w _ => h.storeAndAdvance b _)
  | cpyi a b => exact h.commit _ (.bind_eq (h.readIndirect a) fun w _ => h.storeAndAdvance b _)
  | add a v => exact h.commit _ (.bind_eq (h.readOperand a) fun w _ => h.storeAndAdvance a _)
  | addi a b =>
    exact h.commit _ (.bind_eq (h.readOperand a) fun w _ => .bind_eq (h.readOperand b) fun w' _ =>
      h.storeAndAdvance a _)
  | subi a b =>
    exact h.commit _ (.bind_eq (h.readOperand a) fun w _ => .bind_eq (h.readOperand b) fun w' _ =>
      h.storeAndAdvance b _)
  | jif a t =>
    refine h.commit _ (.bind_eq (h.readOperand a) fun w _ => ?_)
    split
    · exact h.persistAndJump _
    · exact h.autoAdvance
  | push a =>
    exact h.commit _ (.bind_eq (h.readOperand a) fun w _ =>
      (h.push rfl).bind fun s1 r1 h1 => h1.autoAdvance)
  | pop a =>
    refine h.commit _ (h.pop.bind ?_)
    rintro ⟨w, s1⟩ ⟨_, r1⟩ ⟨rfl, h1⟩
    exact h1.storeAndAdvance a _
  | call t => exact h.commit _ ((h.push h.returnAddress).bind fun s1 r1 h1 => h1.persistAndJump _)
  | ret =>
    refine h.commit _ (h.persistContext.bind fun s1 r1 h1 => h1.pop.bind ?_)
    rintro ⟨w, s2⟩ ⟨_, r2⟩ ⟨rfl, h2⟩
    exact h2.setReg _ (by decide)
  | user a =>
    exact h.commit _ (.bind_eq (h.readAsUser a) fun w _ => h.enterUser.persistAndJump _)
  | syscallPrn a =>
    exact h.commit _ (.bind_eq (h.readOperand a) fun w _ =>
      .bind_eq ((h.emit w).reg (by decide)) fun p _ =>
      ((h.emit w).setReg _ (by decide)).bind fun s2 r2 h2 => .ok h2.stall)
  | syscallYield =>
    exact h.commit _ (.bind_eq (h.reg (by decide)) fun p _ =>
      (h.setReg _ (by decide)).bind fun s1 r1 h1 => h1.persistContext.bind fun s2 r2 h2 =>
      .bind_eq (h2.reg (by decide)) fun c _ => .bind_eq (h2.selectNextReady _) fun n _ =>
      h2.switchTo n)
  | malformed => exact h.commit _ (.bind_eq (h.reg (by decide)) fun p _ => .error _)

/-! ### A whole tick -/

/-- The tick has come to the same on both machines, in states related by `R`. -/
inductive PlansMatch (R : State → State → Prop) : Plan → Plan → Prop
  | idle : PlansMatch R .idle .idle
  | hardCap : PlansMatch R .hardCap .hardCap
  | raised {s r : State} (o : Option Opcode) (e : Raise) (h : R s r) :
      PlansMatch R (.raised s o e) (.raised r o e)
  | evict {s r : State} (h : R s r) : PlansMatch R (.evict s) (.evict r)
  | blocked {s r : State} (h : R s r) : PlansMatch R (.blocked s) (.blocked r)
  | fetchFailed {s r : State} (h : R s r) : PlansMatch R (.fetchFailed s) (.fetchFailed r)
  | run {s r : State} (i : Instr) (h : R s r) : PlansMatch R (.run i s) (.run i r)

theorem Twins.planCell (h : Twins s0 s r) (p : Word) (c : Cell) :
    PlansMatch (Twins s0) (planCell p c s) (planCell p c r) := by
  unfold Machine.planCell
  split
  · exact .run _ h
  · exact .fetchFailed h
  · exact .raised _ _ h
  · exact .raised _ _ h

theorem Twins.planAt (h : Twins s0 s r) (p : Word) :
    PlansMatch (Twins s0) (planAt p s) (planAt p r) := by
  have hrep : r.wdRepeat = s.wdRepeat := by rw [h.frame]
  have hblock : r.block = s.block := by rw [h.frame]
  simp only [Machine.planAt, h.cfg_right, hrep, hblock, h.fetch]
  split
  · exact .evict h
  · split
    · exact .blocked h
    · cases s.fetch p.toInt with
      | error e => exact .raised none e h
      | ok c => exact h.planCell p c

theorem Twins.plan (h : Twins s0 s r) : PlansMatch (Twins s0) (plan s) (plan r) := by
  have hhalted : r.halted = s.halted := by rw [h.frame]
  have hticks : r.wdTicks = s.wdTicks := by rw [h.frame]
  have hpc : r.cell 0 = s.cell 0 := h.sight _ (s0.reg_not_hidden (k := .pc) (by decide))
  cases hh : s.halted with
  | true =>
    rw [plan_of_halted s hh, plan_of_halted r (hhalted.trans hh)]
    exact .idle
  | false =>
    by_cases hcap : s.cfg.hardCap < s.wdTicks + 1
    · rw [plan_of_hardCap s hh hcap,
        plan_of_hardCap r (hhalted.trans hh) (by rwa [h.cfg_right, hticks])]
      exact .hardCap
    · have hs : s.wdTicks + 1 ≤ s.cfg.hardCap := not_lt.1 hcap
      have hr : r.wdTicks + 1 ≤ r.cfg.hardCap := by rwa [h.cfg_right, hticks]
      cases hp : s.cell 0 with
      | ins o x y =>
        rw [plan_of_codePc s hh hs hp, plan_of_codePc r (hhalted.trans hh) hr (hpc.trans hp)]
        exact .raised _ _ h.countTick
      | num p =>
        rw [plan_of_pc s p hh hs hp, plan_of_pc r p (hhalted.trans hh) hr (hpc.trans hp)]
        exact (h.watched p).planAt p

/-- A tick takes twins to twins (R154). -/
theorem Twins.step (h : Twins s0 s r) : TwinOutcomes s0 (step s) (step r) := by
  have hp := h.plan
  unfold Machine.step
  generalize Machine.plan s = ps at hp
  generalize Machine.plan r = pr at hp
  cases hp with
  | idle => exact ⟨_, _, rfl, rfl, h⟩
  | hardCap => exact ⟨_, _, rfl, rfl, h.countTick.halt _⟩
  | raised o e hb => exact ⟨_, _, rfl, rfl, hb.takeFault o e⟩
  | evict hb => exact ⟨_, _, rfl, rfl, hb.settle none hb.evictCurrent⟩
  | blocked hb => exact ⟨_, _, rfl, rfl, hb.settle none hb.blockedTick⟩
  | fetchFailed hb => exact ⟨_, _, rfl, rfl, hb.settle none hb.terminateCurrent⟩
  | run i hb => exact hb.exec i

theorem Twins.of_step {t u : State} (h : Twins s0 s r) (hs : Machine.step s = .next t)
    (hr : Machine.step r = .next u) : Twins s0 t u := by
  obtain ⟨t', u', ht, hu, htwin⟩ := h.step
  rw [hs] at ht
  rw [hr] at hu
  cases ht
  cases hu
  exact htwin

end twins

/-! ### The statements -/

/-- Settles O24: a machine is its own twin, and a twin keeps its hidden cells. -/
theorem userModeConfinesStores : Obligations.UserModeConfinesStores := by
  intro s t hmode hbase htable hstep a ha
  have htwin : Twins s s s :=
    State.SameInSight.twins ⟨hmode, hbase, htable⟩ ⟨rfl, fun _ _ => rfl⟩
  exact (htwin.of_step hstep hstep).keeps a ha

/-- Settles O25: two machines that differ only in hidden cells are twins, and a tick keeps them so. -/
theorem userModeReadsNothingHidden : Obligations.UserModeReadsNothingHidden := by
  intro s1 s2 t1 t2 hmode hbase htable hsame hstep1 hstep2
  have htwin : Twins s1 t1 t2 :=
    (hsame.twins ⟨hmode, hbase, htable⟩).of_step hstep1 hstep2
  exact ⟨htwin.frame, htwin.sight⟩

end Sys2Proof.Machine
end

section
/-! PROOFS. The invariant of the state (O21), from what a tick can do (`step_effect`). -/

namespace Sys2Proof.Machine

/-- What the invariant says of a machine in the middle of a tick, after step 1 and before it may halt. The
repeat count is at most `n` beyond its cap: 1 after step 1, and 0 once the tick has turned out to be an
eviction, which clears the count, or not to need one (R272, R273). -/
structure State.Ticking (n : Nat) (s : State) : Prop where
  params : s.cfg.Valid
  wf : s.mem.wf = true
  within : s.mem.within s.cfg.memCapacity = true
  block : s.block ≤ s.cfg.blockTicks
  wdTicks : s.wdTicks ≤ s.cfg.hardCap
  wdRepeat : s.wdRepeat ≤ s.cfg.softCap + n
  running : s.halted = false
  haltCause : s.haltCause = none
  fault : s.fault = none

/-- A halt cause of a normal halt (R302). -/
def HaltCause.Normal (c : HaltCause) : Prop := ∀ f, c ≠ .fault f

/-- A machine that runs has neither halt cause nor record (R42, R299). -/
theorem State.RecordsAgree.of_running {s : State} (h : s.RecordsAgree) (hh : s.halted = false) :
    s.haltCause = none ∧ s.fault = none := by
  unfold State.RecordsAgree at h
  rw [hh] at h
  match hc : s.haltCause, hf : s.fault with
  | none, none => exact ⟨rfl, rfl⟩
  | none, some _ => rw [hc, hf] at h; exact h.elim
  | some _, _ => rw [hc] at h; exact h.elim

/-- The records of a normal halt agree where no fault was recorded (R301). -/
theorem State.RecordsAgree.of_normal {s : State} {c : HaltCause} (hn : c.Normal)
    (hh : s.halted = true) (hc : s.haltCause = some c) (hf : s.fault = none) : s.RecordsAgree := by
  unfold State.RecordsAgree
  rw [hh, hc, hf]
  cases c with
  | fault f => exact absurd rfl (hn f)
  | allThreadsDone => trivial
  | noReadyThread => trivial
  | watchdogHardCap => trivial

section ticking
variable {n : Nat} {s t : State}

/-! ### What keeps a machine ticking -/

/-- Step 1 below the hard cap, from the invariant (R271, R272). -/
theorem State.Inv.ticking {b : State} (h : s.Inv) (hh : s.halted = false)
    (hcap : s.wdTicks + 1 ≤ s.cfg.hardCap) (hb : Counted s b) : b.Ticking 1 := by
  obtain ⟨hv, hwf, hin, hblock, -, -, hlive, hrec⟩ := h
  obtain ⟨hcause, hfault⟩ := hrec.of_running hh
  have hrep : s.wdRepeat ≤ s.cfg.softCap := (hlive hh).2
  rcases hb with rfl | ⟨p, rfl⟩
  · exact ⟨hv, hwf, hin, hblock, hcap, hrep.trans (Nat.le_succ _), hh, hcause, hfault⟩
  · refine ⟨hv, hwf, hin, hblock, hcap, ?_, hh, hcause, hfault⟩
    rw [State.watched_wdRepeat, State.watched_cfg]
    split <;> omega

/-- Stores inside the memory. -/
theorem State.Ticking.stores (h : s.Ticking n) (hs : Stores (· < s.cfg.memCapacity) s t) :
    t.Ticking n where
  params := by rw [hs.cfg]; exact h.params
  wf := hs.wf h.wf
  within := by rw [hs.cfg]; exact hs.within _ (fun _ ha => ha) h.within
  block := by rw [hs.block, hs.cfg]; exact h.block
  wdTicks := by rw [hs.wdTicks, hs.cfg]; exact h.wdTicks
  wdRepeat := by rw [hs.wdRepeat, hs.cfg]; exact h.wdRepeat
  running := hs.halted.trans h.running
  haltCause := hs.haltCause.trans h.haltCause
  fault := hs.fault.trans h.fault

/-- A tick of the stall (R144). -/
theorem State.Ticking.unblockOne (h : s.Ticking n) : s.unblockOne.Ticking n :=
  { h with block := (Nat.sub_le _ _).trans h.block }

/-- The start of an instruction's stores (USER's mode, the output and the stall of SYSCALL PRN). -/
theorem State.Ticking.startsFrom {i : Instr} (h : s.Ticking n) (hs : StartsFrom i s t) :
    t.Ticking n := by
  rcases hs with rfl | ⟨-, -, rfl⟩ | ⟨-, w, -, -, rfl⟩
  · exact h
  · exact { h with }
  · exact { h with block := le_rfl }

/-- A tick that needs no eviction (R273). -/
theorem State.Ticking.withinCap (h : s.Ticking n) (hr : s.wdRepeat ≤ s.cfg.softCap) : s.Ticking 0 :=
  { h with wdRepeat := hr }

/-- The end of an eviction (R273). -/
theorem State.Ticking.clearRepeat (h : s.Ticking n) : s.clearRepeat.Ticking 0 :=
  { h with wdRepeat := Nat.zero_le _ }

/-! ### How a tick ends -/

/-- A fault (R291). -/
theorem State.Ticking.takeFault_inv (h : s.Ticking 1) (o : Option Opcode) (e : Raise) :
    (s.takeFault o e).Inv :=
  ⟨h.params, h.wf, h.within, h.block, h.wdTicks.trans (Nat.le_succ _), h.wdRepeat,
    fun hh => absurd hh (by simp), rfl⟩

/-- A tick after which the machine runs on. -/
theorem State.Ticking.inv (h : s.Ticking 0) : s.Inv := by
  refine ⟨h.params, h.wf, h.within, h.block, h.wdTicks.trans (Nat.le_succ _),
    h.wdRepeat.trans (Nat.le_succ _), fun _ => ⟨h.wdTicks, h.wdRepeat⟩, ?_⟩
  rw [State.RecordsAgree, h.running, h.haltCause, h.fault]
  trivial

/-- A normal halt (R301). -/
theorem State.Ticking.halt_inv (h : s.Ticking 0) {c : HaltCause} (hc : c.Normal) : (s.halt c).Inv :=
  ⟨h.params, h.wf, h.within, h.block, h.wdTicks.trans (Nat.le_succ _),
    h.wdRepeat.trans (Nat.le_succ _), fun hh => absurd hh (by simp), .of_normal hc rfl rfl h.fault⟩

/-- The end of a tick that raises no fault: the machine runs on, or halts for one of the two reasons of
the scheduler (R302). -/
theorem State.Ticking.inv_of_end (h : s.Ticking 0)
    (hend : t = s ∨ t = s.halt .allThreadsDone ∨ t = s.halt .noReadyThread) : t.Inv := by
  rcases hend with rfl | rfl | rfl
  · exact h.inv
  · exact h.halt_inv fun _ => by simp
  · exact h.halt_inv fun _ => by simp

/-- The hard cap (R271). -/
theorem State.Inv.hardCap_inv (h : s.Inv) (hh : s.halted = false) :
    (s.countTick.halt .watchdogHardCap).Inv := by
  obtain ⟨hv, hwf, hin, hblock, -, hrep, hlive, hrec⟩ := h
  exact ⟨hv, hwf, hin, hblock, Nat.succ_le_succ (hlive hh).1, hrep, fun hh' => absurd hh' (by simp),
    .of_normal (fun _ => by simp) rfl rfl (hrec.of_running hh).2⟩

end ticking

/-- Settles O21: a tick that does not halt keeps a machine ticking, and however it ends the invariant
holds. -/
theorem stepKeepsTheInvariant : Obligations.StepKeepsTheInvariant := by
  intro s t hinv hstep
  cases hh : s.halted with
  | true =>
    rw [step_of_plan (plan_of_halted s hh) (by simp)] at hstep
    cases hstep
    exact hinv
  | false =>
    rcases step_effect s t (covers_lt s.cfg hinv.1) hh hstep with ⟨rfl, -⟩ | ⟨hcap, b, hb, hrest⟩
    · exact hinv.hardCap_inv hh
    have hbt : b.Ticking 1 := hinv.ticking hh hcap hb
    have hcfg : b.cfg = s.cfg := by rcases hb with rfl | ⟨p, rfl⟩ <;> rfl
    rw [← hcfg] at hrest
    rcases hrest with ⟨o, e, rfl⟩ | ⟨u, hu, hend⟩ | ⟨hrep, hrest⟩
    · exact hbt.takeFault_inv o e
    · exact (hbt.stores hu).clearRepeat.inv_of_end hend
    · have hb0 : b.Ticking 0 := hbt.withinCap hrep
      rcases hrest with ⟨u, -, hu, rfl⟩ | ⟨u, hu, hend⟩ | ⟨i, c, u, -, hc, hu, hend⟩
      · exact (hb0.unblockOne.stores hu).inv
      · exact (hb0.stores hu).inv_of_end hend
      · have hccfg : c.cfg = b.cfg := by
          rcases hc with rfl | ⟨-, -, rfl⟩ | ⟨-, w, -, -, rfl⟩ <;> rfl
        rw [← hccfg] at hu
        exact ((hb0.startsFrom hc).stores hu).inv_of_end (hend.imp_right And.right)

end Sys2Proof.Machine
end

section
/-! PROOFS. What the scheduler's context save stores (O31), and what makes the output grow (O26). -/

namespace Sys2Proof.Machine

/-! ### The output stream -/

theorem Counted.out {s b : State} (h : Counted s b) : b.out = s.out := by
  rcases h with rfl | ⟨p, rfl⟩ <;> rfl

/-- An instruction's stores start with the output as it was, or are those of a SYSCALL PRN, with the word
it reads appended (R217). -/
theorem StartsFrom.out_cases {i : Instr} {s b : State} (h : StartsFrom i s b) :
    b.out = s.out ∨
      ∃ a w, i = .syscallPrn a ∧ s.Readable a.toInt w ∧ b.out = s.out ++ [w] := by
  rcases h with rfl | ⟨-, -, rfl⟩ | ⟨a, w, hi, hw, rfl⟩
  · exact .inl rfl
  · exact .inl rfl
  · exact .inr ⟨a, w, hi, hw, rfl⟩

/-- Halting or not, a tick ends with the output its stores ended with. -/
theorem out_of_end {t u : State}
    (h : t = u ∨ t = u.halt .allThreadsDone ∨ t = u.halt .noReadyThread) : t.out = u.out := by
  rcases h with rfl | rfl | rfl <;> rfl

/-- Settles O26: of all a tick can do, only the start of a SYSCALL PRN touches the output. -/
theorem outputOnlyBySyscallPrn : Obligations.OutputOnlyBySyscallPrn := by
  intro s t hstep
  cases hh : s.halted with
  | true =>
    rw [step_of_plan (plan_of_halted s hh) (by simp)] at hstep
    cases hstep
    exact .inl rfl
  | false =>
    have hall : Covers (fun _ => True) s.cfg := ⟨fun _ => trivial, fun _ _ _ => trivial⟩
    rcases step_effect s t hall hh hstep with ⟨rfl, -⟩ | ⟨-, b, hb, hrest⟩
    · exact .inl rfl
    rcases hrest with ⟨o, e, rfl⟩ | ⟨u, hu, hend⟩ | ⟨-, hrest⟩
    · exact .inl hb.out
    · have hend' : t.out = u.clearRepeat.out := out_of_end hend
      exact .inl (hend'.trans (hu.out.trans hb.out))
    rcases hrest with ⟨u, -, hu, rfl⟩ | ⟨u, hu, hend⟩ | ⟨i, c, u, hrun, hc, hu, hend⟩
    · exact .inl (hu.out.trans hb.out)
    · exact .inl ((out_of_end hend).trans (hu.out.trans hb.out))
    · have htc : t.out = c.out := (out_of_end (hend.imp_right And.right)).trans hu.out
      rcases hc.out_cases with hsame | ⟨a, w, rfl, hread, hout⟩
      · exact .inl (htc.trans (hsame.trans hb.out))
      · obtain ⟨p, cell, hfetch, hdec, rfl⟩ := plan_run_inv s b _ hrun
        exact .inr ⟨p, a, w, cell, hfetch, hdec, hread, htc.trans hout⟩

/-! ### Persisting the context -/

/-- The address of a slot word, for `TTB` at `base` (R240). -/
theorem State.slot_eq (s : State) {base : Word} (hb : s.HoldsReg .ttb base) (i : Int)
    (k : SlotWord) : s.slot i k = .ok (slotAddr s.cfg base i k) :=
  (s.slot_ok i k _).2 ⟨base, hb, rfl⟩

/-- Where the context can be persisted, persisting it makes the two stores (R242). -/
theorem State.CanPersist.persistContext {s : State} {i base p q : Word}
    (h : s.CanPersist i base p q) : persistContext s = .ok (s.persisted i base p q) := by
  obtain ⟨hi, hv, hb, hp, hpc, hq, hsp⟩ := h
  exact (persistContext_ok s _).2 ⟨i, base, p, q, hi, hv, hb, hp, hpc, hq, hsp, rfl⟩

/-- The saved SP lies right after the saved PC (R35). -/
theorem slotAddr_savedSp (cfg : Params) (base : Word) (i : Int) :
    slotAddr cfg base i .savedSp = slotAddr cfg base i .savedPc + 1 := by
  simp only [slotAddr, SlotWord.offset]
  omega

section persisted
variable {s : State} {i base p q : Word}

theorem State.CanPersist.holds_savedPc (h : s.CanPersist i base p q) :
    (s.persisted i base p q).Holds (slotAddr s.cfg base i.toInt .savedPc) p := by
  obtain ⟨-, -, -, -, ⟨h0, -⟩, -, -⟩ := h
  have hne : (slotAddr s.cfg base i.toInt .savedSp).toNat ≠
      (slotAddr s.cfg base i.toInt .savedPc).toNat := by
    rw [slotAddr_savedSp]
    omega
  rw [State.Holds, State.persisted, State.cell_poke, if_neg hne, State.cell_poke, if_pos rfl]

theorem State.persisted_holds_savedSp (s : State) (i base p q : Word) :
    (s.persisted i base p q).Holds (slotAddr s.cfg base i.toInt .savedSp) q := by
  rw [State.Holds, State.persisted, State.cell_poke, if_pos rfl]

theorem State.CanPersist.cell_other (h : s.CanPersist i base p q) {a : Nat}
    (hpc : (a : Int) ≠ slotAddr s.cfg base i.toInt .savedPc)
    (hsp : (a : Int) ≠ slotAddr s.cfg base i.toInt .savedSp) :
    (s.persisted i base p q).cell a = s.cell a := by
  obtain ⟨-, -, -, -, ⟨h0, -⟩, -, ⟨h0', -⟩⟩ := h
  rw [State.persisted, State.cell_poke, if_neg (by omega), State.cell_poke, if_neg (by omega)]

end persisted

/-- Settles O31: the model's slot addresses are those of R240, and persisting the context is its two
stores or the fault of its first failing check. -/
theorem persistStoresPcAndSp : Obligations.PersistStoresPcAndSp := by
  refine ⟨?addresses, ?stores, ?invalidId, ?unmapped⟩
  case addresses =>
    intro s base i hb
    exact ⟨s.slot_eq hb i .state, s.slot_eq hb i .savedPc, s.slot_eq hb i .savedSp, s.slot_eq hb i⟩
  case stores =>
    intro s i base p q h
    exact ⟨s.persisted i base p q, h.persistContext, rfl, h.holds_savedPc,
      s.persisted_holds_savedSp i base p q, fun a hpc hsp => h.cell_other hpc hsp⟩
  case invalidId =>
    intro s i hi hout
    refine persistContext_invalid s hi (Bool.eq_false_iff.2 fun hv => ?_)
    obtain ⟨h1, h2⟩ := (s.validId_iff i.toInt).1 hv
    omega
  case unmapped =>
    intro s i base p hi hv hb hp
    exact ⟨persistContext_savedPc_unmapped s hi hv hb hp,
      fun q hm hq hm' => persistContext_savedSp_unmapped s hi hv hb hp hm hq hm'⟩

end Sys2Proof.Machine
end

section
/-! PROOFS. What a tick does to memory: stores of numbers only (O23). -/

namespace Sys2Proof.Machine

/-! ### A tick's memory comes from its stores -/

theorem Counted.mem {s b : State} (h : Counted s b) : b.mem = s.mem := by
  rcases h with rfl | ⟨p, rfl⟩ <;> rfl

theorem StartsFrom.mem {i : Instr} {s b : State} (h : StartsFrom i s b) : b.mem = s.mem := by
  rcases h with rfl | ⟨-, -, rfl⟩ | ⟨-, w, -, -, rfl⟩ <;> rfl

/-- Halting or not, a tick ends with the memory its stores ended with. -/
theorem mem_of_end {t u : State}
    (h : t = u ∨ t = u.halt .allThreadsDone ∨ t = u.halt .noReadyThread) : t.mem = u.mem := by
  rcases h with rfl | rfl | rfl <;> rfl

/-- Whatever a tick comes to, the memory after it is the memory before it after a sequence of stores (R74,
R153): an empty one where the tick is idle, halts at the hard cap or takes a fault. -/
theorem step_mem_stores {A : Nat → Prop} {s t : State} (hA : Covers A s.cfg)
    (hstep : step s = .next t) : ∃ c u, Stores A c u ∧ c.mem = s.mem ∧ t.mem = u.mem := by
  cases hh : s.halted with
  | true =>
    rw [step_of_plan (plan_of_halted s hh) (by simp)] at hstep
    cases hstep
    exact ⟨s, s, Stores.refl A s, rfl, rfl⟩
  | false =>
    rcases step_effect s t hA hh hstep with ⟨rfl, -⟩ | ⟨-, b, hb, hrest⟩
    · exact ⟨s, s, Stores.refl A s, rfl, rfl⟩
    rcases hrest with ⟨o, e, rfl⟩ | ⟨u, hu, hend⟩ | ⟨-, hrest⟩
    · exact ⟨b, b, Stores.refl A b, hb.mem, rfl⟩
    · have hend' : t.mem = u.clearRepeat.mem := mem_of_end hend
      exact ⟨b, u, hu, hb.mem, hend'⟩
    rcases hrest with ⟨u, -, hu, rfl⟩ | ⟨u, hu, hend⟩ | ⟨i, c, u, -, hc, hu, hend⟩
    · exact ⟨b.unblockOne, t, hu, hb.mem, rfl⟩
    · exact ⟨b, u, hu, hb.mem, mem_of_end hend⟩
    · exact ⟨c, u, hu, hc.mem.trans hb.mem, mem_of_end (hend.imp_right And.right)⟩

/-- Cells are a matter of memory alone (R22). -/
theorem State.cell_congr {s t : State} (h : s.mem = t.mem) (a : Nat) : s.cell a = t.cell a :=
  congrArg (·.get a) h

/-- Settles O23: a tick's memory comes from its stores, and a store makes its cell numeric. -/
theorem stepStoresOnlyNumbers : Obligations.StepStoresOnlyNumbers := by
  intro s t hstep a
  have hall : Covers (fun _ => True) s.cfg := ⟨fun _ => trivial, fun _ _ _ => trivial⟩
  obtain ⟨c, u, hu, hc, ht⟩ := step_mem_stores hall hstep
  rw [State.cell_congr ht, ← State.cell_congr hc]
  exact hu.numeric a

end Sys2Proof.Machine
end

section
/-! PROOFS. The access primitives (O27 to O30) and the checks of the fetch (O15). -/

namespace Sys2Proof.Machine

/-! ### The conditions of an access -/

theorem State.mapped_iff (s : State) (a : Int) :
    s.Mapped a ↔ ¬ (a < 0 ∨ (s.cfg.memCapacity : Int) ≤ a) := by
  simp only [State.Mapped]
  omega

theorem State.allowed_iff (s : State) (a : Int) :
    s.Allowed a ↔ s.mode = .kernel ∨ (s.cfg.userBase : Int) ≤ a := by
  cases hm : s.mode <;> simp [State.Allowed, hm]

theorem State.not_allowed_of_user {s : State} {a : Int} (hm : s.mode = .user)
    (ha : a < (s.cfg.userBase : Int)) : ¬ s.Allowed a := fun h => absurd (h hm) (not_le.2 ha)

theorem not_fitsWord_iff (v : Int) : ¬ fitsWord v ↔ v < xmin ∨ xmax < v := by
  simp only [fitsWord]
  omega

/-! ### The answers of the primitives that the laws leave out -/

theorem State.tblRead_outOfBounds (s : State) (a : Int) (h : ¬ s.Mapped a) :
    s.tblRead a = .error ⟨.outOfBounds, a⟩ := by
  simp [State.tblRead, s.bounds_error a h]

theorem State.tblRead_code (s : State) (a : Int) (h : s.Mapped a) {o : Opcode} {x y : Word}
    (hc : s.cell a.toNat = .ins o x y) : s.tblRead a = .error ⟨.codeAsData, a⟩ := by
  simp [State.tblRead, (s.bounds_ok a ()).2 h, s.number_error a hc]

theorem State.tblWrite_overflow (s : State) (a v : Int) (h : s.Mapped a) (hv : ¬ fitsWord v) :
    s.tblWrite a v = .error ⟨.arithmeticOverflow, a⟩ := by
  simp [State.tblWrite, (s.bounds_ok a ()).2 h, inRange_error a v hv]

theorem State.fetch_outOfBounds (s : State) (a : Int) (h : ¬ s.Mapped a) :
    s.fetch a = .error ⟨.outOfBounds, a⟩ := by
  simp [State.fetch, s.bounds_error a h]

theorem State.fetch_protected (s : State) (a : Int) (h : s.Mapped a) (h' : ¬ s.Allowed a) :
    s.fetch a = .error ⟨.protectionViolation, a⟩ := by
  simp [State.fetch, (s.bounds_ok a ()).2 h, s.modeOk_error a h']

/-- A write that ends in the store of a value in range: one cell holds that value, and nothing else of the
state has changed (R67, R69, R70). -/
theorem State.stored_value {s : State} {a : Nat} {v : Int} {r : Result State} (hv : fitsWord v)
    (hr : r = .ok (s.poke a (BitVec.ofInt 32 v))) :
    ∃ (w : Word) (t : State), w.toInt = v ∧ r = .ok t ∧ t = { s with mem := t.mem } ∧
      t.cell a = .num w ∧ ∀ b : Nat, b ≠ a → t.cell b = s.cell b :=
  ⟨BitVec.ofInt 32 v, _, toInt_ofInt_of_fits v hv, hr, rfl, by simp,
    fun b hb => by simp [Ne.symm hb]⟩

/-! ### The statements -/

/-- Settles O27: the clauses are the checks of the read, in their order. -/
theorem operandReadIsChecked : Obligations.OperandReadIsChecked := by
  intro s a
  refine ⟨fun hout => s.memRead_outOfBounds a fun hm => (s.mapped_iff a).1 hm hout,
    fun h0 h1 => ⟨fun hm hlow => s.memRead_protected a ⟨h0, h1⟩ (State.not_allowed_of_user hm hlow),
      fun hmode => ?_⟩⟩
  have hallowed : s.Allowed a := (s.allowed_iff a).2 hmode
  exact ⟨fun o x y hc => s.memRead_code a ⟨h0, h1⟩ hallowed hc,
    fun v hv => (s.memRead_ok a v).2 ⟨⟨h0, h1⟩, hallowed, hv⟩⟩

/-- Settles O28: the clauses are the checks of the write, in their order, and its one store. -/
theorem operandWriteIsChecked : Obligations.OperandWriteIsChecked := by
  intro s a v
  refine ⟨fun hout => s.memWrite_outOfBounds a v fun hm => (s.mapped_iff a).1 hm hout,
    fun h0 h1 => ⟨fun hm hlow =>
        s.memWrite_protected a v ⟨h0, h1⟩ (State.not_allowed_of_user hm hlow),
      fun hmode => ?_⟩⟩
  have hwritable : s.Writable a := ⟨⟨h0, h1⟩, (s.allowed_iff a).2 hmode⟩
  exact ⟨fun hv => s.memWrite_overflow a v hwritable ((not_fitsWord_iff v).2 hv),
    fun hlo hhi => State.stored_value ⟨hlo, hhi⟩
      ((s.memWrite_ok a v _).2 ⟨hwritable, ⟨hlo, hhi⟩, rfl⟩)⟩

/-- Settles O29: no clause looks at the mode. -/
theorem registerAccessIsNotModeChecked : Obligations.RegisterAccessIsNotModeChecked := by
  intro s r
  exact ⟨fun o x y hc => s.reg_code r hc, fun v hv => (s.reg_ok r v).2 hv,
    fun v hv => s.setReg_overflow r v ((not_fitsWord_iff v).2 hv),
    fun v hlo hhi => State.stored_value ⟨hlo, hhi⟩ ((s.setReg_ok r v _).2 ⟨⟨hlo, hhi⟩, rfl⟩)⟩

/-- Settles O30: no clause looks at the mode. -/
theorem tableAccessIsNotModeChecked : Obligations.TableAccessIsNotModeChecked := by
  intro s a
  refine ⟨fun hout => ?_, fun h0 h1 => ?_⟩
  · have hm : ¬ s.Mapped a := fun hm => (s.mapped_iff a).1 hm hout
    exact ⟨s.tblRead_outOfBounds a hm, fun v => s.tblWrite_outOfBounds a v hm⟩
  · have hm : s.Mapped a := ⟨h0, h1⟩
    exact ⟨fun o x y hc => s.tblRead_code a hm hc, fun v hv => (s.tblRead_ok a v).2 ⟨hm, hv⟩,
      fun v hv => s.tblWrite_overflow a v hm ((not_fitsWord_iff v).2 hv),
      fun v hlo hhi => State.stored_value ⟨hlo, hhi⟩
        ((s.tblWrite_ok a v _).2 ⟨hm, ⟨hlo, hhi⟩, rfl⟩)⟩

/-- A tick whose fetch fails takes that fault before decode (R145, R300). -/
theorem step_of_fetchFault {s : State} {p : Word} {e : Raise} (h : s.Fetching p)
    (hf : (s.watched p).fetch p.toInt = .error e) :
    step s = .next ((s.watched p).faulted none e.cause e.addr) := by
  obtain ⟨hrun, hcap, hpc, hrep, hblock⟩ := h
  have hplan : plan s = .raised (s.watched p) none e :=
    (plan_of_pc s p hrun hcap hpc).trans (planAt_fetchFault p _ e hrep hblock hf)
  exact step_of_plan hplan (by simp)

/-- Settles O15: a tick that gets to its fetch takes the fault of the fetch's first failing check. -/
theorem fetchIsChecked : Obligations.FetchIsChecked := by
  intro s p h
  exact ⟨fun hm => step_of_fetchFault h ((s.watched p).fetch_outOfBounds _ hm),
    fun hm ha => step_of_fetchFault h ((s.watched p).fetch_protected _ hm ha)⟩

end Sys2Proof.Machine
end

section
/-! PROOFS. Where instructions fault (O51, O53, O59, O60). An instruction is a sequence of accesses; a
lemma per access says what it answers when its checks pass and which fault it raises when one fails, and
each statement's clauses run an instruction up to the access that fails. -/

namespace Sys2Proof.Machine

/-! ### The end of an instruction that faults -/

/-- An instruction whose pseudocode raises a fault leaves nothing but that fault (R153, R291). -/
theorem commit_faulted {o : Option Opcode} {s : State} {r : Result State} {c : FaultCause} {a : Int}
    (h : r = .error ⟨c, a⟩) : commit o s r = .next (s.faulted o c a) := by
  rw [h]
  rfl

/-! ### Operands -/

section operands
variable {s : State} {a w : Word} {c : FaultCause}

theorem State.Readable.readOperand (h : s.Readable a.toInt w) : s.readOperand a = .ok w :=
  (s.readOperand_ok a w).2 h

theorem State.ReadFaults.readOperand (h : s.ReadFaults a.toInt c) :
    s.readOperand a = .error ⟨c, a.toInt⟩ := State.memRead_faults h

/-- Storing a word there, where the mode admits it (R67). -/
theorem State.Writable.writeOperand (h : s.Writable a.toInt) (w : Word) :
    s.writeOperand a w.toInt = .ok (s.poke a.toInt.toNat w) :=
  (s.writeOperand_ok a _ _).2 ⟨h, fitsWord_toInt w, by rw [ofInt_toInt]⟩

/-- Storing a value that no word holds (R71). -/
theorem State.Writable.writeOperand_overflow (h : s.Writable a.toInt) {v : Int}
    (hv : v < xmin ∨ xmax < v) : s.writeOperand a v = .error ⟨.arithmeticOverflow, a.toInt⟩ :=
  s.memWrite_overflow a.toInt v h ((not_fitsWord_iff v).2 hv)

theorem State.WriteFaults.writeOperand (h : s.WriteFaults a.toInt c) (v : Int) :
    s.writeOperand a v = .error ⟨c, a.toInt⟩ := State.memWrite_faults v h

/-- What a write's checks refuse, a read's refuse too: they are its first two (R66, R67). -/
theorem State.WriteFaults.readFaults {a : Int} (h : s.WriteFaults a c) : s.ReadFaults a c :=
  h.imp_right .inl

theorem State.Readable.writable {a : Int} (h : s.Readable a w) : s.Writable a := ⟨h.1, h.2.1⟩

end operands

/-! ### Counters and the stack -/

/-- A register at the greatest value cannot be counted up (R69, R71). -/
theorem State.setReg_countUp_overflow (s : State) (r : Reg) {w : Word} (hw : w.toInt = xmax) :
    s.setReg r (w.toInt + 1) = .error ⟨.arithmeticOverflow, r.addr⟩ :=
  s.setReg_overflow r _ (by rw [fitsWord_add_one]; omega)

/-- The push of a word, where it can be made (R190). -/
theorem State.CanPush.push {s : State} {sp w q : Word} (h : s.CanPush sp w q) :
    s.push (.ok w.toInt) = .ok (s.pushed sp w q) := by
  obtain ⟨hsp, hw, hq, hmin⟩ := h
  refine (s.push_ok _ _).2 ⟨sp, w.toInt, q, hsp, rfl, hw, fitsWord_toInt w, ?_, hmin, ?_⟩
  · rwa [ofInt_toInt]
  · rw [ofInt_toInt]
    rfl

/-- The pop, where it can be made (R190). -/
theorem State.CanPop.pop {s : State} {sp w : Word} (h : s.CanPop sp w) :
    s.pop = .ok (w, s.popped sp) := by
  obtain ⟨hsp, hmax, hr⟩ := h
  exact (s.pop_ok w _).2 ⟨sp, hsp, hmax, hr, rfl⟩

/-! ### The first operand -/

/-- Every instruction with a first operand reads it before anything else, but for SET, which only writes
(R152). -/
theorem exec_reads_firstOperand {i : Instr} {a : Word} (s : State) (hi : firstOperand i = some a)
    (hset : ∀ v, i ≠ .set v a) :
    ∃ f, exec i s = commit (some i.opcode) s (s.readOperand a >>= f) := by
  cases i with
  | set v x => cases hi; exact absurd rfl (hset v)
  | cpyi x b =>
    cases hi
    refine ⟨fun p => do
      let w ← s.memRead p.toInt
      let s1 ← s.writeOperand b w.toInt
      s1.autoAdvance, ?_⟩
    show commit _ s (s.readIndirect a >>= _) = _
    rw [State.readIndirect, bind_assoc]
  | cpy _ _ | add _ _ | addi _ _ | subi _ _ | jif _ _ | push _ | syscallPrn _ =>
    cases hi
    exact ⟨_, rfl⟩
  | blank | pop _ | call _ | ret | hlt | user _ | syscallHlt | syscallYield | malformed => cases hi

/-- A first operand that may not be read faults the instruction that reads it (R152, R291). -/
theorem exec_firstOperand_readFaults {i : Instr} {a : Word} {s : State} {c : FaultCause}
    (hi : firstOperand i = some a) (hset : ∀ v, i ≠ .set v a) (h : s.ReadFaults a.toInt c) :
    exec i s = .next (s.faulted (some i.opcode) c a.toInt) := by
  obtain ⟨f, hf⟩ := exec_reads_firstOperand s hi hset
  rw [hf]
  exact commit_faulted (by rw [h.readOperand, error_bind])

/-- A first operand that may be neither read nor written faults the instruction, SET or not (R152). -/
theorem exec_firstOperand_writeFaults {i : Instr} {a : Word} {s : State} {c : FaultCause}
    (hi : firstOperand i = some a) (h : s.WriteFaults a.toInt c) :
    exec i s = .next (s.faulted (some i.opcode) c a.toInt) := by
  by_cases hset : ∀ v, i ≠ .set v a
  · exact exec_firstOperand_readFaults hi hset h.readFaults
  · push Not at hset
    obtain ⟨v, rfl⟩ := hset
    exact commit_faulted (by rw [h.writeOperand, error_bind])

/-- Settles O51: the three clauses are the three checks of the first operand's access. -/
theorem firstOperandFaults : Obligations.FirstOperandFaults := by
  intro i a s hi
  refine ⟨fun hm => exec_firstOperand_writeFaults hi (.inl ⟨hm, rfl⟩),
    fun hm ha => exec_firstOperand_writeFaults hi (.inr ⟨hm, ha, rfl⟩), ?_⟩
  intro o x y hm ha hc hset
  have hcode : s.isCode a.toInt = true := (s.isCode_iff _).2 ⟨o, x, y, hc⟩
  exact exec_firstOperand_readFaults hi hset (.inr (.inr ⟨hm, ha, hcode, rfl⟩))

/-! ### The result of an arithmetic instruction -/

/-- Settles O53: the operands are read, and the store of the result fails its range check. -/
theorem arithmeticOverflowFaults : Obligations.ArithmeticOverflowFaults := by
  refine ⟨?add, ?addi, ?subi⟩
  case add =>
    intro a v w s ha hv
    exact commit_faulted (by
      simp only [ha.readOperand, ha.writable.writeOperand_overflow hv, ok_bind, error_bind])
  case addi =>
    intro a b w1 w2 s ha hb hv
    exact commit_faulted (by
      simp only [ha.readOperand, hb.readOperand, ha.writable.writeOperand_overflow hv, ok_bind,
        error_bind])
  case subi =>
    intro a b w1 w2 s ha hb hv
    exact commit_faulted (by
      simp only [ha.readOperand, hb.readOperand, hb.writable.writeOperand_overflow hv, ok_bind,
        error_bind])

/-! ### The accesses after the first -/

/-- Settles O59: each instruction runs to the access that fails, and that access raises its fault. -/
theorem laterAccessFaults : Obligations.LaterAccessFaults := by
  intro s c
  refine ⟨?cpyiPointer, ?cpy, ?cpyi, ?secondOperand, ?push, ?popStack, ?pop, ?call, ?ret⟩
  case cpyiPointer =>
    intro a b q ha hq
    exact commit_faulted (by
      simp only [State.readIndirect, ha.readOperand, State.memRead_faults hq, ok_bind, error_bind])
  case cpy =>
    intro a b w ha hb
    exact commit_faulted (by simp only [ha.readOperand, hb.writeOperand, ok_bind, error_bind])
  case cpyi =>
    intro a b q w ha hq hb
    have hread : s.readIndirect a = .ok w := (s.readIndirect_ok a w).2 ⟨q, ha, hq⟩
    exact commit_faulted (by simp only [hread, hb.writeOperand, ok_bind, error_bind])
  case secondOperand =>
    intro a b w ha hb
    exact ⟨commit_faulted (by simp only [ha.readOperand, hb.readOperand, ok_bind, error_bind]),
      commit_faulted (by simp only [ha.readOperand, hb.readOperand, ok_bind, error_bind])⟩
  case push =>
    intro a w sp ha hsp hw
    exact commit_faulted (by
      simp only [ha.readOperand, State.push_faults w.toInt hsp hw, ok_bind, error_bind])
  case popStack =>
    intro a sp hsp hmax hr
    exact commit_faulted (by simp only [State.pop_faults hsp hmax hr, error_bind])
  case pop =>
    intro a sp w hpop hw
    have hw' : (s.popped sp).WriteFaults a.toInt c := hw
    exact commit_faulted (by simp only [hpop.pop, hw'.writeOperand, ok_bind, error_bind])
  case call =>
    intro t sp p hsp hp hw
    have hret : s.returnAddress = .ok (p.toInt + 1) := (s.returnAddress_ok _).2 ⟨p, hp, rfl⟩
    exact commit_faulted (by
      simp only [hret, State.push_faults (p.toInt + 1) hsp hw, error_bind])
  case ret =>
    intro i base p q sp hpersist hsp hmax hr
    exact commit_faulted (by
      simp only [hpersist.persistContext, State.pop_faults hsp hmax hr, ok_bind, error_bind])

/-! ### The counters -/

/-- An instruction whose pseudocode takes `s` to `u` and that step 6 follows is step 6 on `u` (R149). -/
theorem exec_of_reachesStepSix {i : Instr} {s u : State} (h : ReachesStepSix i s u) :
    exec i s = commit (some i.opcode) s u.autoAdvance := by
  cases i with
  | set v a =>
    obtain ⟨ha, rfl⟩ := h
    show commit _ s _ = _
    simp only [ha.writeOperand, ok_bind]
  | cpy a b =>
    obtain ⟨w, ha, hb, rfl⟩ := h
    show commit _ s _ = _
    simp only [ha.readOperand, hb.writeOperand, ok_bind]
  | cpyi a b =>
    obtain ⟨q, w, ha, hq, hb, rfl⟩ := h
    have hread : s.readIndirect a = .ok w := (s.readIndirect_ok a w).2 ⟨q, ha, hq⟩
    show commit _ s _ = _
    simp only [hread, hb.writeOperand, ok_bind]
  | add a v =>
    obtain ⟨w, r, ha, hr, rfl⟩ := h
    show commit _ s _ = _
    simp only [ha.readOperand, ← hr, ha.writable.writeOperand, ok_bind]
  | addi a b =>
    obtain ⟨w1, w2, r, ha, hb, hr, rfl⟩ := h
    show commit _ s _ = _
    simp only [ha.readOperand, hb.readOperand, ← hr, ha.writable.writeOperand, ok_bind]
  | subi a b =>
    obtain ⟨w1, w2, r, ha, hb, hr, rfl⟩ := h
    show commit _ s _ = _
    simp only [ha.readOperand, hb.readOperand, ← hr, hb.writable.writeOperand, ok_bind]
  | jif a t =>
    obtain ⟨w, ha, hpos, rfl⟩ := h
    have hnot : ¬ jumpTaken w = true := fun hj => absurd ((jumpTaken_iff w).1 hj) (not_le.2 hpos)
    show commit _ u _ = _
    simp only [ha.readOperand, ok_bind, if_neg hnot]
  | push a =>
    obtain ⟨w, sp, q, ha, hpush, rfl⟩ := h
    show commit _ s _ = _
    simp only [ha.readOperand, hpush.push, ok_bind]
  | pop a =>
    obtain ⟨w, sp, hpop, ha, rfl⟩ := h
    have ha' : (s.popped sp).Writable a.toInt := ha
    show commit _ s _ = _
    simp only [hpop.pop, ha'.writeOperand, ok_bind]
  | blank | call _ | ret | hlt | user _ | syscallPrn _ | syscallHlt | syscallYield | malformed =>
    exact h.elim

/-- Settles O60: each instruction runs to the counter that cannot be stored. -/
theorem counterOverflowFaults : Obligations.CounterOverflowFaults := by
  refine ⟨?stepSix, ?push, ?pop, ?ret, ?returnAddress, ?terminate⟩
  case stepSix =>
    intro i s u p hreach hp
    rw [exec_of_reachesStepSix hreach]
    exact ⟨fun hmax => commit_faulted (u.autoAdvance_pcOverflow hp hmax),
      fun hlt hcode => commit_faulted (u.autoAdvance_ticCode hp hlt hcode),
      fun n hlt hn hmax => commit_faulted (u.autoAdvance_ticOverflow hp hlt hn hmax)⟩
  case push =>
    intro a w sp q s ha hsp hw hq hmin
    exact commit_faulted (by
      simp only [ha.readOperand, State.push_spOverflow hsp hw hq hmin, ok_bind, error_bind])
  case pop =>
    intro a sp s hsp hmax
    exact commit_faulted (by simp only [State.pop_spOverflow hsp hmax, error_bind])
  case ret =>
    intro i base p q sp s hpersist hsp hmax
    exact commit_faulted (by
      simp only [hpersist.persistContext, State.pop_spOverflow hsp hmax, ok_bind, error_bind])
  case returnAddress =>
    intro p s hp hmax
    refine ⟨commit_faulted ?_, fun a w ha => commit_faulted ?_,
      fun t sp hsp hw => commit_faulted ?_⟩
    · simp only [(s.reg_ok .pc p).2 hp, s.setReg_countUp_overflow .pc hmax, ok_bind, error_bind]
      rfl
    · simp only [ha.readOperand, ((s.emit w).reg_ok .pc p).2 hp,
        (s.emit w).setReg_countUp_overflow .pc hmax, ok_bind, error_bind]
      rfl
    · have hret : s.returnAddress = .ok (p.toInt + 1) := (s.returnAddress_ok _).2 ⟨p, hp, rfl⟩
      have hfit : ¬ fitsWord (p.toInt + 1) := by rw [fitsWord_add_one]; omega
      simp only [hret, State.push_overflow hsp hw hfit, error_bind]
  case terminate =>
    intro c base atc s hc hv hb hm ha hmin
    have hfault : terminateCurrent s = .error ⟨.arithmeticOverflow, 5⟩ :=
      terminateCurrent_atcOverflow s hc hv hb hm ha hmin
    refine ⟨fun i hi => ?_, commit_faulted hfault⟩
    simp only [List.mem_cons, List.not_mem_nil, or_false] at hi
    rcases hi with rfl | rfl <;> exact commit_faulted hfault

end Sys2Proof.Machine
end

section
/-! PROOFS. The encoding (O1 to O6). The encoder writes every instruction cell that the decoder accepts as
an instruction: a cell with an assigned number and zero reserved fields is some instruction's cell, and
decoding gives that instruction back. The cells left over are those of BLANK and MALFORMED and the two
refusals of R114 and R117. -/

namespace Sys2Proof

/-! ### The operand formats -/

theorem formatOf_eq_v2_iff (opc : Opcode) :
    formatOf opc = .v2 ↔ opc.toNat ∈ [0x01, 0x02, 0x03, 0x04, 0x05, 0x06, 0x07] := by
  unfold formatOf
  split_ifs with h <;> simp [h]

theorem formatOf_eq_v1_iff (opc : Opcode) :
    formatOf opc = .v1 ↔ opc.toNat ∈ [0x08, 0x09, 0x0A, 0x0D, 0x10] := by
  simp only [formatOf, List.mem_cons, List.not_mem_nil, or_false]
  split_ifs <;> simp only [false_iff, true_iff] <;> omega

theorem formatOf_eq_v0_iff (opc : Opcode) :
    formatOf opc = .v0 ↔ opc.toNat ∈ [0x0B, 0x0C, 0x11, 0x12] := by
  simp only [formatOf, List.mem_cons, List.not_mem_nil, or_false]
  split_ifs <;> simp only [false_iff, true_iff] <;> omega

theorem opcodeAssigned_iff (opc : Opcode) :
    opcodeAssigned opc = true ↔
      formatOf opc = .v2 ∨ formatOf opc = .v1 ∨ formatOf opc = .v0 := by
  unfold opcodeAssigned
  cases formatOf opc <;> decide

/-- The numbers without a row of the table are those that are not assigned and are neither BLANK's nor
MALFORMED's (R113, R117). -/
theorem not_mem_table_iff (opc : Opcode) :
    opc.toNat ∉ [0x00, 0x01, 0x02, 0x03, 0x04, 0x05, 0x06, 0x07, 0x08, 0x09, 0x0A, 0x0B, 0x0C, 0x0D,
        0x10, 0x11, 0x12, 0xFE] ↔
      opcodeAssigned opc = false ∧ opc ≠ 0x00 ∧ opc ≠ 0xFE := by
  rw [← Bool.not_eq_true, opcodeAssigned_iff, formatOf_eq_v2_iff, formatOf_eq_v1_iff,
    formatOf_eq_v0_iff, ne_eq, ne_eq, ← BitVec.toNat_inj, ← BitVec.toNat_inj]
  simp only [List.mem_cons, List.not_mem_nil, or_false, BitVec.reduceToNat]
  omega

/-! ### Encodings are decoded back -/

/-- Each row of the table, decoded from its own number and fields (R113). -/
theorem decodeIns_fields (i : Instr) : decodeIns i.opcode i.fieldA i.fieldB = .ok i := by
  cases i <;> rfl

theorem decodeCell_encodeCell (i : Instr) : decodeCell (encodeCell i) = .ok i := decodeIns_fields i

/-- Settles O1: storing a cell loses none of it, and each row decodes back from its fields. -/
theorem decodeOfEncodeIsTheInstruction : Obligations.DecodeOfEncodeIsTheInstruction := fun i =>
  calc decode (encode i) = decodeCell (encodeCell i) := decode_toBits (encodeCell i)
    _ = .ok i := decodeCell_encodeCell i

/-! ### What is no instruction -/

/-- BLANK's fields are ignored (R115). -/
theorem decodeIns_blank (a b : Word) : decodeIns 0x00 a b = .ok .blank := rfl

/-- MALFORMED's fields are ignored (R116). -/
theorem decodeIns_malformed (a b : Word) : decodeIns 0xFE a b = .ok .malformed := rfl

/-- A number without a row (R117). -/
theorem decodeIns_unknown {opc : Opcode} (a b : Word) (h : opcodeAssigned opc = false)
    (hblank : opc ≠ 0x00) (hmalformed : opc ≠ 0xFE) :
    decodeIns opc a b = .error (.unknownOpcode opc) := by
  have hout := (not_mem_table_iff opc).2 ⟨h, hblank, hmalformed⟩
  unfold decodeIns
  split
  case h_19 => rfl
  all_goals
    next hrow =>
      rw [hrow] at hout
      simp at hout

/-- A reserved field that is not zero (R114). -/
theorem decodeIns_reservedNotZero {opc : Opcode} {a b : Word} (h : opcodeAssigned opc = true)
    (hz : (formatOf opc).reservedZero a b = false) :
    decodeIns opc a b = .error (.reservedNotZero opc) := by
  rcases (opcodeAssigned_iff opc).1 h with hf | hf | hf
  · rw [hf] at hz
    cases hz
  · have hb : b ≠ 0 := by simpa [hf, Format.reservedZero] using hz
    rw [formatOf_eq_v1_iff] at hf
    simp only [List.mem_cons, List.not_mem_nil, or_false] at hf
    rcases hf with hn | hn | hn | hn | hn <;> simp only [decodeIns, hn, oneOperand, if_neg hb]
  · have hab : ¬ (a = 0 ∧ b = 0) := by simpa [hf, Format.reservedZero] using hz
    rw [formatOf_eq_v0_iff] at hf
    simp only [List.mem_cons, List.not_mem_nil, or_false] at hf
    rcases hf with hn | hn | hn | hn <;> simp only [decodeIns, hn, noOperand, if_neg hab]

/-! ### What is an instruction is an encoding -/

theorem encodeCell_eq_ins {i : Instr} {opc : Opcode} {a b : Word} (hn : opc.toNat = i.opcode.toNat)
    (ha : i.fieldA = a) (hb : i.fieldB = b) : encodeCell i = .ins opc a b := by
  rw [encodeCell, ha, hb, BitVec.eq_of_toNat_eq hn]

/-- A cell with an assigned number and zero reserved fields is the cell of one of the sixteen instructions
(R111, R113). -/
theorem exists_encodeCell_eq_ins {opc : Opcode} {a b : Word} (h : opcodeAssigned opc = true)
    (hz : (formatOf opc).reservedZero a b = true) :
    ∃ i : Instr, i.isInstruction = true ∧ encodeCell i = .ins opc a b := by
  rcases (opcodeAssigned_iff opc).1 h with hf | hf | hf
  · rw [formatOf_eq_v2_iff] at hf
    simp only [List.mem_cons, List.not_mem_nil, or_false] at hf
    rcases hf with hn | hn | hn | hn | hn | hn | hn
    · exact ⟨.set a b, rfl, encodeCell_eq_ins hn rfl rfl⟩
    · exact ⟨.cpy a b, rfl, encodeCell_eq_ins hn rfl rfl⟩
    · exact ⟨.cpyi a b, rfl, encodeCell_eq_ins hn rfl rfl⟩
    · exact ⟨.add a b, rfl, encodeCell_eq_ins hn rfl rfl⟩
    · exact ⟨.addi a b, rfl, encodeCell_eq_ins hn rfl rfl⟩
    · exact ⟨.subi a b, rfl, encodeCell_eq_ins hn rfl rfl⟩
    · exact ⟨.jif a b, rfl, encodeCell_eq_ins hn rfl rfl⟩
  · obtain rfl : b = 0 := by simpa [hf, Format.reservedZero] using hz
    rw [formatOf_eq_v1_iff] at hf
    simp only [List.mem_cons, List.not_mem_nil, or_false] at hf
    rcases hf with hn | hn | hn | hn | hn
    · exact ⟨.push a, rfl, encodeCell_eq_ins hn rfl rfl⟩
    · exact ⟨.pop a, rfl, encodeCell_eq_ins hn rfl rfl⟩
    · exact ⟨.call a, rfl, encodeCell_eq_ins hn rfl rfl⟩
    · exact ⟨.user a, rfl, encodeCell_eq_ins hn rfl rfl⟩
    · exact ⟨.syscallPrn a, rfl, encodeCell_eq_ins hn rfl rfl⟩
  · obtain ⟨rfl, rfl⟩ : a = 0 ∧ b = 0 := by simpa [hf, Format.reservedZero] using hz
    rw [formatOf_eq_v0_iff] at hf
    simp only [List.mem_cons, List.not_mem_nil, or_false] at hf
    rcases hf with hn | hn | hn | hn
    · exact ⟨.ret, rfl, encodeCell_eq_ins hn rfl rfl⟩
    · exact ⟨.hlt, rfl, encodeCell_eq_ins hn rfl rfl⟩
    · exact ⟨.syscallHlt, rfl, encodeCell_eq_ins hn rfl rfl⟩
    · exact ⟨.syscallYield, rfl, encodeCell_eq_ins hn rfl rfl⟩

/-- A cell that decodes to one of the sixteen instructions is that instruction's cell. -/
theorem encodeCell_of_decodeCell {c : Cell} {i : Instr} (h : decodeCell c = .ok i)
    (hi : i.isInstruction = true) : encodeCell i = c := by
  cases c with
  | num v => cases h
  | ins opc a b =>
    change decodeIns opc a b = .ok i at h
    cases ha : opcodeAssigned opc with
    | false =>
      by_cases hblank : opc = 0x00
      · rw [hblank, decodeIns_blank] at h
        cases h
        cases hi
      by_cases hmalformed : opc = 0xFE
      · rw [hmalformed, decodeIns_malformed] at h
        cases h
        cases hi
      rw [decodeIns_unknown a b ha hblank hmalformed] at h
      cases h
    | true =>
      cases hz : (formatOf opc).reservedZero a b with
      | false =>
        rw [decodeIns_reservedNotZero ha hz] at h
        cases h
      | true =>
        obtain ⟨j, -, hj⟩ := exists_encodeCell_eq_ins ha hz
        have hdec : decodeCell (.ins opc a b) = .ok j := hj ▸ decodeCell_encodeCell j
        obtain rfl : j = i := Except.ok.inj (hdec.symm.trans h)
        exact hj

/-! ### Stored words -/

theorem Cell.ofBits_of_tag_false {bits : CellBits} (h : bits.getLsbD 72 = false) :
    Cell.ofBits bits = .num (bits.extractLsb' 0 32) := by
  simp only [Cell.ofBits, h, Bool.false_eq_true, if_false]

theorem Cell.ofBits_of_tag_true {bits : CellBits} (h : bits.getLsbD 72 = true) :
    Cell.ofBits bits =
      .ins (bits.extractLsb' 64 8) (bits.extractLsb' 32 32) (bits.extractLsb' 0 32) := by
  rw [Cell.ofBits, if_pos h]

theorem decode_of_tag_false {bits : CellBits} (h : bits.getLsbD 72 = false) :
    decode bits = .error .notInstruction := by
  rw [decode, Cell.ofBits_of_tag_false h, decodeCell]

theorem decode_of_tag_true {bits : CellBits} (h : bits.getLsbD 72 = true) :
    decode bits =
      decodeIns (bits.extractLsb' 64 8) (bits.extractLsb' 32 32) (bits.extractLsb' 0 32) := by
  rw [decode, Cell.ofBits_of_tag_true h, decodeCell]

/-- Settles O2: the word holds the instruction's cell, and an instruction cell keeps every bit. -/
theorem acceptedWordIsItsEncoding : Obligations.AcceptedWordIsItsEncoding := by
  intro bits i hdec hi
  cases htag : bits.getLsbD 72 with
  | false =>
    rw [decode_of_tag_false htag] at hdec
    cases hdec
  | true =>
    calc encode i = (Cell.ofBits bits).toBits :=
          congrArg Cell.toBits (encodeCell_of_decodeCell hdec hi)
      _ = bits := Cell.toBits_ofBits_of_tag bits htag

/-- An assigned number with zero reserved fields decodes to the instruction of that number with those
fields (R113, R120). -/
theorem exists_decodeIns_ok {opc : Opcode} {a b : Word} (h : opcodeAssigned opc = true)
    (hz : (formatOf opc).reservedZero a b = true) :
    ∃ i : Instr, decodeIns opc a b = .ok i ∧ i.isInstruction = true ∧ i.opcode = opc ∧
      i.fieldA = a ∧ i.fieldB = b := by
  obtain ⟨i, hi, hcell⟩ := exists_encodeCell_eq_ins h hz
  obtain ⟨rfl, rfl, rfl⟩ := Cell.ins.inj hcell
  exact ⟨i, decodeIns_fields i, hi, rfl, rfl, rfl⟩

/-- Settles O3: the clauses are the tag, the two rows that are no instructions, the numbers without a row,
and the three formats with their reserved fields zero or not. -/
theorem decodeFollowsItsRule : Obligations.DecodeFollowsItsRule := by
  intro bits opc a b hopc ha hb
  refine ⟨decode_of_tag_false, fun htag => ?_⟩
  rw [decode_of_tag_true htag, hopc, ha, hb]
  have assigned_v1 (h : formatOf opc = .v1) : opcodeAssigned opc = true :=
    (opcodeAssigned_iff opc).2 (.inr (.inl h))
  have assigned_v0 (h : formatOf opc = .v0) : opcodeAssigned opc = true :=
    (opcodeAssigned_iff opc).2 (.inr (.inr h))
  rw [← formatOf_eq_v2_iff, ← formatOf_eq_v1_iff, ← formatOf_eq_v0_iff, not_mem_table_iff]
  refine ⟨?blank, ?malformed, ?unknown, ?reservedB, ?reservedAB, ?instruction⟩
  case blank =>
    rintro rfl
    exact decodeIns_blank a b
  case malformed =>
    rintro rfl
    exact decodeIns_malformed a b
  case unknown =>
    rintro ⟨hno, hblank, hmalformed⟩
    exact decodeIns_unknown a b hno hblank hmalformed
  case reservedB =>
    intro hf hb0
    exact decodeIns_reservedNotZero (assigned_v1 hf) (by simpa [hf, Format.reservedZero] using hb0)
  case reservedAB =>
    intro hf hab
    refine decodeIns_reservedNotZero (assigned_v0 hf) ?_
    simpa [hf, Format.reservedZero, imp_iff_not_or] using hab
  case instruction =>
    rintro (hf | ⟨hf, hb0⟩ | ⟨hf, ha0, hb0⟩)
    · exact exists_decodeIns_ok ((opcodeAssigned_iff opc).2 (.inl hf)) (by rw [hf]; rfl)
    · exact exists_decodeIns_ok (assigned_v1 hf) (by simpa [hf, Format.reservedZero] using hb0)
    · exact exists_decodeIns_ok (assigned_v0 hf) (by simp [hf, Format.reservedZero, ha0, hb0])

/-! ### Numeric cells -/

theorem Cell.toBits_num_word (v : Word) : (Cell.num v).toBits.extractLsb' 0 32 = v := by
  apply BitVec.eq_of_toNat_eq
  simp only [Cell.toBits, BitVec.extractLsb'_toNat, BitVec.toNat_setWidth, Nat.shiftRight_zero]
  omega

theorem Cell.toBits_num_reserved (v : Word) : (Cell.num v).toBits.extractLsb' 32 41 = 0 := by
  apply BitVec.eq_of_toNat_eq
  simp only [Cell.toBits, BitVec.extractLsb'_toNat, BitVec.toNat_setWidth,
    Nat.shiftRight_eq_div_pow, BitVec.reduceToNat]
  omega

/-- Settles O4: the tag sends the word to its low 32 bits, and a numeric cell is written zero-extended. -/
theorem numericCellLayout : Obligations.NumericCellLayout :=
  ⟨fun _ htag => Cell.ofBits_of_tag_false htag,
    fun v => ⟨Cell.toBits_num_word v, Cell.toBits_num_reserved v⟩⟩

/-- Settles O5: each is a closed computation of the decoder. -/
theorem sampleWordsDecode : Obligations.SampleWordsDecode := by
  unfold Obligations.SampleWordsDecode
  decide

end Sys2Proof

namespace Sys2Proof.Machine

/-- A fetched cell for which step 4 raises a fault: the fault is taken on the state after step 1 (R147). -/
theorem step_of_decodeFault {s : State} {p : Word} {c : Cell} {o : Opcode}
    {f : FaultCause} {a : Int} (h : s.Fetches p c)
    (hc : planCell p c (s.watched p) = .raised (s.watched p) (some o) ⟨f, a⟩) :
    step s = .next ((s.watched p).faulted (some o) f a) :=
  step_of_plan ((plan_of_fetches s p c h).trans hc) (by simp)

/-- Settles O6: both refusals of the decoder are faults of step 4. -/
theorem undecodableCellFaults : Obligations.UndecodableCellFaults := by
  intro s p opc a b h
  refine ⟨fun hno hblank hmalformed => step_of_decodeFault h ?_,
    fun hassigned hz => step_of_decodeFault h ?_⟩
  · rw [planCell, decodeCell, decodeIns_unknown a b hno hblank hmalformed]
  · rw [planCell, decodeCell, decodeIns_reservedNotZero hassigned hz]

end Sys2Proof.Machine
end

section
/-! PROOFS. The tick: the halted machine (O9), the instruction it runs (O8), the fetch failure (O16) and the
stall (O13, O14). -/

namespace Sys2Proof.Machine

/-! ### The halted machine, the fetched cell -/

/-- Settles O9: the plan of a halted machine is to do nothing. -/
theorem haltedTickDoesNothing : Obligations.HaltedTickDoesNothing := by
  intro s hh
  exact ⟨step_of_plan (plan_of_halted s hh) (by simp), if_pos hh⟩

theorem planCell_of_decoded (p : Word) {c : Cell} {i : Instr} (s : State)
    (h : decodeCell c = .ok i) : planCell p c s = .run i s := by
  rw [planCell, h]

theorem planCell_num (p v : Word) (s : State) : planCell p (.num v) s = .fetchFailed s := rfl

/-- Settles O8: the plan of such a tick is to run the instruction on the state after step 1. -/
theorem stepRunsTheDecodedInstruction : Obligations.StepRunsTheDecodedInstruction := by
  intro s p c i hfetch hdec
  exact step_of_run ((plan_of_fetches s p c hfetch).trans (planCell_of_decoded p _ hdec))

/-- Settles O16: the plan of such a tick is a fetch failure, and it ends as the termination does. -/
theorem fetchFailureEndsTheThread : Obligations.FetchFailureEndsTheThread := by
  intro s p v hfetch
  have hplan : plan s = .fetchFailed (s.watched p) :=
    (plan_of_fetches s p _ hfetch).trans (planCell_num p v _)
  have hstep : step s = .next (settle none (s.watched p) (terminateCurrent (s.watched p))) :=
    step_of_plan hplan (by simp)
  refine ⟨fun u hu => ?completes, fun e he => ?faults⟩
  case completes => rw [hstep, hu, settle_ok]
  case faults => rw [hstep, he, settle_error, State.takeFault_eq_faulted]

/-! ### One tick of the stall -/

/-- A word counted up in range has the value counted up. -/
theorem toInt_add_one {w : Word} (h : w.toInt < xmax) : (w + 1).toInt = w.toInt + 1 := by
  rw [← ofInt_add_one]
  exact toInt_ofInt_of_fits _ ((fitsWord_add_one w).2 h)

section stall
variable {s : State} {p n : Word}

theorem blockedTick_counts (hn : s.HoldsReg .tic n) (hx : n.toInt < xmax) :
    blockedTick s = .ok (s.unblockOne.poke Reg.tic.addr (n + 1)) :=
  (bind_ok _ _ _).2 ⟨n, (State.reg_ok s.unblockOne .tic n).2 hn,
    (State.setReg_ok _ _ _ _).2 ⟨(fitsWord_add_one n).2 hx, by rw [ofInt_add_one]⟩⟩

theorem blockedTick_overflow (hn : s.HoldsReg .tic n) (hx : n.toInt = xmax) :
    blockedTick s = .error ⟨.arithmeticOverflow, 3⟩ := by
  have hf : ¬ fitsWord (n.toInt + 1) := by rw [fitsWord_add_one]; omega
  have hr : s.unblockOne.reg .tic = .ok n := (State.reg_ok s.unblockOne .tic n).2 hn
  rw [blockedTick, hr]
  exact State.setReg_overflow _ .tic _ hf

/-- A tick during the stall, when neither cap trips, is a blocked tick (R144). -/
theorem step_of_blocked (hh : s.halted = false) (hcap : s.wdTicks + 1 ≤ s.cfg.hardCap)
    (hp : s.HoldsReg .pc p) (hr : (s.watched p).wdRepeat ≤ s.cfg.softCap) (hb : 0 < s.block) :
    step s = .next (settle none (s.watched p) (blockedTick (s.watched p))) :=
  step_of_plan ((plan_of_pc s p hh hcap hp).trans (planAt_blocked p _ hr hb)) (by simp)

end stall

/-- Settles O13: a blocked tick counts `TIC` up or overflows there. -/
theorem blockedTickCountsDown : Obligations.BlockedTickCountsDown := by
  intro s p n hh hcap hp hr hb hn
  have hstep := step_of_blocked hh hcap hp hr hb
  have hn' : (s.watched p).HoldsReg .tic n := hn
  refine ⟨fun hx => ?counts, fun hx => ?overflows⟩
  case counts =>
    rw [hstep, blockedTick_counts hn' hx]
    rfl
  case overflows =>
    rw [hstep, blockedTick_overflow hn' hx]
    rfl

/-! ### The whole stall -/

/-- The state after a tick of the stall that began at program counter `p` with `TIC` at `c` (R144). -/
def State.stallTicked (s : State) (p c : Word) : State :=
  (s.watched p).unblockOne.poke Reg.tic.addr (c + 1)

@[simp] theorem State.stallTicked_cfg (s : State) (p c : Word) :
    (s.stallTicked p c).cfg = s.cfg := rfl
@[simp] theorem State.stallTicked_block (s : State) (p c : Word) :
    (s.stallTicked p c).block = s.block - 1 := rfl
@[simp] theorem State.stallTicked_wdTicks (s : State) (p c : Word) :
    (s.stallTicked p c).wdTicks = s.wdTicks + 1 := rfl

/-- The program counter stands still, so the next tick counts one repeat more (R272). -/
theorem State.stallTicked_watched_wdRepeat (s : State) (p c : Word) :
    ((s.stallTicked p c).watched p).wdRepeat = (s.watched p).wdRepeat + 1 := if_pos rfl

theorem State.cell_stallTicked (s : State) (p c : Word) {a : Nat} (ha : a ≠ 3) :
    (s.stallTicked p c).cell a = s.cell a := by
  rw [State.stallTicked, State.cell_poke, Reg.addr_tic, if_neg (Ne.symm ha),
    State.cell_unblockOne, State.cell_watched]

/-- The machine has `n` ticks of a stall before it, at program counter `p` with `TIC` at `c`, and neither
`TIC` nor a cap of the watchdog gets in their way (R144, R271, R273). -/
structure State.Stalling (s : State) (n : Nat) (p c : Word) : Prop where
  running : s.halted = false
  block : s.block = n
  pc : s.HoldsReg .pc p
  tic : s.HoldsReg .tic c
  ticFits : c.toInt + n ≤ xmax
  hardCap : s.wdTicks + n ≤ s.cfg.hardCap
  softCap : (s.watched p).wdRepeat + n ≤ s.cfg.softCap + 1

section stalling
variable {s : State} {n : Nat} {p c : Word}

theorem State.Stalling.tic_lt (h : s.Stalling (n + 1) p c) : c.toInt < xmax := by
  have := h.ticFits
  omega

theorem State.Stalling.step_eq (h : s.Stalling (n + 1) p c) :
    step s = .next (s.stallTicked p c) := by
  have hcap : s.wdTicks + 1 ≤ s.cfg.hardCap := by have := h.hardCap; omega
  have hrep : (s.watched p).wdRepeat ≤ s.cfg.softCap := by have := h.softCap; omega
  have hb : 0 < s.block := by rw [h.block]; exact n.succ_pos
  exact (blockedTickCountsDown s p c h.running hcap h.pc hrep hb h.tic).1 h.tic_lt

/-- A tick of the stall leaves one tick less of it. -/
theorem State.Stalling.stallTicked (h : s.Stalling (n + 1) p c) :
    (s.stallTicked p c).Stalling n p (c + 1) where
  running := h.running
  block := by rw [State.stallTicked_block, h.block, Nat.add_sub_cancel]
  pc := (s.cell_stallTicked p c (by decide)).trans h.pc
  tic := by simp [State.stallTicked, State.HoldsReg]
  ticFits := by
    have := h.ticFits
    rw [toInt_add_one h.tic_lt]
    omega
  hardCap := by
    have := h.hardCap
    rw [State.stallTicked_wdTicks, State.stallTicked_cfg]
    omega
  softCap := by
    have := h.softCap
    rw [State.stallTicked_watched_wdRepeat, State.stallTicked_cfg]
    omega

end stalling

/-- The stall runs to its end, and touches nothing but the watchdog, the countdown and `TIC`. -/
theorem State.Stalling.run {n : Nat} {s : State} {p c : Word} (h : s.Stalling n p c) :
    ∃ t : State, Host.Core.run Sys2Proof.core n s = .next t ∧
      t.Stalling 0 p (BitVec.ofInt 32 (c.toInt + n)) ∧ t.wdTicks = s.wdTicks + n ∧
      t.mode = s.mode ∧ t.out = s.out ∧ ∀ a : Nat, a ≠ 3 → t.cell a = s.cell a := by
  induction n generalizing s c with
  | zero => exact ⟨s, rfl, by simpa using h, rfl, rfl, rfl, fun _ _ => rfl⟩
  | succ n ih =>
    obtain ⟨t, hrun, hend, hticks, hmode, hout, hcell⟩ := ih h.stallTicked
    have htic : (c + 1).toInt + n = c.toInt + ((n + 1 : Nat) : Int) := by
      rw [toInt_add_one h.tic_lt]
      omega
    rw [htic] at hend
    refine ⟨t, (run_succ n s _ h.step_eq).trans hrun, hend, ?ticks, hmode, hout, fun a ha =>
      (hcell a ha).trans (s.cell_stallTicked p c ha)⟩
    case ticks =>
      rw [hticks, State.stallTicked_wdTicks]
      omega

/-- Settles O14: the premises make a machine that has `n` ticks of the stall before it, and a tick of the
stall leaves one less. -/
theorem stallLastsItsCount : Obligations.StallLastsItsCount := by
  intro n s p c hh hb hp hc hfits hhard hsoft
  obtain ⟨t, hrun, hend, hticks, hmode, hout, hcell⟩ :=
    State.Stalling.run ⟨hh, hb, hp, hc, hfits, hhard, hsoft⟩
  exact ⟨t, hrun, hend.block, hend.running, hticks, hmode, hout, hend.tic, hcell⟩

end Sys2Proof.Machine
end

section
/-! PROOFS. Data movement (O33 to O35), and the frame that it shares with the arithmetic instructions (O55).
Both rest on the shape these instructions share: reads, one store at the destination operand, and step 6. -/

namespace Sys2Proof.Machine

/-! ### What completes -/

/-- An instruction that reaches step 6 in a state that can count up completes, counted up (R149). -/
theorem exec_of_countsFrom {i : Instr} {s u : State} {p n : Word} (h : ReachesStepSix i s u)
    (hc : u.CountsFrom p n) : exec i s = .next (u.advanced p n) := by
  have hadv : u.autoAdvance = .ok (u.advanced p n) := (u.autoAdvance_ok _).2 ⟨p, n, hc, rfl⟩
  rw [exec_of_reachesStepSix h, hadv, commit_ok]

/-- Settles O33: a store the mode admits is all that SET does before step 6. -/
theorem setStoresTheLiteral : Obligations.SetStoresTheLiteral := fun _ _ _ _ _ ha hc =>
  exec_of_countsFrom ⟨ha, rfl⟩ hc

/-- Settles O34: CPY reaches step 6 by a read and a store. -/
theorem cpyCopiesTheWord : Obligations.CpyCopiesTheWord := fun _ _ w _ _ _ ha hb hc =>
  exec_of_countsFrom ⟨w, ha, hb, rfl⟩ hc

/-- Settles O35: CPYI reaches step 6 by the read of the pointer, the read through it and a store. -/
theorem cpyiCopiesThroughThePointer : Obligations.CpyiCopiesThroughThePointer :=
  fun _ _ q w _ _ _ ha hq hb hc => exec_of_countsFrom ⟨q, w, ha, hq, hb, rfl⟩ hc

/-! ### The frame -/

/-- An instruction's outcome is what its completion gives, or a fault (R153, R291). -/
theorem commit_completes_or_faulted {o : Option Opcode} {s t : State} {r : Result State} {P : Prop}
    (h : commit o s r = .next t) (hr : r = .ok t → P) :
    P ∨ ∃ e : Raise, t = s.faulted o e.cause e.addr :=
  (commit_cases o s t r h).imp hr fun ⟨e, _, ht⟩ => ⟨e, ht.trans (s.takeFault_eq_faulted o e)⟩

/-- An instruction with a destination stores a value there and does step 6, or it takes a fault: what it
reads before changes nothing (R149, R152). -/
theorem exec_of_destination {i : Instr} {d : Word} {s t : State} (hd : destination i = some d)
    (h : exec i s = .next t) :
    (∃ x : Int, s.writeOperand d x >>= State.autoAdvance = .ok t) ∨
      ∃ e : Raise, t = s.faulted (some i.opcode) e.cause e.addr := by
  cases i with
  | set _ _ =>
    cases hd
    exact commit_completes_or_faulted h fun hok => ⟨_, hok⟩
  | cpy _ _ | cpyi _ _ | add _ _ =>
    cases hd
    refine commit_completes_or_faulted h fun hok => ?_
    obtain ⟨_, -, hstore⟩ := (bind_ok _ _ t).1 hok
    exact ⟨_, hstore⟩
  | addi _ _ | subi _ _ =>
    cases hd
    refine commit_completes_or_faulted h fun hok => ?_
    obtain ⟨_, -, hrest⟩ := (bind_ok _ _ t).1 hok
    obtain ⟨_, -, hstore⟩ := (bind_ok _ _ t).1 hrest
    exact ⟨_, hstore⟩
  | blank | jif _ _ | push _ | pop _ | call _ | ret | hlt | user _ | syscallPrn _ | syscallHlt
  | syscallYield | malformed => cases hd

/-- The addresses an instruction with destination `d` stores to: `d`, PC and `TIC`. -/
def DestinationCells (d : Word) (a : Nat) : Prop := (a : Int) = d.toInt ∨ a ∈ [0, 3]

/-- A store to the destination operand and step 6 store to the destination, PC and `TIC` only (R149). -/
theorem storeAndAdvance_stores {s t : State} {d : Word} {x : Int}
    (h : s.writeOperand d x >>= State.autoAdvance = .ok t) : Stores (DestinationCells d) s t := by
  obtain ⟨s1, hstore, hadv⟩ := (bind_ok _ _ t).1 h
  have hdest : s.Mapped d.toInt → DestinationCells d d.toInt.toNat := fun hm =>
    .inl (Int.toNat_of_nonneg hm.1)
  exact (writeOperand_stores hstore hdest).trans
    (autoAdvance_stores hadv (.inr (by simp)) (.inr (by simp)))

/-- Settles O55: what completes is a store to the destination and step 6. -/
theorem storingInstructionsFrame : Obligations.StoringInstructionsFrame := by
  intro i d s t hd h
  refine (exec_of_destination hd h).imp_left ?_
  rintro ⟨x, hx⟩
  have hst : Stores (DestinationCells d) s t := storeAndAdvance_stores hx
  exact ⟨hst.frame, fun a hne hnot => hst.outside a (not_or.2 ⟨hne, hnot⟩)⟩

end Sys2Proof.Machine
end

section
/-! PROOFS. Arithmetic (O36 to O38). Each instruction reaches step 6 by its reads and the store of the exact
result, a word by the statement's premise; what follows is the counting up that data movement shares. -/

namespace Sys2Proof.Machine

/-- Settles O36: ADD reaches step 6 by the read of its operand and the store of the sum there. -/
theorem addAddsTheLiteral : Obligations.AddAddsTheLiteral :=
  fun _ _ w r _ _ _ ha hsum hc => exec_of_countsFrom ⟨w, r, ha, hsum, rfl⟩ hc

/-- Settles O37: ADDI reaches step 6 by two reads and the store of the sum at the first operand. -/
theorem addiAddsIntoTheFirst : Obligations.AddiAddsIntoTheFirst :=
  fun _ _ w1 w2 r _ _ _ ha hb hsum hc => exec_of_countsFrom ⟨w1, w2, r, ha, hb, hsum, rfl⟩ hc

/-- Settles O38: SUBI reaches step 6 by two reads and the store of the difference at the second operand. -/
theorem subiSubtractsIntoTheSecond : Obligations.SubiSubtractsIntoTheSecond :=
  fun _ _ w1 w2 r _ _ _ ha hb hdiff hc => exec_of_countsFrom ⟨w1, w2, r, ha, hb, hdiff, rfl⟩ hc

end Sys2Proof.Machine
end

section
/-! PROOFS. The stack (O39, O40, O41, O56). PUSH and POP reach step 6 as data movement does; for a PUSH
followed by a POP, the state after each of the two ticks has a name and lemmas for its cells. -/

namespace Sys2Proof.Machine

/-! ### What completes -/

/-- Settles O39: PUSH reaches step 6 by a read and a push. -/
theorem pushStoresOnTheStack : Obligations.PushStoresOnTheStack :=
  fun _ w sp q _ _ _ ha hpush hc => exec_of_countsFrom ⟨w, sp, q, ha, hpush, rfl⟩ hc

/-- Settles O40: POP reaches step 6 by a pop and a store. -/
theorem popTakesFromTheStack : Obligations.PopTakesFromTheStack :=
  fun _ w sp _ _ _ hpop ha hc => exec_of_countsFrom ⟨w, sp, hpop, ha, rfl⟩ hc

/-! ### The frame -/

/-- The addresses a stack instruction stores to: the cell `d` that takes the word, PC, SP and `TIC`. -/
def StackCells (d : Word) (a : Nat) : Prop := (a : Int) = d.toInt ∨ a ∈ [0, 1, 3]

section stores
variable {s t : State}

theorem StackCells.of_mapped {d : Word} (h : s.Mapped d.toInt) : StackCells d d.toInt.toNat :=
  .inl (Int.toNat_of_nonneg h.1)

theorem Stores.cell_of_stackCells {d : Word} (h : Stores (StackCells d) s t) {a : Nat}
    (hd : (a : Int) ≠ d.toInt) (ha : a ∉ [0, 1, 3]) : t.cell a = s.cell a :=
  h.outside a (not_or.2 ⟨hd, ha⟩)

theorem autoAdvance_stackStores {d : Word} (h : s.autoAdvance = .ok t) :
    Stores (StackCells d) s t := autoAdvance_stores h (.inr (by simp)) (.inr (by simp))

/-- A push and step 6 store to the stack cell at SP, to SP, PC and `TIC` only (R191, R149). -/
theorem pushAndAdvance_stores {v : Result Int} (h : s.push v >>= State.autoAdvance = .ok t) :
    ∃ sp, s.HoldsReg .sp sp ∧ Stores (StackCells sp) s t := by
  obtain ⟨s1, hpush, hadv⟩ := (bind_ok _ _ t).1 h
  obtain ⟨sp, _, _, hsp, -⟩ := (s.push_ok v s1).1 hpush
  refine ⟨sp, hsp, (push_stores hpush (.inr (by simp)) fun p hp hm => ?_).trans
    (autoAdvance_stackStores hadv)⟩
  obtain rfl : sp = p := Cell.num.inj (hsp.symm.trans hp)
  exact .of_mapped hm

/-- A pop, a store to the operand `x` and step 6 store to `x`, to SP, PC and `TIC` only (R192, R149). -/
theorem popAndStore_stores {s1 : State} {x w : Word} (hpop : s.pop = .ok (w, s1))
    (h : s1.writeOperand x w.toInt >>= State.autoAdvance = .ok t) : Stores (StackCells x) s t := by
  obtain ⟨s2, hstore, hadv⟩ := (bind_ok _ _ t).1 h
  exact ((pop_stores hpop (.inr (by simp))).trans (writeOperand_stores hstore .of_mapped)).trans
    (autoAdvance_stackStores hadv)

end stores

/-- Settles O56: what completes is a push, or a pop and a store, and step 6. -/
theorem stackInstructionsFrame : Obligations.StackInstructionsFrame := by
  refine ⟨fun x s t h => ?push, fun x s t h => ?pop⟩
  case push =>
    refine commit_completes_or_faulted h fun hok => ?_
    obtain ⟨_, -, hrest⟩ := (bind_ok _ _ t).1 hok
    obtain ⟨p, hp, hst⟩ := pushAndAdvance_stores hrest
    refine ⟨hst.frame, fun sp hsp a => ?_⟩
    obtain rfl : p = sp := Cell.num.inj (hp.symm.trans hsp)
    exact hst.cell_of_stackCells
  case pop =>
    refine commit_completes_or_faulted h fun hok => ?_
    obtain ⟨⟨_, _⟩, hpop, hrest⟩ := (bind_ok _ _ t).1 hok
    have hst : Stores (StackCells x) s t := popAndStore_stores hpop hrest
    exact ⟨hst.frame, fun _ => hst.cell_of_stackCells⟩

/-! ### PUSH and then POP -/

/-- A word counted down in range has the value counted down. -/
theorem toInt_sub_one {w : Word} (h : xmin < w.toInt) : (w - 1).toInt = w.toInt - 1 := by
  rw [← ofInt_sub_one]
  exact toInt_ofInt_of_fits _ ((fitsWord_sub_one w).2 h)

@[simp] theorem State.cell_advanced (s : State) (p n : Word) (a : Nat) :
    (s.advanced p n).cell a =
      if 3 = a then .num (n + 1) else if 0 = a then .num (p + 1) else s.cell a := by
  simp [State.advanced]

@[simp] theorem State.cell_pushed (s : State) (sp v q : Word) (a : Nat) :
    (s.pushed sp v q).cell a =
      if 1 = a then .num (q - 1) else if sp.toInt.toNat = a then .num v else s.cell a := by
  simp [State.pushed]

@[simp] theorem State.cell_popped (s : State) (sp : Word) (a : Nat) :
    (s.popped sp).cell a = if 1 = a then .num (sp + 1) else s.cell a := by
  simp [State.popped]

/-- A cell above `TIC` is none of the registers PUSH and POP use (R25). -/
theorem toNat_not_mem_used {d : Word} (h : 3 < d.toInt) : d.toInt.toNat ∉ [0, 1, 3] := by
  simp only [List.mem_cons, List.not_mem_nil, or_false]
  omega

section pushPop
variable {s : State} {sp c w p n : Word}

/-- The state after the tick of a `PUSH` that stores `w` on a stack cell other than SP (R191, R149). -/
def State.pushTicked (s : State) (sp w p n : Word) : State := (s.pushed sp w sp).advanced p n

/-- The state after that PUSH and the tick of a `POP c` (R192, R149). -/
def State.pushPopTicked (s : State) (sp c w p n : Word) : State :=
  (((s.pushTicked sp w p n).popped (sp - 1)).poke c.toInt.toNat w).advanced (p + 1) (n + 1)

theorem State.Writable.canPush (hw : s.Writable sp.toInt) (hsp : s.HoldsReg .sp sp)
    (hlow : 3 < sp.toInt) : s.CanPush sp w sp := by
  refine ⟨hsp, hw, ?_, by simp only [xmin]; omega⟩
  rw [State.HoldsReg, State.cell_poke, Reg.addr_sp, if_neg (by omega)]
  exact hsp

/-- Step 6 counts up after a push on a stack cell that is neither PC nor `TIC`. -/
theorem State.CountsFrom.pushed (h : s.CountsFrom p n) (hlow : 3 < sp.toInt) :
    (s.pushed sp w sp).CountsFrom p n := by
  obtain ⟨hp, hpx, hn, hnx⟩ := h
  refine ⟨?_, hpx, ?_, hnx⟩
  · rw [State.HoldsReg, State.cell_pushed, Reg.addr_pc, if_neg (by omega), if_neg (by omega)]
    exact hp
  · rw [State.HoldsReg, State.cell_pushed, Reg.addr_tic, if_neg (by omega), if_neg (by omega)]
    exact hn

/-- After the PUSH, a pop gives the word back: its stack cell is the one the push stored to. -/
theorem State.Writable.canPop_pushTicked (hw : s.Writable sp.toInt) (hlow : 3 < sp.toInt) :
    (s.pushTicked sp w p n).CanPop (sp - 1) w := by
  have hval : (sp - 1).toInt = sp.toInt - 1 := toInt_sub_one (by simp only [xmin]; omega)
  have hmax := (fitsWord_toInt sp).2
  refine ⟨by simp [State.HoldsReg, State.pushTicked], by omega, ?_⟩
  rw [hval, Int.sub_add_cancel]
  refine ⟨hw.1, hw.2, ?_⟩
  rw [State.Holds, State.cell_poke, Reg.addr_sp, if_neg (by omega), State.pushTicked,
    State.cell_advanced, if_neg (by omega), if_neg (by omega), State.cell_pushed,
    if_neg (by omega), if_pos rfl]

/-- After the PUSH and the POP's stores, the counters are those the PUSH left. -/
theorem State.countsFrom_popped_pushTicked (s : State) (sp w : Word) (hc : 3 < c.toInt)
    (hpx : (p + 1).toInt < xmax) (hnx : (n + 1).toInt < xmax) :
    (((s.pushTicked sp w p n).popped (sp - 1)).poke c.toInt.toNat w).CountsFrom (p + 1) (n + 1) := by
  refine ⟨?_, hpx, ?_, hnx⟩
  · rw [State.HoldsReg, State.cell_poke, Reg.addr_pc, if_neg (by omega)]
    simp [State.pushTicked]
  · rw [State.HoldsReg, State.cell_poke, Reg.addr_tic, if_neg (by omega)]
    simp [State.pushTicked]

/-- The cells after the two ticks that are none of the registers they use. -/
theorem State.cell_pushPopTicked (s : State) (sp c w p n : Word) {a : Nat} (ha : a ∉ [0, 1, 3]) :
    (s.pushPopTicked sp c w p n).cell a =
      if c.toInt.toNat = a then .num w else if sp.toInt.toNat = a then .num w else s.cell a := by
  obtain ⟨h0, h1, h3⟩ : 0 ≠ a ∧ 1 ≠ a ∧ 3 ≠ a := by
    simpa [eq_comm] using ha
  simp [State.pushPopTicked, State.pushTicked, h0, h1, h3]

theorem State.pushPopTicked_registers (s : State) (sp w p n : Word) (hc : 3 < c.toInt) :
    (s.pushPopTicked sp c w p n).HoldsReg .sp sp ∧
      (s.pushPopTicked sp c w p n).HoldsReg .pc (p + 2) ∧
      (s.pushPopTicked sp c w p n).HoldsReg .tic (n + 2) := by
  have h1 : c.toInt.toNat ≠ 1 := by omega
  simp [State.HoldsReg, State.pushPopTicked, h1, BitVec.add_assoc]

end pushPop

/-- Settles O41: the pop after the push reads the cell the push stored to and counts SP back up. -/
theorem pushThenPopRestores : Obligations.PushThenPopRestores := by
  intro a c w sp p n s ha hsp hspw hcw hsplow hclow hp hpx hn hnx
  have hp1 : p.toInt < xmax := by omega
  have hn1 : n.toInt < xmax := by omega
  have hp2 : (p + 1).toInt < xmax := by rw [toInt_add_one hp1]; omega
  have hn2 : (n + 1).toInt < xmax := by rw [toInt_add_one hn1]; omega
  have hcount : s.CountsFrom p n := ⟨hp, hp1, hn, hn1⟩
  have hpush : exec (.push a) s = .next (s.pushTicked sp w p n) :=
    pushStoresOnTheStack a w sp sp s p n ha (hspw.canPush hsp hsplow) (hcount.pushed hsplow)
  have hpop : exec (.pop c) (s.pushTicked sp w p n) = .next (s.pushPopTicked sp c w p n) :=
    popTakesFromTheStack c w (sp - 1) _ (p + 1) (n + 1) (hspw.canPop_pushTicked hsplow) hcw
      (s.countsFrom_popped_pushTicked sp w hclow hp2 hn2)
  obtain ⟨hsp', hp', hn'⟩ := s.pushPopTicked_registers sp w p n hclow
  refine ⟨_, _, hpush, hpop, ?moved, hsp', hp', hn', fun _ => ?stays, fun b hb hbsp hbc => ?frame⟩
  case moved => rw [State.Holds, s.cell_pushPopTicked _ _ _ _ _ (toNat_not_mem_used hclow), if_pos rfl]
  case stays =>
    rw [State.Holds, s.cell_pushPopTicked _ _ _ _ _ (toNat_not_mem_used hsplow), if_pos rfl, ite_self]
  case frame => rw [s.cell_pushPopTicked _ _ _ _ _ hb, if_neg (by omega), if_neg (by omega)]

end Sys2Proof.Machine
end

section
/-! PROOFS. Control transfer (O42 to O45), and the frame of the instructions that persist the context (O57).
What completes is put together from the persist, the push and the pop. For a CALL followed by a RET the state
after each has a name and a lemma for its cells. A frame is the persist's two stores and the stores made
besides it. -/

namespace Sys2Proof.Machine

/-! ### What completes -/

/-- A register takes any word (R69). -/
theorem State.setReg_word (s : State) (r : Reg) (w : Word) :
    s.setReg r w.toInt = .ok (s.poke r.addr w) :=
  (s.setReg_ok r _ _).2 ⟨fitsWord_toInt w, by rw [ofInt_toInt]⟩

/-- Settles O42: a taken JIF persists and sets PC; one that is not taken reaches step 6. -/
theorem jifJumpsOnNonPositive : Obligations.JifJumpsOnNonPositive := by
  refine ⟨?taken, ?notTaken⟩
  case taken =>
    intro a t w i base p q s ha hle hpersist
    have htaken : jumpTaken w = true := (jumpTaken_iff w).2 hle
    show commit _ s _ = _
    simp only [ha.readOperand, ok_bind, if_pos htaken, hpersist.persistContext, State.setReg_word,
      commit_ok]
  case notTaken =>
    intro a t w p n s ha hpos hc
    exact exec_of_countsFrom ⟨w, ha, hpos, rfl⟩ hc

/-- Settles O43: the return address is the word `PC + 1`, which the push stores. -/
theorem callPushesAndJumps : Obligations.CallPushesAndJumps := by
  intro t sp p q i base p' q' s hp hmax hpush hpersist
  have hret : s.returnAddress = .ok (p + 1).toInt :=
    (s.returnAddress_ok _).2 ⟨p, hp, toInt_add_one hmax⟩
  show commit _ s _ = _
  simp only [hret, hpush.push, hpersist.persistContext, State.setReg_word, ok_bind, commit_ok]

/-- Settles O44: RET is the persist, the pop and the store of the word popped in PC. -/
theorem retPopsIntoPc : Obligations.RetPopsIntoPc := by
  intro i base p q sp w s hpersist hpop
  show commit _ s _ = _
  simp only [hpersist.persistContext, hpop.pop, State.setReg_word, ok_bind, commit_ok]

/-! ### The frame -/

/-- A register holds one word. -/
theorem State.HoldsReg.unique {s : State} {r : Reg} {w w' : Word} (h : s.HoldsReg r w)
    (h' : s.HoldsReg r w') : w = w' := Cell.num.inj (h.symm.trans h')

/-- The words of slot `i` that persisting the context stores to (R242), and the addresses in `A`. -/
def PersistCells (A : Nat → Prop) (cfg : Params) (base i : Word) (a : Nat) : Prop :=
  A a ∨ (a : Int) = slotAddr cfg base i.toInt .savedPc ∨
    (a : Int) = slotAddr cfg base i.toInt .savedSp

/-- `t` is `s` after stores to the saved words of the slot that is current in `s`, and in `A`. -/
def PersistStores (A : Nat → Prop) (s t : State) : Prop :=
  ∃ i base, s.HoldsReg .ctid i ∧ s.HoldsReg .ttb base ∧ Stores (PersistCells A s.cfg base i) s t

section persistStores
variable {A : Nat → Prop} {s t u : State}

theorem persistContext_persistStores (h : persistContext s = .ok t) : PersistStores A s t := by
  obtain ⟨i, base, -, -, hi, -, hb, -⟩ := (persistContext_ok s t).1 h
  refine ⟨i, base, hi, hb, persistContext_stores h fun i' base' k hi' _ hb' hk hm => .inr ?_⟩
  obtain rfl := hi.unique hi'
  obtain rfl := hb.unique hb'
  cases k with
  | state => exact absurd rfl hk
  | savedPc => exact .inl (Int.toNat_of_nonneg hm.1)
  | savedSp => exact .inr (Int.toNat_of_nonneg hm.1)

theorem PersistStores.trans (h : PersistStores A s t) (h' : Stores A t u) : PersistStores A s u := by
  obtain ⟨i, base, hi, hb, hst⟩ := h
  exact ⟨i, base, hi, hb, hst.trans (h'.mono fun _ => .inl)⟩

/-- Persisting and setting PC, with which a taken JIF, CALL and USER end, stores to PC besides (R242). -/
theorem persistThenJump_persistStores {v : Int} (h0 : A 0)
    (h : (persistContext s >>= fun s1 => s1.setReg .pc v) = .ok t) : PersistStores A s t := by
  obtain ⟨s1, hpersist, hpc⟩ := (bind_ok _ _ t).1 h
  exact (persistContext_persistStores hpersist).trans (setReg_stores hpc h0)

theorem PersistStores.frame (h : PersistStores A s t) : t = { s with mem := t.mem } := by
  obtain ⟨_, _, -, -, hst⟩ := h
  exact hst.frame

theorem PersistStores.cell_other (h : PersistStores A s t) {i base : Word} (hi : s.HoldsReg .ctid i)
    (hb : s.HoldsReg .ttb base) {a : Nat} (hpc : (a : Int) ≠ slotAddr s.cfg base i.toInt .savedPc)
    (hsp : (a : Int) ≠ slotAddr s.cfg base i.toInt .savedSp) (hA : ¬ A a) : t.cell a = s.cell a := by
  obtain ⟨i', base', hi', hb', hst⟩ := h
  obtain rfl := hi.unique hi'
  obtain rfl := hb.unique hb'
  exact hst.outside a (not_or.2 ⟨hA, not_or.2 ⟨hpc, hsp⟩⟩)

end persistStores

/-- A JIF that completes has persisted and jumped where the word is at most zero, and counted up where it is
above (R200). -/
theorem jif_stores {s t : State} {w y : Word}
    (h : (if jumpTaken w then persistContext s >>= fun s1 => s1.setReg .pc y.toInt
      else s.autoAdvance) = .ok t) :
    (w.toInt ≤ 0 ∧ PersistStores (· = 0) s t) ∨ (0 < w.toInt ∧ Stores (· ∈ [0, 3]) s t) := by
  by_cases hj : jumpTaken w = true
  · rw [if_pos hj] at h
    exact .inl ⟨(jumpTaken_iff w).1 hj, persistThenJump_persistStores rfl h⟩
  · rw [if_neg hj] at h
    exact .inr ⟨not_le.1 fun hle => hj ((jumpTaken_iff w).2 hle),
      autoAdvance_stores h (by simp) (by simp)⟩

/-- The addresses a CALL with stack cell `sp` stores to besides the persist: that cell, PC and SP. -/
def CallCells (sp : Word) (a : Nat) : Prop := (a : Int) = sp.toInt ∨ a ∈ [0, 1]

theorem push_callStores {s u : State} {v : Result Int} {sp : Word} (hsp : s.HoldsReg .sp sp)
    (h : s.push v = .ok u) : Stores (CallCells sp) s u := by
  refine push_stores h (.inr (by simp)) fun p hp hm => .inl ?_
  obtain rfl := hsp.unique hp
  exact Int.toNat_of_nonneg hm.1

/-- Settles O57: what completes is a persist, and besides it a jump, a push or a pop. -/
theorem persistingInstructionsFrame : Obligations.PersistingInstructionsFrame := by
  refine ⟨fun x y s t h => ?jif, fun x s t h => ?call, fun s t h => ?ret, fun x s t h => ?user⟩
  case jif =>
    refine commit_completes_or_faulted h fun hok => ?_
    obtain ⟨w', hread, hrest⟩ := (bind_ok _ _ t).1 hok
    obtain ⟨-, -, hw'⟩ := (s.readOperand_ok x w').1 hread
    have hword : ∀ w, s.Holds x.toInt w → w' = w := fun w hw => Cell.num.inj (hw'.symm.trans hw)
    rcases jif_stores hrest with ⟨hle, hst⟩ | ⟨hpos, hst⟩
    · refine ⟨hst.frame, fun w hw => ?_⟩
      obtain rfl := hword w hw
      exact ⟨fun hpos => absurd hle (not_le.2 hpos),
        fun _ i base hi hb a hpc hsp h0 => hst.cell_other hi hb hpc hsp h0⟩
    · refine ⟨hst.frame, fun w hw => ?_⟩
      obtain rfl := hword w hw
      exact ⟨fun _ => hst.outside, fun hle => absurd hle (not_le.2 hpos)⟩
  case call =>
    refine commit_completes_or_faulted h fun hok => ?_
    obtain ⟨u, hpush, hrest⟩ := (bind_ok _ _ t).1 hok
    obtain ⟨sp, -, -, hsp, -⟩ := (s.push_ok _ u).1 hpush
    have hst : Stores (CallCells sp) s u := push_callStores hsp hpush
    have hps : PersistStores (CallCells sp) u t :=
      persistThenJump_persistStores (.inr (by simp)) hrest
    refine ⟨?_, fun sp' i base u' hsp' hpush' hi hb a hstack hpc hsps hown => ?_⟩
    · rw [hps.frame, hst.frame]
    · obtain rfl := hsp.unique hsp'
      obtain rfl := Except.ok.inj (hpush.symm.trans hpush')
      rw [← hst.cfg] at hpc hsps
      have hout : ¬ CallCells sp a := not_or.2 ⟨hstack, hown⟩
      exact (hps.cell_other hi hb hpc hsps hout).trans (hst.outside a hout)
  case ret =>
    refine commit_completes_or_faulted h fun hok => ?_
    obtain ⟨s1, hpersist, hrest⟩ := (bind_ok _ _ t).1 hok
    obtain ⟨⟨w, s2⟩, hpop, hpc⟩ := (bind_ok _ _ t).1 hrest
    have hst : PersistStores (· ∈ [0, 1]) s t := (persistContext_persistStores hpersist).trans
      ((pop_stores hpop (by simp)).trans (setReg_stores hpc (by simp)))
    exact ⟨hst.frame, fun i base hi hb a => hst.cell_other hi hb⟩
  case user =>
    refine commit_completes_or_faulted h fun hok => ?_
    obtain ⟨w, -, hrest⟩ := (bind_ok _ _ t).1 hok
    have hst : PersistStores (· = 0) s.enterUser t := persistThenJump_persistStores rfl hrest
    exact ⟨hst.frame, fun i base hi hb a hpc hsp h0 => hst.cell_other hi hb hpc hsp h0⟩

/-! ### CALL and then RET -/

@[simp] theorem State.pushed_cfg (s : State) (sp v q : Word) : (s.pushed sp v q).cfg = s.cfg := rfl
@[simp] theorem State.persisted_cfg (s : State) (i base p q : Word) :
    (s.persisted i base p q).cfg = s.cfg := rfl

@[simp] theorem State.cell_persisted (s : State) (i base p q : Word) (a : Nat) :
    (s.persisted i base p q).cell a =
      if (slotAddr s.cfg base i.toInt .savedSp).toNat = a then .num q
      else if (slotAddr s.cfg base i.toInt .savedPc).toNat = a then .num p else s.cell a := by
  simp [State.persisted]

/-- A slot whose words are cells but no control registers takes the context as the registers hold it
(R242, R343(d)). -/
theorem State.canPersist_of_slotClear {s : State} {i base p q : Word} (hi : s.HoldsReg .ctid i)
    (hv : s.validId i.toInt = true) (hb : s.HoldsReg .ttb base) (hp : s.HoldsReg .pc p)
    (hq : s.HoldsReg .sp q) (hm : s.SlotMapped base i.toInt) (hc : SlotClear s.cfg base i.toInt) :
    s.CanPersist i base p q := by
  obtain ⟨-, hmpc, hmsp⟩ := hm
  obtain ⟨-, hcpc, -⟩ := hc
  refine ⟨hi, hv, hb, hp, hmpc, ?_, hmsp⟩
  rw [State.HoldsReg, State.cell_poke, Reg.addr_sp, if_neg (by omega)]
  exact hq

/-- What a CALL and the RET after it need: the registers, a slot and a stack cell clear of each other and of
the control registers (S6 of the test vectors; R343(d)). -/
structure State.CallReady (s : State) (sp p i base : Word) : Prop where
  holdsPc : s.HoldsReg .pc p
  pc_lt : p.toInt < xmax
  holdsSp : s.HoldsReg .sp sp
  writable : s.Writable sp.toInt
  lt_sp : 6 < sp.toInt
  holdsCtid : s.HoldsReg .ctid i
  valid : s.validId i.toInt = true
  holdsTtb : s.HoldsReg .ttb base
  mapped : s.SlotMapped base i.toInt
  clear : SlotClear s.cfg base i.toInt
  sp_ne_savedPc : sp.toInt ≠ slotAddr s.cfg base i.toInt .savedPc
  sp_ne_savedSp : sp.toInt ≠ slotAddr s.cfg base i.toInt .savedSp

/-- The state after a `CALL t` that pushes on a stack cell other than SP (R201). -/
def State.called (s : State) (t sp p i base : Word) : State :=
  ((s.pushed sp (p + 1) sp).persisted i base p (sp - 1)).poke Reg.pc.addr t

/-- The state after that CALL and a RET (R202). -/
def State.callReturned (s : State) (t sp p i base : Word) : State :=
  (((s.called t sp p i base).persisted i base t (sp - 1)).popped (sp - 1)).poke Reg.pc.addr (p + 1)

@[simp] theorem State.called_cfg (s : State) (t sp p i base : Word) :
    (s.called t sp p i base).cfg = s.cfg := rfl

theorem State.cell_called (s : State) (t sp p i base : Word) (a : Nat) :
    (s.called t sp p i base).cell a =
      if 0 = a then .num t
      else if (slotAddr s.cfg base i.toInt .savedSp).toNat = a then .num (sp - 1)
      else if (slotAddr s.cfg base i.toInt .savedPc).toNat = a then .num p
      else if 1 = a then .num (sp - 1)
      else if sp.toInt.toNat = a then .num (p + 1) else s.cell a := by
  simp [State.called]

theorem State.cell_callReturned (s : State) (t sp p i base : Word) (a : Nat) :
    (s.callReturned t sp p i base).cell a =
      if 0 = a then .num (p + 1)
      else if 1 = a then .num sp
      else if (slotAddr s.cfg base i.toInt .savedSp).toNat = a then .num (sp - 1)
      else if (slotAddr s.cfg base i.toInt .savedPc).toNat = a then .num t
      else (s.called t sp p i base).cell a := by
  rw [State.callReturned, State.cell_poke, Reg.addr_pc, State.cell_popped, State.cell_persisted,
    State.called_cfg, BitVec.sub_add_cancel]

section callReady
variable {s : State} {sp p i base : Word}

/-- After the push, the registers but SP are as they were (R190). -/
theorem State.CallReady.pushed_holdsReg (h : s.CallReady sp p i base) {r : Reg} {v q w : Word}
    (hr : r ≠ .sp) (hw : s.HoldsReg r w) : (s.pushed sp v q).HoldsReg r w := by
  have hlow := h.lt_sp
  have haddr := r.addr_lt
  have hne : 1 ≠ r.addr := by
    cases r with
    | sp => exact absurd rfl hr
    | pc | lsr | tic | ctid | atc | ttb => decide
  rw [State.HoldsReg, State.cell_pushed, if_neg hne, if_neg (by omega)]
  exact hw

/-- The CALL persists the context after its push. -/
theorem State.CallReady.canPersist_pushed (h : s.CallReady sp p i base) :
    (s.pushed sp (p + 1) sp).CanPersist i base p (sp - 1) :=
  State.canPersist_of_slotClear (h.pushed_holdsReg (by decide) h.holdsCtid) h.valid
    (h.pushed_holdsReg (by decide) h.holdsTtb) (h.pushed_holdsReg (by decide) h.holdsPc)
    (by simp [State.HoldsReg]) h.mapped h.clear

theorem State.CallReady.exec_call (h : s.CallReady sp p i base) (t : Word) :
    exec (.call t) s = .next (s.called t sp p i base) := by
  have hlow : 3 < sp.toInt := by have := h.lt_sp; omega
  exact callPushesAndJumps t sp p sp i base p (sp - 1) s h.holdsPc h.pc_lt
    (h.writable.canPush h.holdsSp hlow) h.canPersist_pushed

/-- After the CALL, the registers but PC and SP are as they were (R201). -/
theorem State.CallReady.called_holdsReg (h : s.CallReady sp p i base) {r : Reg} {t w : Word}
    (hpc : r ≠ .pc) (hsp : r ≠ .sp) (hw : s.HoldsReg r w) :
    (s.called t sp p i base).HoldsReg r w := by
  obtain ⟨-, hcpc, hcsp⟩ := h.clear
  have haddr := r.addr_lt
  have hne : 0 ≠ r.addr := by
    cases r with
    | pc => exact absurd rfl hpc
    | sp | lsr | tic | ctid | atc | ttb => decide
  rw [State.called, State.HoldsReg, State.cell_poke, Reg.addr_pc, if_neg hne,
    h.canPersist_pushed.cell_other (by simp only [State.pushed_cfg]; omega)
      (by simp only [State.pushed_cfg]; omega)]
  exact h.pushed_holdsReg hsp hw

theorem State.called_holds_pc (s : State) (t sp p i base : Word) :
    (s.called t sp p i base).HoldsReg .pc t := by
  simp [State.HoldsReg, State.called]

/-- The CALL has counted SP down (R190). -/
theorem State.CallReady.called_holds_sp (h : s.CallReady sp p i base) (t : Word) :
    (s.called t sp p i base).HoldsReg .sp (sp - 1) := by
  obtain ⟨-, hcpc, hcsp⟩ := h.clear
  rw [State.HoldsReg, Reg.addr_sp, State.cell_called, if_neg (by omega), if_neg (by omega),
    if_neg (by omega), if_pos rfl]

/-- The CALL has saved its own address (R201, R242). -/
theorem State.CallReady.called_holds_savedPc (h : s.CallReady sp p i base) (t : Word) :
    (s.called t sp p i base).Holds (slotAddr s.cfg base i.toInt .savedPc) p := by
  obtain ⟨-, hcpc, -⟩ := h.clear
  have hnext := slotAddr_savedSp s.cfg base i.toInt
  rw [State.Holds, State.cell_called, if_neg (by omega), if_neg (by omega), if_pos rfl]

/-- The CALL has left the return address on the stack: the stack cell is no word of the slot (R201). -/
theorem State.CallReady.called_holds_stack (h : s.CallReady sp p i base) (t : Word) :
    (s.called t sp p i base).Holds sp.toInt (p + 1) := by
  have hlow := h.lt_sp
  have hpc := h.sp_ne_savedPc
  have hsp := h.sp_ne_savedSp
  obtain ⟨-, hcpc, hcsp⟩ := h.clear
  rw [State.Holds, State.cell_called, if_neg (by omega), if_neg (by omega), if_neg (by omega),
    if_neg (by omega), if_pos rfl]

/-- The RET persists the context the CALL left. -/
theorem State.CallReady.canPersist_called (h : s.CallReady sp p i base) (t : Word) :
    (s.called t sp p i base).CanPersist i base t (sp - 1) :=
  State.canPersist_of_slotClear (h.called_holdsReg (by decide) (by decide) h.holdsCtid) h.valid
    (h.called_holdsReg (by decide) (by decide) h.holdsTtb) (s.called_holds_pc t sp p i base)
    (h.called_holds_sp t) h.mapped h.clear

/-- The RET pops the return address the CALL pushed: its persist touches neither SP nor the stack cell. -/
theorem State.CallReady.canPop_called (h : s.CallReady sp p i base) (t : Word) :
    ((s.called t sp p i base).persisted i base t (sp - 1)).CanPop (sp - 1) (p + 1) := by
  have hlow := h.lt_sp
  have hmax := (fitsWord_toInt sp).2
  have hval : (sp - 1).toInt = sp.toInt - 1 := toInt_sub_one (by simp only [xmin]; omega)
  obtain ⟨-, hcpc, hcsp⟩ := h.clear
  have hpersist := h.canPersist_called t
  refine ⟨?sp, by omega, ?stack⟩
  case sp =>
    rw [State.HoldsReg, hpersist.cell_other (by simp only [State.called_cfg, Reg.addr_sp]; omega)
      (by simp only [State.called_cfg, Reg.addr_sp]; omega)]
    exact h.called_holds_sp t
  case stack =>
    rw [hval, Int.sub_add_cancel]
    refine ⟨h.writable.1, h.writable.2, ?_⟩
    have hcast : (sp.toInt.toNat : Int) = sp.toInt := Int.toNat_of_nonneg (by omega)
    rw [State.Holds, State.cell_poke, Reg.addr_sp, if_neg (by omega),
      hpersist.cell_other (hcast ▸ h.sp_ne_savedPc) (hcast ▸ h.sp_ne_savedSp)]
    exact h.called_holds_stack t

theorem State.CallReady.exec_ret (h : s.CallReady sp p i base) (t : Word) :
    exec .ret (s.called t sp p i base) = .next (s.callReturned t sp p i base) :=
  retPopsIntoPc i base t (sp - 1) (sp - 1) (p + 1) _ (h.canPersist_called t) (h.canPop_called t)

theorem State.callReturned_registers (s : State) (t sp p i base : Word) :
    (s.callReturned t sp p i base).HoldsReg .pc (p + 1) ∧
      (s.callReturned t sp p i base).HoldsReg .sp sp := by
  simp [State.HoldsReg, State.cell_callReturned]

/-- The RET has saved the address it was fetched from (R202, R242). -/
theorem State.CallReady.callReturned_holds_savedPc (h : s.CallReady sp p i base) (t : Word) :
    (s.callReturned t sp p i base).Holds (slotAddr s.cfg base i.toInt .savedPc) t := by
  obtain ⟨-, hcpc, -⟩ := h.clear
  have hnext := slotAddr_savedSp s.cfg base i.toInt
  rw [State.Holds, State.cell_callReturned, if_neg (by omega), if_neg (by omega),
    if_neg (by omega), if_pos rfl]

end callReady

/-- Settles O45: the RET pops the cell the CALL pushed, which no persist in between has touched. -/
theorem callThenRetReturns : Obligations.CallThenRetReturns := by
  intro t sp p i base s hp hpx hsp hw hlow hi hv hb hm hc hnePc hneSp
  have h : s.CallReady sp p i base := ⟨hp, hpx, hsp, hw, hlow, hi, hv, hb, hm, hc, hnePc, hneSp⟩
  obtain ⟨hpc', hsp'⟩ := s.callReturned_registers t sp p i base
  exact ⟨_, _, h.exec_call t, s.called_holds_pc t sp p i base, h.called_holds_savedPc t, h.exec_ret t,
    hpc', hsp', h.callReturned_holds_savedPc t⟩

end Sys2Proof.Machine
end

section
/-! PROOFS. Switching threads: the scan, as the threads it finds Ready or not, and `switchTo`, once the
outgoing thread is saved, as the loading of the incoming thread or as a halt (R243, R244). -/

namespace Sys2Proof.Machine

/-! ### The scan -/

section scan
variable {s : State} {base : Word} {cur n i : Int}

theorem numberNotReady_iff (c : Cell) :
    numberNotReady c = true ↔ ∃ w, c = .num w ∧ w.toInt ≠ 1 := by
  cases c <;> simp [numberNotReady]

theorem State.NotReady.slotRead (h : s.NotReady base i) (hb : s.HoldsReg .ttb base) :
    ∃ w, s.slotRead i .state = .ok w ∧ w.toInt ≠ 1 := by
  obtain ⟨hm, hc⟩ := h
  obtain ⟨w, hw, hne⟩ := (numberNotReady_iff _).1 hc
  exact ⟨w, (s.slotRead_ok i .state w).2 ⟨base, hb, hm, hw⟩, hne⟩

theorem State.Ready.slotRead (h : s.Ready base i) (hb : s.HoldsReg .ttb base) :
    s.slotRead i .state = .ok 1 := (s.slotRead_ok i .state 1).2 ⟨base, hb, h⟩

/-- The scan answers the first Ready thread (R243). -/
theorem State.FirstReady.selectNextReady (h : s.FirstReady base cur n)
    (hb : s.HoldsReg .ttb base) : selectNextReady s cur = .ok n := by
  obtain ⟨j, hj, hjmax, hn, hready, hbefore⟩ := h
  obtain ⟨d, rfl⟩ := Nat.exists_eq_add_of_le hj
  refine (scanReady_ok s cur _ 1 n).2 (.inl ⟨d, by omega, hn, ⟨1, hready.slotRead hb, rfl⟩, ?_⟩)
  exact fun e he => (hbefore (1 + e) (by omega) (by omega)).slotRead hb

/-- The scan answers none where no thread is Ready (R243). -/
theorem State.NoneReady.selectNextReady (h : s.NoneReady base cur) (hb : s.HoldsReg .ttb base) :
    selectNextReady s cur = .ok noThread :=
  (scanReady_ok s cur _ 1 noThread).2
    (.inr ⟨rfl, fun e he => (h (1 + e) (by omega) (by omega)).slotRead hb⟩)

end scan

/-! ### Saving the outgoing thread -/

section switching
variable {s u : State} {base c n w pc sp : Word}

/-- A thread that is not Running is not saved (R244). -/
theorem saveOutgoing_of_notRunning (hv : s.validId c.toInt = true) (hb : s.HoldsReg .ttb base)
    (hm : s.Mapped (slotAddr s.cfg base c.toInt .state))
    (hw : s.Holds (slotAddr s.cfg base c.toInt .state) w) (hne : w.toInt ≠ 2) :
    saveOutgoing s c.toInt = .ok s :=
  (saveOutgoing_ok s s _).2 (.inr ⟨hv, w, (s.slotRead_ok _ .state w).2 ⟨base, hb, hm, hw⟩,
    .inl ⟨hne, rfl⟩⟩)

/-- A store outside the registers leaves them as they were. -/
theorem State.HoldsReg.poke_of_lt {r : Reg} {a : Nat} (h : s.HoldsReg r w) (ha : 6 < a) (v : Word) :
    (s.poke a v).HoldsReg r w := by
  have haddr := r.addr_lt
  rw [State.HoldsReg, State.cell_poke, if_neg (by omega)]
  exact h

theorem Reg.addr_injective : Function.Injective Reg.addr := by
  intro r r'
  cases r <;> cases r' <;> decide

/-- A store to one register leaves the others as they were. -/
theorem State.HoldsReg.poke_reg {r r' : Reg} (h : s.HoldsReg r w) (hr : r' ≠ r) (v : Word) :
    (s.poke r'.addr v).HoldsReg r w := by
  rw [State.HoldsReg, State.cell_poke, if_neg (Reg.addr_injective.ne hr)]
  exact h

theorem slotAddr_savedPc (cfg : Params) (base : Word) (i : Int) :
    slotAddr cfg base i .savedPc = slotAddr cfg base i .state + 1 := by
  simp only [slotAddr, SlotWord.offset]
  omega

/-- A slot word that is no control register lies above them (R25, R343(d)). -/
theorem SlotClear.lt_slotAddr {cfg : Params} {i : Int} (h : SlotClear cfg base i) (k : SlotWord) :
    6 < slotAddr cfg base i k := by
  obtain ⟨hstate, hpc, hsp⟩ := h
  cases k <;> assumption

/-- A Running thread's registers are saved and it is marked Ready (R244). -/
theorem saveOutgoing_of_running (hv : s.validId c.toInt = true) (hb : s.HoldsReg .ttb base)
    (hm : s.SlotMapped base c.toInt) (hc : SlotClear s.cfg base c.toInt)
    (hp : s.HoldsReg .pc pc) (hsp : s.HoldsReg .sp sp)
    (hw : s.Holds (slotAddr s.cfg base c.toInt .state) w) (hrun : w.toInt = 2) :
    saveOutgoing s c.toInt = .ok
      ((s.persisted c base pc sp).poke (slotAddr s.cfg base c.toInt .state).toNat 1) := by
  obtain ⟨hmState, hmPc, hmSp⟩ := hm
  have hlowPc := hc.lt_slotAddr .savedPc
  have hlowSp := hc.lt_slotAddr .savedSp
  have hb1 := hb.poke_of_lt (a := (slotAddr s.cfg base c.toInt .savedPc).toNat) (by omega) pc
  have hsp1 := hsp.poke_of_lt (a := (slotAddr s.cfg base c.toInt .savedPc).toNat) (by omega) pc
  have hb2 := hb1.poke_of_lt (a := (slotAddr s.cfg base c.toInt .savedSp).toNat) (by omega) sp
  have hread := (s.slotRead_ok c.toInt .state w).2 ⟨base, hb, hmState, hw⟩
  have hsavePc := (s.slotSave_ok c.toInt .savedPc .pc _).2 ⟨base, pc, hb, hp, hmPc, rfl⟩
  have hsaveSp := (State.slotSave_ok _ c.toInt .savedSp .sp _).2 ⟨base, sp, hb1, hsp1, hmSp, rfl⟩
  have hstate := (State.slotWrite_ok _ c.toInt .state 1 _).2 ⟨base, hb2, hmState, by decide, rfl⟩
  exact (saveOutgoing_ok s _ _).2 (.inr ⟨hv, w, hread, .inr ⟨hrun, _, _, hsavePc, hsaveSp, hstate⟩⟩)

/-! ### Loading the incoming thread -/

/-- Thread `n` can be resumed from its slot, which holds the program counter `pc` and the stack pointer
`sp` (R244). -/
structure State.CanResume (s : State) (base n pc sp : Word) : Prop where
  valid : s.validId n.toInt = true
  clear : SlotClear s.cfg base n.toInt
  mapped : s.SlotMapped base n.toInt
  savedPc : s.Holds (slotAddr s.cfg base n.toInt .savedPc) pc
  savedSp : s.Holds (slotAddr s.cfg base n.toInt .savedSp) sp

/-- The state with thread `n` current, its saved registers live, and Running (R244). -/
def State.resumed (s : State) (base n pc sp : Word) : State :=
  (((s.poke Reg.ctid.addr n).poke Reg.pc.addr pc).poke Reg.sp.addr sp).poke
    (slotAddr s.cfg base n.toInt .state).toNat 2

theorem State.cell_resumed (s : State) (base n pc sp : Word) (a : Nat) :
    (s.resumed base n pc sp).cell a =
      if (slotAddr s.cfg base n.toInt .state).toNat = a then .num 2
      else if 1 = a then .num sp else if 0 = a then .num pc else if 4 = a then .num n
      else s.cell a := by
  simp [State.resumed]

/-- A thread is resumable wherever its saved words are as they were. -/
theorem State.CanResume.of_cells (h : s.CanResume base n pc sp) (hcfg : u.cfg = s.cfg)
    (hpc : u.cell (slotAddr s.cfg base n.toInt .savedPc).toNat =
      s.cell (slotAddr s.cfg base n.toInt .savedPc).toNat)
    (hsp : u.cell (slotAddr s.cfg base n.toInt .savedSp).toNat =
      s.cell (slotAddr s.cfg base n.toInt .savedSp).toNat) : u.CanResume base n pc sp := by
  obtain ⟨hv, hc, hm, hpc', hsp'⟩ := h
  refine ⟨?_, hcfg ▸ hc, ?_, ?_, ?_⟩
  · rw [State.validId, hcfg]
    exact hv
  · simp only [State.SlotMapped, State.Mapped, hcfg]
    exact hm
  · rw [State.Holds, hcfg, hpc]
    exact hpc'
  · rw [State.Holds, hcfg, hsp]
    exact hsp'

/-- A store outside the saved words of the thread keeps it resumable. -/
theorem State.CanResume.poke (h : s.CanResume base n pc sp) {a : Nat} (v : Word)
    (hpc : (a : Int) ≠ slotAddr s.cfg base n.toInt .savedPc)
    (hsp : (a : Int) ≠ slotAddr s.cfg base n.toInt .savedSp) :
    (s.poke a v).CanResume base n pc sp := by
  have hlowPc := h.clear.lt_slotAddr .savedPc
  have hlowSp := h.clear.lt_slotAddr .savedSp
  exact h.of_cells rfl (by rw [State.cell_poke, if_neg (by omega)])
    (by rw [State.cell_poke, if_neg (by omega)])

/-- Stores to the control registers keep a thread resumable (R343(d)). -/
theorem State.CanResume.poke_reg (h : s.CanResume base n pc sp) (r : Reg) (v : Word) :
    (s.poke r.addr v).CanResume base n pc sp := by
  have haddr := r.addr_lt
  have hlowPc := h.clear.lt_slotAddr .savedPc
  have hlowSp := h.clear.lt_slotAddr .savedSp
  exact h.poke v (by omega) (by omega)

/-- Switching to a thread that can be resumed, once the outgoing thread is saved (R244). -/
theorem State.CanResume.switchTo (h : u.CanResume base n pc sp) (hb : u.HoldsReg .ttb base)
    (hc : s.HoldsReg .ctid c) (hsave : saveOutgoing s c.toInt = .ok u) :
    switchTo s n.toInt = .ok (u.resumed base n pc sp) := by
  have h1 := h.poke_reg .ctid n
  have h2 := h1.poke_reg .pc pc
  have hb1 := hb.poke_reg (r' := .ctid) (by decide) n
  have hb2 := hb1.poke_reg (r' := .pc) (by decide) pc
  have hb3 := hb2.poke_reg (r' := .sp) (by decide) sp
  obtain ⟨hmState, hmPc, hmSp⟩ := h.mapped
  have hloadPc := (State.slotLoad_ok _ n.toInt .savedPc .pc _).2 ⟨base, pc, hb1, hmPc, h1.savedPc, rfl⟩
  have hloadSp := (State.slotLoad_ok _ n.toInt .savedSp .sp _).2 ⟨base, sp, hb2, hmSp, h2.savedSp, rfl⟩
  have hstate := (State.slotWrite_ok _ n.toInt .state 2 _).2 ⟨base, hb3, hmState, by decide, rfl⟩
  refine (switchTo_ok s _ _).2 ⟨c, u, hc, hsave, fitsWord_toInt n, ?_⟩
  rw [ofInt_toInt]
  exact (loadIncoming_ok _ _ _).2 (.inr ⟨h.valid, _, _, hloadPc, hloadSp, hstate⟩)

/-- The resumed thread's registers are live (R244). -/
theorem State.CanResume.resumed_registers (h : s.CanResume base n pc sp) :
    (s.resumed base n pc sp).HoldsReg .ctid n ∧ (s.resumed base n pc sp).HoldsReg .pc pc ∧
      (s.resumed base n pc sp).HoldsReg .sp sp := by
  have hlow := h.clear.lt_slotAddr .state
  have hne : ∀ r : Reg, (slotAddr s.cfg base n.toInt .state).toNat ≠ r.addr := fun r => by
    have := r.addr_lt
    omega
  simp only [State.HoldsReg, State.cell_resumed, if_neg (hne _)]
  simp

theorem State.resumed_holds_state (s : State) (base n pc sp : Word) :
    (s.resumed base n pc sp).Holds (slotAddr s.cfg base n.toInt .state) 2 := by
  rw [State.Holds, State.cell_resumed, if_pos rfl]

/-- Resuming a thread touches its state word, PC, SP and `CTID` only (R244). -/
theorem State.CanResume.cell_other (h : s.CanResume base n pc sp) {a : Nat} (h0 : a ≠ 0) (h1 : a ≠ 1)
    (h4 : a ≠ 4) (hne : (a : Int) ≠ slotAddr s.cfg base n.toInt .state) :
    (s.resumed base n pc sp).cell a = s.cell a := by
  have hlow := h.clear.lt_slotAddr .state
  rw [State.cell_resumed, if_neg (by omega), if_neg h1.symm, if_neg h0.symm, if_neg h4.symm]

/-- Switching to no thread halts the machine, once the outgoing thread is saved (R244). -/
theorem switchTo_noThread (hc : s.HoldsReg .ctid c) (hsave : saveOutgoing s c.toInt = .ok u) :
    switchTo s noThread = .ok ((u.poke Reg.ctid.addr 0).halt .noReadyThread) :=
  (switchTo_ok s _ _).2 ⟨c, u, hc, hsave, by decide,
    (loadIncoming_ok _ _ _).2 (.inl ⟨rfl, rfl⟩)⟩

end switching

end Sys2Proof.Machine
end

section
/-! PROOFS. Termination (O48). The state after the first part of `TerminateCurrent` has a name; the three
endings are the halt, the resuming of a thread, and the switch to none, on that state. -/

namespace Sys2Proof.Machine

/-- HLT, SYSCALL HLT and BLANK are `TerminateCurrent` (R215, R218, R220). -/
theorem exec_terminates {i : Instr} (hi : i ∈ [Instr.hlt, .syscallHlt, .blank]) (s : State) :
    ∃ o, exec i s = commit o s (terminateCurrent s) := by
  simp only [List.mem_cons, List.not_mem_nil, or_false] at hi
  rcases hi with rfl | rfl | rfl <;> exact ⟨_, rfl⟩

theorem exec_of_terminateCurrent {i : Instr} (hi : i ∈ [Instr.hlt, .syscallHlt, .blank]) {s t : State}
    (h : terminateCurrent s = .ok t) : exec i s = .next t := by
  obtain ⟨o, hexec⟩ := exec_terminates hi s
  rw [hexec, h, commit_ok]

/-- What the first part of `TerminateCurrent` needs: a current thread whose state word is a cell but no
control register, and an `ATC` that can be counted down (R245, R343(d)). -/
structure State.CanTerminate (s : State) (c base atc : Word) : Prop where
  holdsCtid : s.HoldsReg .ctid c
  valid : s.validId c.toInt = true
  holdsTtb : s.HoldsReg .ttb base
  mapped : s.Mapped (slotAddr s.cfg base c.toInt .state)
  lt_state : 6 < slotAddr s.cfg base c.toInt .state
  holdsAtc : s.HoldsReg .atc atc
  lt_atc : xmin < atc.toInt

/-- The state with thread `c` Inactive and `ATC` counted down (R245). -/
def State.terminated (s : State) (c base atc : Word) : State :=
  (s.poke (slotAddr s.cfg base c.toInt .state).toNat 0).poke Reg.atc.addr (atc - 1)

@[simp] theorem State.terminated_cfg (s : State) (c base atc : Word) :
    (s.terminated c base atc).cfg = s.cfg := rfl

theorem State.terminated_holds_atc (s : State) (c base atc : Word) :
    (s.terminated c base atc).HoldsReg .atc (atc - 1) := by
  simp [State.HoldsReg, State.terminated]

section terminate
variable {s : State} {c base atc n pc sp : Word}

/-- Termination touches the thread's state word and `ATC` only (R245). -/
theorem State.CanTerminate.cell_other (h : s.CanTerminate c base atc) {a : Nat} (ha : a ≠ 5)
    (hne : (a : Int) ≠ slotAddr s.cfg base c.toInt .state) :
    (s.terminated c base atc).cell a = s.cell a := by
  have hlow := h.lt_state
  rw [State.terminated, State.cell_poke, Reg.addr_atc, if_neg (Ne.symm ha), State.cell_poke,
    if_neg (by omega)]

theorem State.CanTerminate.terminated_holdsReg (h : s.CanTerminate c base atc) {r : Reg} {w : Word}
    (hr : .atc ≠ r) (hw : s.HoldsReg r w) : (s.terminated c base atc).HoldsReg r w := by
  have hlow := h.lt_state
  exact (hw.poke_of_lt (by omega) 0).poke_reg hr (atc - 1)

theorem State.CanTerminate.holds_state (h : s.CanTerminate c base atc) :
    (s.terminated c base atc).Holds (slotAddr s.cfg base c.toInt .state) 0 := by
  have hlow := h.lt_state
  rw [State.Holds, State.terminated, State.cell_poke, Reg.addr_atc, if_neg (by omega),
    State.cell_poke, if_pos rfl]

/-- A terminated thread is not saved again: it is Inactive (R244). -/
theorem State.CanTerminate.saveOutgoing (h : s.CanTerminate c base atc) :
    saveOutgoing (s.terminated c base atc) c.toInt = .ok (s.terminated c base atc) :=
  saveOutgoing_of_notRunning h.valid (h.terminated_holdsReg (by decide) h.holdsTtb) h.mapped
    h.holds_state (by decide)

/-- `TerminateCurrent` is its second part on the terminated state (R245). -/
theorem State.CanTerminate.terminateCurrent (h : s.CanTerminate c base atc) :
    terminateCurrent s = succeed (s.terminated c base atc) c.toInt := by
  have hlow := h.lt_state
  have hcur : s.currentThread = .ok c.toInt :=
    (s.currentThread_ok _).2 ⟨c, h.holdsCtid, h.valid, rfl⟩
  have hstate : s.slotWrite c.toInt .state ThreadState.inactive.code =
      .ok (s.poke (slotAddr s.cfg base c.toInt .state).toNat 0) :=
    (s.slotWrite_ok _ _ _ _).2 ⟨base, h.holdsTtb, h.mapped, by decide, rfl⟩
  have hatc : (s.poke (slotAddr s.cfg base c.toInt .state).toNat 0).reg .atc = .ok atc :=
    (State.reg_ok _ .atc atc).2 (h.holdsAtc.poke_of_lt (by omega) 0)
  have hcount : (s.poke (slotAddr s.cfg base c.toInt .state).toNat 0).setReg .atc (atc.toInt - 1) =
      .ok (s.terminated c base atc) :=
    (State.setReg_ok _ .atc _ _).2 ⟨(fitsWord_sub_one atc).2 h.lt_atc, by rw [ofInt_sub_one]; rfl⟩
  simp only [Machine.terminateCurrent, hcur, hstate, hatc, hcount, ok_bind]

/-- The last active thread's end is the machine's (R245, R302). -/
theorem State.CanTerminate.terminateCurrent_last (h : s.CanTerminate c base atc)
    (hlast : atc.toInt ≤ 1) :
    Machine.terminateCurrent s = .ok ((s.terminated c base atc).halt .allThreadsDone) := by
  have hcount := toInt_sub_one h.lt_atc
  rw [h.terminateCurrent]
  exact (succeed_ok _ _ _).2 ⟨atc - 1, s.terminated_holds_atc c base atc, .inl ⟨by omega, rfl⟩⟩

/-- While threads are active, the end of one is the switch to the thread selected (R245). -/
theorem State.CanTerminate.terminateCurrent_switch (h : s.CanTerminate c base atc)
    (hmore : 1 < atc.toInt) {i : Int} {t : State}
    (hsel : selectNextReady (s.terminated c base atc) c.toInt = .ok i)
    (hswitch : switchTo (s.terminated c base atc) i = .ok t) :
    Machine.terminateCurrent s = .ok t := by
  have hcount := toInt_sub_one h.lt_atc
  rw [h.terminateCurrent]
  exact (succeed_ok _ _ _).2
    ⟨atc - 1, s.terminated_holds_atc c base atc, .inr ⟨by omega, i, hsel, hswitch⟩⟩

/-- The thread resumed is the first Ready one (R245, R243, R244). -/
theorem State.CanTerminate.terminateCurrent_resumes (h : s.CanTerminate c base atc)
    (hmore : 1 < atc.toInt) (hfirst : (s.terminated c base atc).FirstReady base c.toInt n.toInt)
    (hresume : (s.terminated c base atc).CanResume base n pc sp) :
    Machine.terminateCurrent s = .ok ((s.terminated c base atc).resumed base n pc sp) :=
  have hb := h.terminated_holdsReg (by decide) h.holdsTtb
  h.terminateCurrent_switch hmore (hfirst.selectNextReady hb)
    (hresume.switchTo hb (h.terminated_holdsReg (by decide) h.holdsCtid) h.saveOutgoing)

/-- With active threads but none Ready the machine halts (R245, R302). -/
theorem State.CanTerminate.terminateCurrent_noneReady (h : s.CanTerminate c base atc)
    (hmore : 1 < atc.toInt) (hnone : (s.terminated c base atc).NoneReady base c.toInt) :
    Machine.terminateCurrent s =
      .ok (((s.terminated c base atc).poke Reg.ctid.addr 0).halt .noReadyThread) :=
  h.terminateCurrent_switch hmore
    (hnone.selectNextReady (h.terminated_holdsReg (by decide) h.holdsTtb))
    (switchTo_noThread (h.terminated_holdsReg (by decide) h.holdsCtid) h.saveOutgoing)

/-- A thread whose saved words are not the terminated thread's state word is still resumable. -/
theorem State.CanTerminate.canResume (h : s.CanTerminate c base atc)
    (hn : s.CanResume base n pc sp)
    (hpc : slotAddr s.cfg base c.toInt .state ≠ slotAddr s.cfg base n.toInt .savedPc)
    (hsp : slotAddr s.cfg base c.toInt .state ≠ slotAddr s.cfg base n.toInt .savedSp) :
    (s.terminated c base atc).CanResume base n pc sp := by
  have hlow := h.lt_state
  exact (hn.poke 0 (by omega) (by omega)).poke_reg .atc (atc - 1)

end terminate

/-- Settles O48: the three endings are those of the second part of `TerminateCurrent`. -/
theorem terminationEndsTheThread : Obligations.TerminationEndsTheThread := by
  intro i s c base atc hi hc hv hb hm hlow hatc hmin
  have h : s.CanTerminate c base atc := ⟨hc, hv, hb, hm, hlow, hatc, hmin⟩
  have hstate := h.holds_state
  have hcount := s.terminated_holds_atc c base atc
  refine ⟨fun hlast => ?last, fun n pc sp hmore hvn _ hfirst hcn hmn hpc hsp hnePc hneSp hneState =>
    ?resumes, fun hmore hnone => ?noneReady⟩
  case last =>
    exact ⟨_, exec_of_terminateCurrent hi (h.terminateCurrent_last hlast), rfl, hstate, hcount,
      fun a hne ha => h.cell_other ha hne⟩
  case resumes =>
    have hresume : (s.terminated c base atc).CanResume base n pc sp :=
      h.canResume ⟨hvn, hcn, hmn, hpc, hsp⟩ hnePc hneSp
    have hlowN : 6 < slotAddr s.cfg base n.toInt .state := hcn.lt_slotAddr .state
    obtain ⟨hctid', hpc', hsp'⟩ := hresume.resumed_registers
    refine ⟨_, exec_of_terminateCurrent hi (h.terminateCurrent_resumes hmore hfirst hresume), rfl, ?_,
      State.resumed_holds_state _ base n pc sp, ?_, hctid', hpc', hsp', fun a hne hneN ha => ?_⟩
    · rw [State.Holds, hresume.cell_other (by omega) (by omega) (by omega)
        (by rw [State.terminated_cfg]; omega)]
      exact hstate
    · rw [State.HoldsReg, hresume.cell_other (by decide) (by decide) (by decide)
        (by rw [State.terminated_cfg, Reg.addr_atc]; omega)]
      exact hcount
    · simp only [List.mem_cons, List.not_mem_nil, or_false, not_or] at ha
      obtain ⟨h0, h1, h4, h5⟩ := ha
      exact (hresume.cell_other h0 h1 h4 hneN).trans (h.cell_other h5 hne)
  case noneReady =>
    refine ⟨_, exec_of_terminateCurrent hi (h.terminateCurrent_noneReady hmore hnone), rfl, ?_,
      hcount.poke_reg (by decide) 0, by simp [State.HoldsReg], fun a hne ha => ?_⟩
    · rw [State.Holds, State.cell_halt, State.cell_poke, Reg.addr_ctid, if_neg (by omega)]
      exact hstate
    · simp only [List.mem_cons, List.not_mem_nil, or_false, not_or] at ha
      obtain ⟨h4, h5⟩ := ha
      rw [State.cell_halt, State.cell_poke, Reg.addr_ctid, if_neg (Ne.symm h4)]
      exact h.cell_other h5 hne

end Sys2Proof.Machine
end

section
/-! PROOFS. SYSCALL YIELD (O49). What its first part leaves has a name; what saving the outgoing thread adds to
it is a predicate on the state after, since a thread that is Running is saved a second time. -/

namespace Sys2Proof.Machine

/-- What SYSCALL YIELD needs of its own thread `c`: registers, and a slot whose words are cells but no control
registers, with the state word `w` (R219, R343(d)). -/
structure State.CanYield (s : State) (c base p sp w : Word) : Prop where
  holdsCtid : s.HoldsReg .ctid c
  valid : s.validId c.toInt = true
  holdsTtb : s.HoldsReg .ttb base
  mapped : s.SlotMapped base c.toInt
  clear : SlotClear s.cfg base c.toInt
  holdsPc : s.HoldsReg .pc p
  pc_lt : p.toInt < xmax
  holdsSp : s.HoldsReg .sp sp
  holdsState : s.Holds (slotAddr s.cfg base c.toInt .state) w

/-- The state with PC counted up and the context of thread `c` persisted (R219, R242). -/
def State.yielded (s : State) (c base p sp : Word) : State :=
  (s.poke Reg.pc.addr (p + 1)).persisted c base (p + 1) sp

@[simp] theorem State.yielded_cfg (s : State) (c base p sp : Word) :
    (s.yielded c base p sp).cfg = s.cfg := rfl

/-- The state word a yielding thread is left with: Ready if it was Running, else what it was (R244). -/
def yieldedState (w : Word) : Word := if w = 2 then 1 else w

/-- `u` is the yielded state with the outgoing thread saved: its state word is set, its context is already in
its slot (R244). -/
structure State.YieldSaved (s : State) (c base p sp w : Word) (u : State) : Prop where
  frame : u = { s with mem := u.mem }
  cell : ∀ a, u.cell a = if (slotAddr s.cfg base c.toInt .state).toNat = a
    then .num (yieldedState w) else (s.yielded c base p sp).cell a

/-- Persisting the same context twice is persisting it once (R242). -/
theorem State.cell_persisted_twice (s : State) (i base p q : Word) (a : Nat) :
    ((s.persisted i base p q).persisted i base p q).cell a = (s.persisted i base p q).cell a := by
  simp only [State.cell_persisted, State.persisted_cfg]
  by_cases hsp : (slotAddr s.cfg base i.toInt .savedSp).toNat = a
  · simp only [if_pos hsp]
  · by_cases hpc : (slotAddr s.cfg base i.toInt .savedPc).toNat = a
    · simp only [if_neg hsp, if_pos hpc]
    · simp only [if_neg hsp, if_neg hpc]

section yield
variable {s u : State} {c base p sp w : Word}

/-- The yield's first part touches no register but PC (R219, R343(d)). -/
theorem SlotClear.yielded_holdsReg (h : SlotClear s.cfg base c.toInt) (p sp : Word) {r : Reg}
    {v : Word} (hr : .pc ≠ r) (hv : s.HoldsReg r v) : (s.yielded c base p sp).HoldsReg r v := by
  have hlowPc := h.lt_slotAddr .savedPc
  have hlowSp := h.lt_slotAddr .savedSp
  exact ((hv.poke_reg hr _).poke_of_lt (by rw [State.poke_cfg]; omega) _).poke_of_lt
    (by rw [State.poke_cfg]; omega) _

theorem State.CanYield.canPersist (h : s.CanYield c base p sp w) :
    (s.poke Reg.pc.addr (p + 1)).CanPersist c base (p + 1) sp :=
  State.canPersist_of_slotClear (h.holdsCtid.poke_reg (by decide) _) h.valid
    (h.holdsTtb.poke_reg (by decide) _) (by simp [State.HoldsReg])
    (h.holdsSp.poke_reg (by decide) _) h.mapped h.clear

/-- The yielded state differs in PC and the saved words of the slot only (R219, R242). -/
theorem State.CanYield.cell_yielded (h : s.CanYield c base p sp w) {a : Nat} (h0 : a ≠ 0)
    (hpc : (a : Int) ≠ slotAddr s.cfg base c.toInt .savedPc)
    (hsp : (a : Int) ≠ slotAddr s.cfg base c.toInt .savedSp) :
    (s.yielded c base p sp).cell a = s.cell a := by
  rw [State.yielded, h.canPersist.cell_other hpc hsp, State.cell_poke, Reg.addr_pc,
    if_neg h0.symm]

theorem State.CanYield.yielded_holds_pc (h : s.CanYield c base p sp w) :
    (s.yielded c base p sp).HoldsReg .pc (p + 1) := by
  have hlowPc := h.clear.lt_slotAddr .savedPc
  have hlowSp := h.clear.lt_slotAddr .savedSp
  have hpc : (s.poke Reg.pc.addr (p + 1)).HoldsReg .pc (p + 1) := by simp [State.HoldsReg]
  exact (hpc.poke_of_lt (by rw [State.poke_cfg]; omega) _).poke_of_lt
    (by rw [State.poke_cfg]; omega) _

theorem State.CanYield.yielded_holds_state (h : s.CanYield c base p sp w) :
    (s.yielded c base p sp).Holds (slotAddr s.cfg base c.toInt .state) w := by
  have hlow := h.clear.lt_slotAddr .state
  have hnextPc := slotAddr_savedPc s.cfg base c.toInt
  have hnextSp := slotAddr_savedSp s.cfg base c.toInt
  rw [State.Holds, h.cell_yielded (by omega) (by omega) (by omega)]
  exact h.holdsState

/-- SYSCALL YIELD is the switch from the yielded state to the thread selected (R219). -/
theorem State.CanYield.exec_of_switchTo (h : s.CanYield c base p sp w) {i : Int} {t : State}
    (hsel : selectNextReady (s.yielded c base p sp) c.toInt = .ok i)
    (hswitch : switchTo (s.yielded c base p sp) i = .ok t) : exec .syscallYield s = .next t := by
  have hpc : s.reg .pc = .ok p := (s.reg_ok .pc p).2 h.holdsPc
  have hcount : s.setReg .pc (p.toInt + 1) = .ok (s.poke Reg.pc.addr (p + 1)) :=
    (s.setReg_ok _ _ _).2 ⟨(fitsWord_add_one p).2 h.pc_lt, by rw [ofInt_add_one]⟩
  have hpersist : persistContext (s.poke Reg.pc.addr (p + 1)) = .ok (s.yielded c base p sp) :=
    h.canPersist.persistContext
  have hctid : (s.yielded c base p sp).reg .ctid = .ok c :=
    (State.reg_ok _ .ctid c).2 (h.clear.yielded_holdsReg p sp (by decide) h.holdsCtid)
  show commit _ s _ = _
  simp only [hpc, hcount, hpersist, hctid, hsel, hswitch, ok_bind, commit_ok]

/-- Saving the outgoing thread after its context is persisted sets its state word and nothing else (R244). -/
theorem State.CanYield.saveOutgoing (h : s.CanYield c base p sp w) :
    ∃ u, saveOutgoing (s.yielded c base p sp) c.toInt = .ok u ∧ s.YieldSaved c base p sp w u := by
  have hb := h.clear.yielded_holdsReg p sp (by decide) h.holdsTtb
  by_cases hrun : w = 2
  · subst hrun
    have hsave := saveOutgoing_of_running (s := s.yielded c base p sp) h.valid hb h.mapped h.clear
      h.yielded_holds_pc (h.clear.yielded_holdsReg p sp (by decide) h.holdsSp) h.yielded_holds_state rfl
    refine ⟨_, hsave, rfl, fun a => ?_⟩
    rw [State.cell_poke, State.yielded_cfg]
    exact if_congr Iff.rfl rfl (State.cell_persisted_twice _ c base (p + 1) sp a)
  · have hne : w.toInt ≠ 2 := fun h2 => hrun (BitVec.eq_of_toInt_eq h2)
    refine ⟨_, saveOutgoing_of_notRunning h.valid hb h.mapped.1 h.yielded_holds_state hne, rfl,
      fun a => ?_⟩
    split_ifs with ha
    · rw [← ha, yieldedState, if_neg hrun]
      exact h.yielded_holds_state
    · rfl

/-! ### The cells of the saved state -/

theorem State.YieldSaved.cfg (hu : s.YieldSaved c base p sp w u) : u.cfg = s.cfg := by
  rw [hu.frame]

theorem State.YieldSaved.holds_state (hu : s.YieldSaved c base p sp w u) :
    u.Holds (slotAddr s.cfg base c.toInt .state) (yieldedState w) := by
  rw [State.Holds, hu.cell, if_pos rfl]

theorem State.YieldSaved.holds_savedPc (hu : s.YieldSaved c base p sp w u)
    (h : s.CanYield c base p sp w) : u.Holds (slotAddr s.cfg base c.toInt .savedPc) (p + 1) := by
  have hlow := h.clear.lt_slotAddr .state
  have hnext := slotAddr_savedPc s.cfg base c.toInt
  rw [State.Holds, hu.cell, if_neg (by omega)]
  exact h.canPersist.holds_savedPc

theorem State.YieldSaved.holds_savedSp (hu : s.YieldSaved c base p sp w u)
    (h : s.CanYield c base p sp w) : u.Holds (slotAddr s.cfg base c.toInt .savedSp) sp := by
  have hlow := h.clear.lt_slotAddr .state
  have hnext := slotAddr_savedPc s.cfg base c.toInt
  have hnext' := slotAddr_savedSp s.cfg base c.toInt
  rw [State.Holds, hu.cell, if_neg (by omega)]
  exact State.persisted_holds_savedSp _ c base (p + 1) sp

theorem State.YieldSaved.holdsReg_of_yielded (hu : s.YieldSaved c base p sp w u)
    (h : s.CanYield c base p sp w) {r : Reg} {v : Word} (hv : (s.yielded c base p sp).HoldsReg r v) :
    u.HoldsReg r v := by
  have hlow := h.clear.lt_slotAddr .state
  have haddr := r.addr_lt
  rw [State.HoldsReg, hu.cell, if_neg (by omega)]
  exact hv

theorem State.YieldSaved.cell_other (hu : s.YieldSaved c base p sp w u)
    (h : s.CanYield c base p sp w) {a : Nat} (h0 : a ≠ 0)
    (hne : ∀ k : SlotWord, (a : Int) ≠ slotAddr s.cfg base c.toInt k) : u.cell a = s.cell a := by
  have hlow := h.clear.lt_slotAddr .state
  have hstate := hne .state
  rw [hu.cell, if_neg (by omega), h.cell_yielded h0 (hne .savedPc) (hne .savedSp)]

/-- Another thread, of a slot clear of the yielding one's, is resumable after the save as before. -/
theorem State.YieldSaved.canResume (hu : s.YieldSaved c base p sp w u) (h : s.CanYield c base p sp w)
    {n pc sp' : Word} (hn : s.CanResume base n pc sp')
    (hne : ∀ k l : SlotWord, slotAddr s.cfg base c.toInt k ≠ slotAddr s.cfg base n.toInt l) :
    u.CanResume base n pc sp' := by
  have hcell : ∀ l, u.cell (slotAddr s.cfg base n.toInt l).toNat =
      s.cell (slotAddr s.cfg base n.toInt l).toNat := fun l => by
    have hlow := hn.clear.lt_slotAddr l
    exact hu.cell_other h (by omega) fun k => by have := hne k l; omega
  exact hn.of_cells hu.cfg (hcell .savedPc) (hcell .savedSp)

/-- The yielding thread itself is resumable, from the context just persisted (R219). -/
theorem State.YieldSaved.canResume_self (hu : s.YieldSaved c base p sp w u)
    (h : s.CanYield c base p sp w) : u.CanResume base c (p + 1) sp := by
  have hyielded : (s.yielded c base p sp).CanResume base c (p + 1) sp :=
    ⟨h.valid, h.clear, h.mapped, h.canPersist.holds_savedPc,
      State.persisted_holds_savedSp _ c base (p + 1) sp⟩
  have hlow := h.clear.lt_slotAddr .state
  have hnext := slotAddr_savedPc s.cfg base c.toInt
  have hnext' := slotAddr_savedSp s.cfg base c.toInt
  refine hyielded.of_cells hu.cfg ?_ ?_
  · rw [State.yielded_cfg, hu.cell, if_neg (by omega)]
  · rw [State.yielded_cfg, hu.cell, if_neg (by omega)]

/-! ### The saved state with a thread resumed -/

theorem State.YieldSaved.resumed_frame (hu : s.YieldSaved c base p sp w u) (n pc sp' : Word) :
    u.resumed base n pc sp' = { s with mem := (u.resumed base n pc sp').mem } := by
  rw [hu.frame]
  rfl

theorem State.YieldSaved.resumed_holds_state (hu : s.YieldSaved c base p sp w u) (n pc sp' : Word) :
    (u.resumed base n pc sp').Holds (slotAddr s.cfg base n.toInt .state) 2 :=
  hu.cfg ▸ u.resumed_holds_state base n pc sp'

/-- Above the registers, resuming a thread touches its state word only (R244). -/
theorem State.YieldSaved.resumed_cell_of_lt (hu : s.YieldSaved c base p sp w u) {n pc sp' : Word}
    (hn : u.CanResume base n pc sp') {a : Nat} (ha : 6 < a)
    (hne : (a : Int) ≠ slotAddr s.cfg base n.toInt .state) :
    (u.resumed base n pc sp').cell a = u.cell a :=
  hn.cell_other (by omega) (by omega) (by omega) (by rwa [hu.cfg])

end yield

/-- Settles O49: each clause is a switch from the yielded state, its thread saved. -/
theorem yieldSwitchesThreads : Obligations.YieldSwitchesThreads := by
  intro s c base p sp w hc hv hb hm hclear hp hpx hsp hw
  have h : s.CanYield c base p sp w := ⟨hc, hv, hb, hm, hclear, hp, hpx, hsp, hw⟩
  obtain ⟨u, hsave, hu⟩ := h.saveOutgoing
  have hby := h.clear.yielded_holdsReg p sp (by decide) h.holdsTtb
  have hcy := h.clear.yielded_holdsReg p sp (by decide) h.holdsCtid
  have hbu := hu.holdsReg_of_yielded h hby
  have hlowPc := hclear.lt_slotAddr .savedPc
  have hlowSp := hclear.lt_slotAddr .savedSp
  have hlowState := hclear.lt_slotAddr .state
  have hstate := hu.holds_state
  have hsavedPc := hu.holds_savedPc h
  have hsavedSp := hu.holds_savedSp h
  refine ⟨fun n pc sp' hvn _ hfirst hcn hmn hpcn hspn hne => ?other, fun hfirst => ?self,
    fun hnone => ?noneReady⟩
  case other =>
    have hresume : u.CanResume base n pc sp' := hu.canResume h ⟨hvn, hcn, hmn, hpcn, hspn⟩ hne
    obtain ⟨hctid', hpc', hsp''⟩ := hresume.resumed_registers
    have hkeep : ∀ k, (u.resumed base n pc sp').cell (slotAddr s.cfg base c.toInt k).toNat =
        u.cell (slotAddr s.cfg base c.toInt k).toNat := fun k => by
      have hlow := hclear.lt_slotAddr k
      have hnek := hne k .state
      exact hu.resumed_cell_of_lt hresume (by omega) (by omega)
    refine ⟨_, h.exec_of_switchTo (hfirst.selectNextReady hby) (hresume.switchTo hbu hcy hsave),
      hu.resumed_frame n pc sp', (hkeep .state).trans hstate, (hkeep .savedPc).trans hsavedPc,
      (hkeep .savedSp).trans hsavedSp, hu.resumed_holds_state n pc sp', hctid', hpc', hsp'',
      fun a hnec hnen ha => ?_⟩
    simp only [List.mem_cons, List.not_mem_nil, or_false, not_or] at ha
    obtain ⟨h0, h1, h4⟩ := ha
    exact (hresume.cell_other h0 h1 h4 (by rwa [hu.cfg])).trans (hu.cell_other h h0 hnec)
  case self =>
    have hresume := hu.canResume_self h
    obtain ⟨hctid', hpc', hsp'⟩ := hresume.resumed_registers
    have hone : w = 1 := by
      obtain ⟨j, -, -, -, ⟨-, hready⟩, -⟩ := hfirst
      exact Cell.num.inj (h.yielded_holds_state.symm.trans hready)
    have hnext := slotAddr_savedPc s.cfg base c.toInt
    have hnext' := slotAddr_savedSp s.cfg base c.toInt
    refine ⟨hone, _, h.exec_of_switchTo (hfirst.selectNextReady hby) (hresume.switchTo hbu hcy hsave),
      hu.resumed_frame c (p + 1) sp, hu.resumed_holds_state c (p + 1) sp,
      (hu.resumed_cell_of_lt hresume (by omega) (by omega)).trans hsavedPc,
      (hu.resumed_cell_of_lt hresume (by omega) (by omega)).trans hsavedSp, hpc', fun a hne h0 => ?_⟩
    by_cases h1 : a = 1
    · subst h1
      exact hsp'.trans hsp.symm
    by_cases h4 : a = 4
    · subst h4
      exact hctid'.trans hc.symm
    exact (hresume.cell_other h0 h1 h4 (by rw [hu.cfg]; exact hne .state)).trans
      (hu.cell_other h h0 hne)
  case noneReady =>
    have hkeep : ∀ a : Nat, a ≠ 4 → ((u.poke Reg.ctid.addr 0).halt .noReadyThread).cell a =
        u.cell a := fun a ha => by
      rw [State.cell_halt, State.cell_poke, Reg.addr_ctid, if_neg ha.symm]
    refine ⟨_, h.exec_of_switchTo (hnone.selectNextReady hby) (switchTo_noThread hcy hsave), ?_,
      (hkeep _ (by omega)).trans hstate, (hkeep _ (by omega)).trans hsavedPc,
      (hkeep _ (by omega)).trans hsavedSp, by simp [State.HoldsReg],
      (hkeep _ (by decide)).trans (hu.holdsReg_of_yielded h h.yielded_holds_pc), fun a hne ha => ?_⟩
    · rw [hu.frame]
      rfl
    · simp only [List.mem_cons, List.not_mem_nil, or_false, not_or] at ha
      obtain ⟨h0, h4⟩ := ha
      exact (hkeep a h4).trans (hu.cell_other h h0 hne)

end Sys2Proof.Machine
end

section
/-! PROOFS. USER, SYSCALL PRN and MALFORMED (O46, O47, O50, O52), and the frame of the system instructions
(O58). A frame of the scheduler is its stores, followed perhaps by a halt. -/

namespace Sys2Proof.Machine

/-! ### USER, SYSCALL PRN, MALFORMED -/

/-- What the read of USER's operand answers: it is admitted at or above `USER_BASE` only (R216). -/
theorem State.readAsUser_ok (s : State) (a w : Word) :
    s.readAsUser a = .ok w ↔
      s.Mapped a.toInt ∧ (s.cfg.userBase : Int) ≤ a.toInt ∧ s.Holds a.toInt w := by
  simp only [State.readAsUser, bind_ok, State.bounds_ok, State.modeOk_ok, State.number_ok]
  exact ⟨fun ⟨_, hm, _, ha, hw⟩ => ⟨hm, ha rfl, hw⟩,
    fun ⟨hm, ha, hw⟩ => ⟨(), hm, (), fun _ => ha, hw⟩⟩

/-- Settles O46: the mode is set before the persist, which does not look at it. -/
theorem userEntersUserMode : Obligations.UserEntersUserMode := by
  intro a w i base p q s hm ha hw hpersist
  have hread : s.readAsUser a = .ok w := (s.readAsUser_ok a w).2 ⟨hm, ha, hw⟩
  have hpersist' : s.enterUser.CanPersist i base p q := hpersist
  show commit _ s _ = _
  simp only [hread, hpersist'.persistContext, State.setReg_word, ok_bind, commit_ok]
  rfl

/-- Settles O52: the three clauses are the three checks of that read, each failing first. -/
theorem userOperandIsCheckedAsUser : Obligations.UserOperandIsCheckedAsUser := by
  intro a s
  refine ⟨fun hm => commit_faulted ?bounds, fun hm hlow => commit_faulted ?mode,
    fun o x y hm hge hc => commit_faulted ?tag⟩
  case bounds => simp only [State.readAsUser, s.bounds_error _ hm, error_bind]
  case mode =>
    have hnot : ¬ s.enterUser.Allowed a.toInt := fun ha => not_le.2 hlow (ha rfl)
    simp only [State.readAsUser, (s.bounds_ok _ ()).2 hm, State.modeOk_error _ _ hnot, ok_bind,
      error_bind]
  case tag =>
    have hallowed : s.enterUser.Allowed a.toInt := fun _ => hge
    simp only [State.readAsUser, (s.bounds_ok _ ()).2 hm, (State.modeOk_ok _ _ ()).2 hallowed,
      s.number_error _ hc, ok_bind, error_bind]

/-- Settles O47: PRN is the read, the output, the store to PC and the start of the stall. -/
theorem prnOutputsAndStalls : Obligations.PrnOutputsAndStalls := by
  intro a w p s ha hp hx
  have hpc : (s.emit w).reg .pc = .ok p := (State.reg_ok _ .pc p).2 hp
  have hcount : (s.emit w).setReg .pc (p.toInt + 1) = .ok ((s.emit w).poke Reg.pc.addr (p + 1)) :=
    (State.setReg_ok _ _ _ _).2 ⟨(fitsWord_add_one p).2 hx, by rw [ofInt_add_one]⟩
  show commit _ s _ = _
  simp only [ha.readOperand, hpc, hcount, ok_bind, commit_ok]
  rfl

/-- Settles O50: MALFORMED reads PC and raises its fault. -/
theorem malformedHaltsTheMachine : Obligations.MalformedHaltsTheMachine := by
  intro s p hp
  exact commit_faulted (by rw [(s.reg_ok .pc p).2 hp, ok_bind])

/-! ### Stores, and perhaps a halt -/

/-- `t` is `s` after stores at addresses in `A` only, and perhaps a halt. -/
def StoresThenHalts (A : Nat → Prop) (s t : State) : Prop :=
  ∃ u, Stores A s u ∧ (t = u ∨ ∃ c, t = u.halt c)

section storesThenHalts
variable {A : Nat → Prop} {s t u : State}

theorem StoresThenHalts.frame (h : StoresThenHalts A s t) :
    t = { s with mem := t.mem, halted := t.halted, haltCause := t.haltCause } := by
  obtain ⟨u, hu, rfl | ⟨c, rfl⟩⟩ := h
  · rw [hu.frame]
  · rw [hu.frame]
    rfl

theorem StoresThenHalts.outside (h : StoresThenHalts A s t) {a : Nat} (ha : ¬ A a) :
    t.cell a = s.cell a := by
  obtain ⟨u, hu, rfl | ⟨c, rfl⟩⟩ := h
  · exact hu.outside a ha
  · exact hu.outside a ha

/-- The set of all addresses, where only what lies outside memory is of interest. -/
theorem covers_all (cfg : Params) : Covers (fun _ => True) cfg :=
  ⟨fun _ => trivial, fun _ _ _ => trivial⟩

/-- A register outside the addresses stored to is as it was. -/
theorem Stores.holdsReg (h : Stores A s t) {r : Reg} {w : Word} (hr : ¬ A r.addr)
    (hw : s.HoldsReg r w) : t.HoldsReg r w := (h.outside _ hr).trans hw

theorem terminateCurrent_storesThenHalts (h : terminateCurrent s = .ok t) :
    StoresThenHalts (fun _ => True) s t := by
  obtain ⟨u, hu, hend⟩ := terminateCurrent_stores (covers_all s.cfg) h
  exact ⟨u, hu, hend.imp_right fun hh => hh.elim (fun e => ⟨_, e⟩) fun e => ⟨_, e⟩⟩

/-! ### The stores of a switch -/

variable {base c : Word} {n : Int}

/-- The addresses the words of slot `i` have that the hardware touches (R35). -/
def SlotCells (cfg : Params) (base i : Word) (a : Nat) : Prop :=
  ∃ k : SlotWord, (a : Int) = slotAddr cfg base i.toInt k

theorem SlotClear.not_slotCells {cfg : Params} {i : Word} (h : SlotClear cfg base i.toInt) (r : Reg) :
    ¬ SlotCells cfg base i r.addr := by
  rintro ⟨k, hk⟩
  have hlow := h.lt_slotAddr k
  have haddr := r.addr_lt
  omega

/-- With `TTB` known, a store to a slot word is a store to its address (R240). -/
theorem slotWrite_storesAt {i v : Int} {k : SlotWord} (hb : s.HoldsReg .ttb base)
    (h : s.slotWrite i k v = .ok t) (hA : ∀ a : Nat, (a : Int) = slotAddr s.cfg base i k → A a) :
    Stores A s t := by
  obtain ⟨base', hb', hm, -, rfl⟩ := (s.slotWrite_ok i k v t).1 h
  obtain rfl := hb.unique hb'
  exact Stores.poke s _ _ (hA _ (Int.toNat_of_nonneg hm.1))

theorem slotSave_storesAt {i : Int} {k : SlotWord} {r : Reg} (hb : s.HoldsReg .ttb base)
    (h : s.slotSave i k r = .ok t) (hA : ∀ a : Nat, (a : Int) = slotAddr s.cfg base i k → A a) :
    Stores A s t := by
  obtain ⟨base', w, hb', -, hm, rfl⟩ := (s.slotSave_ok i k r t).1 h
  obtain rfl := hb.unique hb'
  exact Stores.poke s _ _ (hA _ (Int.toNat_of_nonneg hm.1))

theorem slotLoad_storesAt {i : Int} {k : SlotWord} {r : Reg} (h : s.slotLoad i k r = .ok t)
    (hA : A r.addr) : Stores A s t := by
  obtain ⟨_, w, -, -, -, rfl⟩ := (s.slotLoad_ok i k r t).1 h
  exact Stores.poke s _ w hA

/-- Saving the outgoing thread stores to the words of its slot only (R244). -/
theorem saveOutgoing_slotStores (hb : s.HoldsReg .ttb base) (hc : SlotClear s.cfg base c.toInt)
    (h : saveOutgoing s c.toInt = .ok t) : Stores (SlotCells s.cfg base c) s t := by
  rcases (saveOutgoing_ok s t _).1 h with ⟨-, rfl⟩ | ⟨-, w, -, ⟨-, rfl⟩ | ⟨-, s1, s2, h1, h2, h3⟩⟩
  · exact Stores.refl _ _
  · exact Stores.refl _ _
  · have e1 : Stores (SlotCells s.cfg base c) s s1 := slotSave_storesAt hb h1 fun a ha => ⟨_, ha⟩
    have hb1 := e1.holdsReg (hc.not_slotCells .ttb) hb
    have e2 : Stores (SlotCells s.cfg base c) s s2 :=
      e1.trans (slotSave_storesAt hb1 h2 fun a ha => ⟨_, e1.cfg ▸ ha⟩)
    have hb2 := e2.holdsReg (hc.not_slotCells .ttb) hb
    exact e2.trans (slotWrite_storesAt hb2 h3 fun a ha => ⟨_, e2.cfg ▸ ha⟩)

/-- The addresses a switch to thread `n` stores to besides the save: PC, SP, `CTID` and the thread's state
word (R244). -/
def SwitchCells (cfg : Params) (base : Word) (n : Int) (a : Nat) : Prop :=
  a ∈ [0, 1, 4] ∨ (a : Int) = slotAddr cfg base n .state

theorem loadIncoming_storesThenHalts (hb : s.HoldsReg .ttb base) (h : loadIncoming s n = .ok t) :
    StoresThenHalts (SwitchCells s.cfg base n) s t := by
  rcases (loadIncoming_ok s t n).1 h with ⟨-, rfl⟩ | ⟨-, s1, s2, hpc, hsp, hstate⟩
  · exact ⟨s, Stores.refl _ s, .inr ⟨_, rfl⟩⟩
  · have e2 : Stores (· ∈ [0, 1, 4]) s s2 :=
      (slotLoad_storesAt hpc (by simp)).trans (slotLoad_storesAt hsp (by simp))
    have e3 : Stores (SwitchCells s.cfg base n) s2 t :=
      slotWrite_storesAt (e2.holdsReg (by simp) hb) hstate fun a ha => .inr (e2.cfg ▸ ha)
    exact ⟨t, (e2.mono fun _ => .inl).trans e3, .inl rfl⟩

/-- A switch stores what the save of the outgoing thread stores and its own words, or halts (R244). -/
theorem switchTo_storesThenHalts (hb : s.HoldsReg .ttb base) (hc : s.HoldsReg .ctid c)
    (hsave : ∀ u, saveOutgoing s c.toInt = .ok u → Stores A s u) (hA : ¬ A Reg.ttb.addr)
    (h : switchTo s n = .ok t) : StoresThenHalts (fun a => A a ∨ SwitchCells s.cfg base n a) s t := by
  obtain ⟨c', u, hc', hsaved, -, hload⟩ := (switchTo_ok s t n).1 h
  obtain rfl := hc.unique hc'
  have e1 := hsave u hsaved
  have hb1 := (e1.holdsReg hA hb).poke_reg (r' := .ctid) (by decide) (BitVec.ofInt 32 n)
  obtain ⟨v, hv, hend⟩ := loadIncoming_storesThenHalts hb1 hload
  rw [State.poke_cfg, e1.cfg] at hv
  exact ⟨v, ((e1.mono fun _ => .inl).trans (Stores.poke u _ _ (.inr (.inl (by simp))))).trans
    (hv.mono fun _ => .inr), hend⟩

/-! ### The stores of termination and of SYSCALL YIELD -/

/-- The addresses termination stores to: the thread's state word, `ATC`, and those of the switch to the thread
selected (R245). -/
def TerminationCells (s : State) (c base atc : Word) (a : Nat) : Prop :=
  (a : Int) = slotAddr s.cfg base c.toInt .state ∨ a = 5 ∨
    ∃ n, selectNextReady (s.terminated c base atc) c.toInt = .ok n ∧ SwitchCells s.cfg base n a

theorem terminateCurrent_storesAt {atc : Word} (hc : s.HoldsReg .ctid c) (hb : s.HoldsReg .ttb base)
    (ha : s.HoldsReg .atc atc) (hlow : 6 < slotAddr s.cfg base c.toInt .state)
    (hok : terminateCurrent s = .ok t) : StoresThenHalts (TerminationCells s c base atc) s t := by
  have h : s.CanTerminate c base atc := by
    obtain ⟨c', s1, atc', hc', hv, hwrite, hatc, hmin, -⟩ := (terminateCurrent_ok s t).1 hok
    obtain rfl := hc.unique hc'
    obtain ⟨base', hb', hm, -, rfl⟩ := (s.slotWrite_ok _ _ _ _).1 hwrite
    obtain rfl := hb.unique hb'
    obtain rfl := (ha.poke_of_lt (by omega) _).unique hatc
    exact ⟨hc, hv, hb, hm, hlow, ha, hmin⟩
  have hterm : Stores (TerminationCells s c base atc) s (s.terminated c base atc) :=
    (Stores.poke s _ _ (.inl (Int.toNat_of_nonneg h.mapped.1))).trans
      (Stores.poke _ _ _ (.inr (.inl rfl)))
  rw [h.terminateCurrent] at hok
  obtain ⟨_, -, ⟨-, rfl⟩ | ⟨-, n, hsel, hswitch⟩⟩ := (succeed_ok _ t _).1 hok
  · exact ⟨_, hterm, .inr ⟨_, rfl⟩⟩
  · have hsave : ∀ u, saveOutgoing (s.terminated c base atc) c.toInt = .ok u →
        Stores (fun _ => False) (s.terminated c base atc) u := fun u hu => by
      obtain rfl := Except.ok.inj (h.saveOutgoing.symm.trans hu)
      exact Stores.refl _ _
    obtain ⟨u, hu, hend⟩ := switchTo_storesThenHalts (h.terminated_holdsReg (by decide) hb)
      (h.terminated_holdsReg (by decide) hc) hsave id hswitch
    exact ⟨u, hterm.trans (hu.mono fun a ha => .inr (.inr ⟨n, hsel, ha.resolve_left id⟩)), hend⟩

/-- A SYSCALL YIELD counts PC up, persists and switches, or it takes a fault (R219). -/
theorem exec_syscallYield_inv (h : exec .syscallYield s = .next t) :
    (∃ p s2 i n, s.HoldsReg .pc p ∧ persistContext (s.poke Reg.pc.addr (p + 1)) = .ok s2 ∧
      s2.HoldsReg .ctid i ∧ selectNextReady s2 i.toInt = .ok n ∧ switchTo s2 n = .ok t) ∨
    ∃ e : Raise, t = s.faulted (some 0x12) e.cause e.addr := by
  refine commit_completes_or_faulted h fun hok => ?_
  simp only [bind_ok, State.reg_ok, State.setReg_ok, ofInt_add_one] at hok
  obtain ⟨p, hp, s1, ⟨-, rfl⟩, s2, hpersist, i, hi, n, hsel, hswitch⟩ := hok
  exact ⟨p, s2, i, n, hp, hpersist, hi, hsel, hswitch⟩

/-- The addresses SYSCALL YIELD stores to: PC, the words of its slot, and those of the switch to the thread
selected (R219). -/
def YieldCells (s : State) (c base p sp : Word) (a : Nat) : Prop :=
  a = 0 ∨ SlotCells s.cfg base c a ∨
    ∃ n, selectNextReady (s.yielded c base p sp) c.toInt = .ok n ∧ SwitchCells s.cfg base n a

/-- What the persist of a yield leaves is the yielded state, where the slot is clear of the registers. -/
theorem yielded_of_persistContext {p sp : Word} (hc : s.HoldsReg .ctid c) (hb : s.HoldsReg .ttb base)
    (hsp : s.HoldsReg .sp sp) (hclear : SlotClear s.cfg base c.toInt)
    (h : persistContext (s.poke Reg.pc.addr (p + 1)) = .ok u) :
    u = s.yielded c base p sp ∧ Stores (YieldCells s c base p sp) s u := by
  have hlow := hclear.lt_slotAddr .savedPc
  obtain ⟨i, base', p', q, hi, -, hb', hp, ⟨hm, -⟩, hq, ⟨hm', -⟩, rfl⟩ := (persistContext_ok _ u).1 h
  obtain rfl := (hc.poke_reg (by decide) _).unique hi
  obtain rfl := (hb.poke_reg (by decide) _).unique hb'
  obtain rfl : p + 1 = p' := by simpa [State.HoldsReg] using hp
  obtain rfl := ((hsp.poke_reg (by decide) _).poke_of_lt (by rw [State.poke_cfg]; omega) _).unique hq
  exact ⟨rfl, ((Stores.poke s _ _ (.inl rfl)).trans
    (Stores.poke _ _ _ (.inr (.inl ⟨_, Int.toNat_of_nonneg hm⟩)))).trans
    (Stores.poke _ _ _ (.inr (.inl ⟨_, Int.toNat_of_nonneg hm'⟩)))⟩

theorem yield_storesAt {p sp i : Word} (hc : s.HoldsReg .ctid c) (hb : s.HoldsReg .ttb base)
    (hsp : s.HoldsReg .sp sp) (hclear : SlotClear s.cfg base c.toInt)
    (hpersist : persistContext (s.poke Reg.pc.addr (p + 1)) = .ok u) (hi : u.HoldsReg .ctid i)
    (hsel : selectNextReady u i.toInt = .ok n) (hswitch : switchTo u n = .ok t) :
    StoresThenHalts (YieldCells s c base p sp) s t := by
  obtain ⟨rfl, hst⟩ := yielded_of_persistContext hc hb hsp hclear hpersist
  have hby := hclear.yielded_holdsReg p sp (by decide) hb
  have hcy := hclear.yielded_holdsReg p sp (by decide) hc
  obtain rfl := hcy.unique hi
  obtain ⟨v, hv, hend⟩ := switchTo_storesThenHalts hby hcy
    (fun v hv => saveOutgoing_slotStores hby hclear hv) (hclear.not_slotCells .ttb) hswitch
  exact ⟨v, hst.trans (hv.mono fun a ha => .inr (ha.imp_right fun hs => ⟨n, hsel, hs⟩)), hend⟩

end storesThenHalts

/-- Settles O58: what completes is stores, perhaps a halt, and for PRN the output and the countdown. -/
theorem systemInstructionsFrame : Obligations.SystemInstructionsFrame := by
  refine ⟨fun x s t h => ?prn, fun i s t hi h => ?terminate, fun s t h => ?yield⟩
  case prn =>
    refine commit_completes_or_faulted h fun hok => ?_
    obtain ⟨w, hread, hrest⟩ := (bind_ok _ _ t).1 hok
    obtain ⟨p, -, hrest⟩ := (bind_ok _ _ t).1 hrest
    obtain ⟨u, hpc, hrest⟩ := (bind_ok _ _ t).1 hrest
    obtain rfl := Except.ok.inj hrest
    obtain ⟨-, rfl⟩ := (State.setReg_ok _ .pc _ u).1 hpc
    obtain ⟨-, -, hw⟩ := (s.readOperand_ok x w).1 hread
    refine ⟨rfl, fun w' hw' => ?_, fun a ha => ?_⟩
    · obtain rfl := Cell.num.inj (hw.symm.trans hw')
      rfl
    · rw [State.cell_stall, State.cell_poke, Reg.addr_pc, if_neg ha.symm, State.cell_emit]
  case terminate =>
    obtain ⟨o, hexec⟩ := exec_terminates hi s
    rw [hexec] at h
    refine (commit_completes_or_faulted h fun hok => ?_).imp_right fun hfault => ⟨o, hfault⟩
    refine ⟨(terminateCurrent_storesThenHalts hok).frame,
      fun c base atc hc hb ha hlow a hne hreg hsel =>
        (terminateCurrent_storesAt hc hb ha hlow hok).outside ?_⟩
    simp only [List.mem_cons, List.not_mem_nil, or_false, not_or] at hreg
    obtain ⟨h0, h1, h4, h5⟩ := hreg
    rintro (hstate | hatc | ⟨n, hn, hregs | hstate⟩)
    · exact hne hstate
    · exact h5 hatc
    · simp [h0, h1, h4] at hregs
    · exact hsel n hn hstate
  case yield =>
    refine (exec_syscallYield_inv h).imp_left ?_
    rintro ⟨p, s2, i, n, hp, hpersist, hi, hn, hswitch⟩
    refine ⟨?_, fun c base p' sp hc hb hp' hsp hclear a hslot hreg hsel => ?_⟩
    · obtain ⟨u, hu, hend⟩ := switchTo_stores (covers_all s2.cfg) hswitch
      have hall : Stores (fun _ => True) s s2 :=
        (Stores.poke s _ _ trivial).trans (persistContext_covers (covers_all _) hpersist)
      exact StoresThenHalts.frame ⟨u, hall.trans hu, hend.imp_right fun e => ⟨_, e⟩⟩
    · obtain rfl := hp.unique hp'
      refine (yield_storesAt hc hb hsp hclear hpersist hi hn hswitch).outside ?_
      rintro (h0 | ⟨k, hk⟩ | ⟨m, hm, hregs | hstate⟩)
      · simp [h0] at hreg
      · exact hslot k hk
      · exact hreg hregs
      · exact hsel m hm hstate

end Sys2Proof.Machine
end

section
/-! PROOFS. The scheduler's scan order (R243). -/

namespace Sys2Proof.Machine

/-- Settles O32: the scan reads the places 1 to MAX_THREADS in turn and stops at the first Ready word. -/
theorem scanPicksTheFirstReady : Obligations.ScanPicksTheFirstReady :=
  fun _ _ _ _ hb => ⟨fun hfirst => hfirst.selectNextReady hb, fun hnone => hnone.selectNextReady hb⟩

end Sys2Proof.Machine
end

section
/-! PROOFS. The watchdog (O10 to O12). After step 1 nothing but an eviction touches the counters: a tick that
is none leaves them as step 1 left them, whatever it runs and however it ends. -/

namespace Sys2Proof.Machine

/-! ### What the watchdog holds -/

/-- The watchdog's counters, and the configuration, which has their caps (R5, R41). -/
structure Watchdog where
  cfg : Params
  wdTicks : Nat
  wdLastPc : Option Word
  wdRepeat : Nat

def State.watchdog (s : State) : Watchdog := ⟨s.cfg, s.wdTicks, s.wdLastPc, s.wdRepeat⟩

section watchdog
variable {A : Nat → Prop} {s t u b : State}

theorem Stores.watchdog (h : Stores A s t) : t.watchdog = s.watchdog := by
  rw [h.frame]
  rfl

theorem StartsFrom.watchdog {i : Instr} (h : StartsFrom i s b) : b.watchdog = s.watchdog := by
  rcases h with rfl | ⟨-, -, rfl⟩ | ⟨-, w, -, -, rfl⟩ <;> rfl

/-- Halting or not, a tick ends with the counters its stores ended with. -/
theorem watchdog_of_end (h : t = u ∨ t = u.halt .allThreadsDone ∨ t = u.halt .noReadyThread) :
    t.watchdog = u.watchdog := by
  rcases h with rfl | rfl | rfl <;> rfl

/-! ### What leaves the counters alone -/

theorem terminateCurrent_watchdog (h : terminateCurrent s = .ok t) : t.watchdog = s.watchdog := by
  obtain ⟨u, hu, hend⟩ := terminateCurrent_stores (covers_all s.cfg) h
  exact (watchdog_of_end hend).trans hu.watchdog

theorem blockedTick_watchdog (h : blockedTick s = .ok t) : t.watchdog = s.watchdog := by
  obtain ⟨n, -, hset⟩ := (bind_ok _ _ t).1 h
  have hst : Stores (fun _ => True) s.unblockOne t := setReg_stores hset trivial
  exact hst.watchdog

theorem exec_watchdog {i : Instr} (h : exec i s = .next t) : t.watchdog = s.watchdog := by
  rcases exec_effect i s t (covers_all s.cfg) h with ⟨o, e, rfl⟩ | ⟨c, u, hc, hu, hend⟩
  · rfl
  · exact (watchdog_of_end (hend.imp_right And.right)).trans (hu.watchdog.trans hc.watchdog)

/-- A fault keeps the counters, so a tick keeps them where its completion does (R291). -/
theorem settle_watchdog {o : Option Opcode} {r : Result State}
    (h : ∀ u, r = .ok u → u.watchdog = s.watchdog) : (settle o s r).watchdog = s.watchdog := by
  cases r with
  | ok u => exact h u rfl
  | error e => rfl

/-! ### A tick that is not an eviction -/

/-- The tick goes on from the state `b`, and not to an eviction. -/
def Plan.GoesOnFrom (b : State) : Plan → Prop
  | .raised c _ _ | .blocked c | .fetchFailed c | .run _ c => c = b
  | .idle | .hardCap | .evict _ => False

theorem planCell_goesOnFrom (p : Word) (c : Cell) (b : State) : (planCell p c b).GoesOnFrom b := by
  unfold planCell
  split <;> rfl

/-- Up to the soft cap there is no eviction (R273). -/
theorem planAt_goesOnFrom (p : Word) (hr : b.wdRepeat ≤ b.cfg.softCap) :
    (planAt p b).GoesOnFrom b := by
  rcases Nat.eq_zero_or_pos b.block with hb | hb
  · cases hf : b.fetch p.toInt with
    | error e => rw [planAt_fetchFault p b e hr hb hf]; rfl
    | ok c => rw [planAt_fetched p b c hr hb hf]; exact planCell_goesOnFrom p c b
  · rw [planAt_blocked p b hr hb]; rfl

theorem step_watchdog_of_goesOnFrom (hp : (plan s).GoesOnFrom b) (h : step s = .next t) :
    t.watchdog = b.watchdog := by
  unfold step at h
  generalize plan s = q at hp h
  cases q with
  | idle | hardCap | evict c => exact hp.elim
  | raised c o e =>
    cases hp
    cases h
    rfl
  | blocked c =>
    cases hp
    cases h
    exact settle_watchdog fun _ => blockedTick_watchdog
  | fetchFailed c =>
    cases hp
    cases h
    exact settle_watchdog fun _ => terminateCurrent_watchdog
  | run i c =>
    cases hp
    exact exec_watchdog h

/-! ### An eviction -/

theorem step_of_evict_ok (hp : plan s = .evict b) (h : terminateCurrent b = .ok u) :
    step s = .next u.clearRepeat := by
  have hev : evictCurrent b = .ok u.clearRepeat := (bind_ok _ _ _).2 ⟨u, h, rfl⟩
  rw [step_of_plan hp (by simp), Plan.finish, hev, settle_ok]

theorem step_of_evict_error {e : Raise} (hp : plan s = .evict b)
    (h : terminateCurrent b = .error e) : step s = .next (b.takeFault none e) := by
  have hev : evictCurrent b = .error e := by rw [evictCurrent, h]; rfl
  rw [step_of_plan hp (by simp), Plan.finish, hev, settle_error]

/-- An eviction clears the repeat count at most: the tick count stays (R273). -/
theorem step_wdTicks_of_evict (hp : plan s = .evict b) (h : step s = .next t) :
    t.wdTicks = b.wdTicks ∧ t.cfg = b.cfg := by
  cases hr : terminateCurrent b with
  | ok u =>
    rw [step_of_evict_ok hp hr] at h
    cases h
    have hu : u.watchdog = b.watchdog := terminateCurrent_watchdog hr
    exact ⟨congrArg Watchdog.wdTicks hu, congrArg Watchdog.cfg hu⟩
  | error e =>
    rw [step_of_evict_error hp hr] at h
    cases h
    exact ⟨rfl, rfl⟩

/-! ### The tick count -/

theorem Counted.wdTicks_cfg (h : Counted s b) : b.wdTicks = s.wdTicks + 1 ∧ b.cfg = s.cfg := by
  rcases h with rfl | ⟨p, rfl⟩ <;> exact ⟨rfl, rfl⟩

theorem step_of_hardCap (hh : s.halted = false) (hcap : s.cfg.hardCap < s.wdTicks + 1) :
    step s = .next (s.countTick.halt .watchdogHardCap) :=
  step_of_plan (plan_of_hardCap s hh hcap) (by simp)

/-- Whatever a tick of a running machine comes to, it counts (R271). -/
theorem step_counts (hh : s.halted = false) (h : step s = .next t) :
    t.wdTicks = s.wdTicks + 1 ∧ t.cfg = s.cfg := by
  rcases plan_cases s hh with ⟨-, hcap⟩ | ⟨-, b, hb, hplan⟩
  · rw [step_of_hardCap hh hcap] at h
    cases h
    exact ⟨rfl, rfl⟩
  obtain ⟨hticks, hcfg⟩ := hb.wdTicks_cfg
  have of_goesOn : (plan s).GoesOnFrom b → t.wdTicks = b.wdTicks ∧ t.cfg = b.cfg := fun hp =>
    have hw : t.watchdog = b.watchdog := step_watchdog_of_goesOnFrom hp h
    ⟨congrArg Watchdog.wdTicks hw, congrArg Watchdog.cfg hw⟩
  rw [← hticks, ← hcfg]
  rcases hplan with ⟨o, e, hp⟩ | hp | ⟨-, ⟨-, hp⟩ | hp | ⟨i, hp⟩⟩
  · exact of_goesOn (by rw [hp]; rfl)
  · exact step_wdTicks_of_evict hp h
  · exact of_goesOn (by rw [hp]; rfl)
  · exact of_goesOn (by rw [hp]; rfl)
  · exact of_goesOn (by rw [hp]; rfl)

end watchdog

/-! ### The statements -/

/-- Settles O10: a running machine counts its tick whatever the tick comes to, and a halted one stays as it
is. -/
theorem hardCapHalts : Obligations.HardCapHalts := by
  refine ⟨fun s hh hcap => step_of_hardCap hh hcap, fun s t hh h => step_counts hh h, ?bound⟩
  case bound =>
    intro s t hrunning hbound h
    cases hh : s.halted with
    | true =>
      rw [(haltedTickDoesNothing s hh).1] at h
      cases h
      exact hbound
    | false =>
      obtain ⟨hticks, hcfg⟩ := step_counts hh h
      rw [hticks, hcfg]
      exact Nat.succ_le_succ (hrunning hh)

/-- Settles O11: up to the soft cap a tick ends with the counters of step 1, and an unreadable program
counter faults before the repeat is counted. -/
theorem repeatCountFollowsThePc : Obligations.RepeatCountFollowsThePc := by
  refine ⟨?counts, ?unreadable⟩
  case counts =>
    intro s t p hh hcap hp hr h
    have hgoes : (plan s).GoesOnFrom (s.watched p) := by
      rw [plan_of_pc s p hh hcap hp]
      exact planAt_goesOnFrom p hr
    have hw : t.watchdog = (s.watched p).watchdog := step_watchdog_of_goesOnFrom hgoes h
    have hrep : t.wdRepeat = if s.wdLastPc = some p then s.wdRepeat + 1 else 0 :=
      congrArg Watchdog.wdRepeat hw
    exact ⟨congrArg Watchdog.wdLastPc hw, fun heq => hrep.trans (if_pos heq),
      fun hne => hrep.trans (if_neg hne)⟩
  case unreadable =>
    intro s o x y hh hcap hpc
    exact step_of_plan (plan_of_codePc s hh hcap hpc) (by simp)

/-- Settles O12: past the soft cap the tick is an eviction, which ends as the termination does. -/
theorem softCapEvicts : Obligations.SoftCapEvicts := by
  intro s p hh hcap hp hr
  have hplan : plan s = .evict (s.watched p) :=
    (plan_of_pc s p hh hcap hp).trans (planAt_evict p _ hr)
  exact ⟨fun u hu => step_of_evict_ok hplan hu, fun e he => step_of_evict_error hplan he⟩

end Sys2Proof.Machine
end

section
/-! PROOFS. What a fault keeps (O17) and how the mode changes (O22). Both come from one fact about a tick: it
takes a fault on the state after step 1, or it leaves the record alone and touches the mode only in USER. -/

namespace Sys2Proof.Machine

/-! ### What a tick does to the record and the mode -/

/-- `t` has the fault record and the mode of `s` (R42, R38). -/
structure SameStatus (s t : State) : Prop where
  fault : t.fault = s.fault
  mode : t.mode = s.mode

section status
variable {A : Nat → Prop} {s t u b : State}

theorem SameStatus.trans (h : SameStatus s t) (h' : SameStatus t u) : SameStatus s u :=
  ⟨h'.fault.trans h.fault, h'.mode.trans h.mode⟩

theorem Counted.sameStatus (h : Counted s b) : SameStatus s b := by
  rcases h with rfl | ⟨p, rfl⟩ <;> exact ⟨rfl, rfl⟩

theorem Stores.sameStatus (h : Stores A s t) : SameStatus s t := ⟨h.fault, h.mode⟩

/-- A normal halt leaves the record empty and the mode as it is (R301). -/
theorem sameStatus_of_end (h : t = u ∨ t = u.halt .allThreadsDone ∨ t = u.halt .noReadyThread) :
    SameStatus u t := by
  rcases h with rfl | rfl | rfl <;> exact ⟨rfl, rfl⟩

/-- Of all instructions only USER starts its stores in another mode (R216). -/
theorem StartsFrom.status_cases {i : Instr} (h : StartsFrom i s b) :
    SameStatus s b ∨ ∃ a, i = .user a ∧ b.fault = s.fault ∧ b.mode = .user := by
  rcases h with rfl | ⟨a, hi, rfl⟩ | ⟨-, w, -, -, rfl⟩
  · exact .inl ⟨rfl, rfl⟩
  · exact .inr ⟨a, hi, rfl, rfl⟩
  · exact .inl ⟨rfl, rfl⟩

/-- What a tick of a running machine does to the record and the mode: it takes a fault on the state after
step 1, or it keeps both, or it runs USER, which keeps the record and ends in User mode (R291, R311). -/
theorem step_status_cases (hh : s.halted = false) (h : step s = .next t) :
    (∃ b o e, Counted s b ∧ t = b.takeFault o e) ∨ SameStatus s t ∨
      (t.fault = s.fault ∧ t.mode = .user ∧ ∃ a b, plan s = .run (.user a) b) := by
  rcases step_effect s t (covers_all s.cfg) hh h with ⟨rfl, -⟩ | ⟨-, b, hb, hrest⟩
  · exact .inr (.inl ⟨rfl, rfl⟩)
  have hsb : SameStatus s b := hb.sameStatus
  rcases hrest with ⟨o, e, rfl⟩ | ⟨u, hu, hend⟩ | ⟨-, ⟨u, -, hu, rfl⟩ | ⟨u, hu, hend⟩ | hrun⟩
  · exact .inl ⟨b, o, e, hb, rfl⟩
  · have hclear : SameStatus u u.clearRepeat := ⟨rfl, rfl⟩
    exact .inr (.inl (hsb.trans (hu.sameStatus.trans (hclear.trans (sameStatus_of_end hend)))))
  · have hstall : SameStatus b b.unblockOne := ⟨rfl, rfl⟩
    exact .inr (.inl (hsb.trans (hstall.trans hu.sameStatus)))
  · exact .inr (.inl (hsb.trans (hu.sameStatus.trans (sameStatus_of_end hend))))
  · obtain ⟨i, c, u, hplan, hc, hu, hend⟩ := hrun
    have hct : SameStatus c t := hu.sameStatus.trans (sameStatus_of_end (hend.imp_right And.right))
    rcases hc.status_cases with hbc | ⟨a, rfl, hfault, hmode⟩
    · exact .inr (.inl (hsb.trans (hbc.trans hct)))
    · exact .inr (.inr ⟨hct.fault.trans (hfault.trans hsb.fault), hct.mode.trans hmode, a, b, hplan⟩)

end status

/-! ### What a fault keeps -/

/-- The record's field of a control register is the word it holds, if it holds one (R300). -/
theorem State.regOrNone_eq_some_iff (s : State) (r : Reg) (w : Word) :
    s.regOrNone r = some w ↔ s.HoldsReg r w := by
  unfold State.regOrNone State.HoldsReg
  cases s.cell r.addr <;> simp

/-- The state after step 1 is the one before it but for the watchdog's counters (R271, R272). -/
theorem Counted.frame {s b : State} (h : Counted s b) :
    b = { s with wdTicks := b.wdTicks, wdLastPc := b.wdLastPc, wdRepeat := b.wdRepeat } := by
  rcases h with rfl | ⟨p, rfl⟩ <;> rfl

/-- A fault after step 1 records what the tick began with (R300). -/
theorem Counted.faultRecord {s b : State} (h : Counted s b) (o : Option Opcode) (e : Raise) :
    b.faultRecord o e = s.faultRecord o e := by
  simp only [State.faultRecord, State.regOrNone, State.cell_congr h.mem]

/-- Settles O17: a tick that leaves a record where there was none has taken a fault on the state after
step 1. -/
theorem faultKeepsNothingOfTheTick : Obligations.FaultKeepsNothingOfTheTick := by
  intro s t hh hnone hstep hfault
  rcases step_status_cases hh hstep with ⟨b, o, e, hb, rfl⟩ | hsame | ⟨hkept, -⟩
  · refine ⟨s.faultRecord o e, ?frame, s.regOrNone_eq_some_iff .pc, s.regOrNone_eq_some_iff .ctid⟩
    case frame =>
      rw [State.takeFault, hb.faultRecord, hb.frame]
      rfl
  · exact absurd (hsame.fault.trans hnone) hfault
  · exact absurd (hkept.trans hnone) hfault

/-! ### The mode -/

/-- A tick keeps the mode, or it runs USER and ends in User mode (R311). -/
theorem step_mode_cases {s t : State} (h : step s = .next t) :
    t.mode = s.mode ∨ (t.mode = .user ∧ ∃ a b, plan s = .run (.user a) b) := by
  cases hh : s.halted with
  | true =>
    rw [(haltedTickDoesNothing s hh).1] at h
    cases h
    exact .inl rfl
  | false =>
    rcases step_status_cases hh h with ⟨b, o, e, hb, rfl⟩ | hsame | ⟨-, huser⟩
    · exact .inl hb.sameStatus.mode
    · exact .inl hsame.mode
    · exact .inr huser

/-- Settles O22: of all ticks only one that runs USER changes the mode, and what USER completes is in User
mode. -/
theorem modeTransitions : Obligations.ModeTransitions := by
  refine ⟨fun _ => rfl, ?userIsKept, ?kernelIsLeftByUser, ?userEnters⟩
  case userIsKept =>
    intro s t h hmode
    rcases step_mode_cases h with hsame | ⟨huser, -⟩
    · exact hsame.trans hmode
    · exact huser
  case kernelIsLeftByUser =>
    intro s t h hkernel huser
    rcases step_mode_cases h with hsame | ⟨-, a, b, hplan⟩
    · rw [hsame, hkernel] at huser
      cases huser
    · obtain ⟨p, c, hfetch, hdec, -⟩ := plan_run_inv s b _ hplan
      exact ⟨p, a, c, hfetch, hdec⟩
  case userEnters =>
    intro a s t h hnone
    obtain ⟨-, -, -, huser⟩ := persistingInstructionsFrame
    rcases huser a s t h with ⟨hframe, -⟩ | ⟨e, rfl⟩
    · rw [hframe]
    · cases hnone

end Sys2Proof.Machine
end

section
/-! PROOFS. A current thread id that names no slot (O54): whatever persists the context or terminates the
thread faults on it, so each clause runs its instruction, or its tick, up to that point. -/

namespace Sys2Proof.Machine

/-- An id names no slot where it lies outside `1 .. MAX_THREADS` (R241). -/
theorem State.validId_eq_false_iff (s : State) (i : Int) :
    s.validId i = false ↔ i < 1 ∨ (s.cfg.maxThreads : Int) < i := by
  rw [Bool.eq_false_iff, ne_eq, s.validId_iff]
  omega

section invalid
variable {s : State} {c : Word}

/-- An instruction that persists the context in a state with such an id faults there (R242, R298). -/
theorem commit_persistContext_invalid {u : State} (o : Option Opcode) (f : State → Result State)
    (hc : u.HoldsReg .ctid c) (hv : u.validId c.toInt = false) :
    commit o s (persistContext u >>= f) = .next (s.faulted o .invalidThreadId c.toInt) :=
  commit_faulted (by rw [persistContext_invalid u hc hv, error_bind])

/-- An instruction that terminates the thread in a state with such an id faults there (R245, R298). -/
theorem commit_terminateCurrent_invalid (o : Option Opcode) (hc : s.HoldsReg .ctid c)
    (hv : s.validId c.toInt = false) :
    commit o s (terminateCurrent s) = .next (s.faulted o .invalidThreadId c.toInt) :=
  commit_faulted (terminateCurrent_invalid s hc hv)

theorem exec_jif_invalid {a w : Word} (t : Word) (hc : s.HoldsReg .ctid c)
    (hv : s.validId c.toInt = false) (ha : s.Readable a.toInt w) (hle : w.toInt ≤ 0) :
    exec (.jif a t) s = .next (s.faulted (some 0x07) .invalidThreadId c.toInt) := by
  show commit _ s _ = _
  rw [ha.readOperand, ok_bind, if_pos ((jumpTaken_iff w).2 hle)]
  exact commit_persistContext_invalid _ _ hc hv

theorem exec_user_invalid {a w : Word} (hc : s.HoldsReg .ctid c) (hv : s.validId c.toInt = false)
    (hm : s.Mapped a.toInt) (ha : (s.cfg.userBase : Int) ≤ a.toInt) (hw : s.Holds a.toInt w) :
    exec (.user a) s = .next (s.faulted (some 0x0D) .invalidThreadId c.toInt) := by
  show commit _ s _ = _
  rw [(s.readAsUser_ok a w).2 ⟨hm, ha, hw⟩, ok_bind]
  exact commit_persistContext_invalid (u := s.enterUser) _ _ hc hv

theorem exec_syscallYield_invalid {p : Word} (hc : s.HoldsReg .ctid c)
    (hv : s.validId c.toInt = false) (hp : s.HoldsReg .pc p) (hx : p.toInt < xmax) :
    exec .syscallYield s = .next (s.faulted (some 0x12) .invalidThreadId c.toInt) := by
  show commit _ s _ = _
  rw [(s.reg_ok .pc p).2 hp, ok_bind, ← toInt_add_one hx, s.setReg_word, ok_bind]
  exact commit_persistContext_invalid _ _ (hc.poke_reg (by decide) _) hv

/-- CALL persists the context its push leaves, so the id is the one after the push (R201). -/
theorem exec_call_invalid {sp p q : Word} (t : Word) (hp : s.HoldsReg .pc p) (hx : p.toInt < xmax)
    (hpush : s.CanPush sp (p + 1) q) (hc : (s.pushed sp (p + 1) q).HoldsReg .ctid c)
    (hv : s.validId c.toInt = false) :
    exec (.call t) s = .next (s.faulted (some 0x0A) .invalidThreadId c.toInt) := by
  have hret : s.returnAddress = .ok (p + 1).toInt :=
    (s.returnAddress_ok _).2 ⟨p, hp, toInt_add_one hx⟩
  show commit _ s _ = _
  rw [hret, hpush.push, ok_bind]
  exact commit_persistContext_invalid _ _ hc hv

end invalid

/-- Settles O54: RET persists and the other instructions of the list terminate at once; a tick of a fetch
failure or of an eviction ends as its termination does. -/
theorem invalidThreadIdFaults : Obligations.InvalidThreadIdFaults := by
  refine ⟨fun s c hc hout => ?current, fun s t sp p q c hp hx hpush hc hout =>
    exec_call_invalid t hp hx hpush hc ((s.validId_eq_false_iff _).2 hout)⟩
  case current =>
    have hv : s.validId c.toInt = false := (s.validId_eq_false_iff _).2 hout
    have hend : ∀ p, terminateCurrent (s.watched p) = .error ⟨.invalidThreadId, c.toInt⟩ :=
      fun p => terminateCurrent_invalid (s.watched p) hc hv
    refine ⟨?atOnce, commit_terminateCurrent_invalid none hc hv,
      fun a t w ha hle => exec_jif_invalid t hc hv ha hle,
      fun a w hm ha hw => exec_user_invalid hc hv hm ha hw,
      fun p hp hx => exec_syscallYield_invalid hc hv hp hx,
      fun p v hfetch => (fetchFailureEndsTheThread s p v hfetch).2 _ (hend p),
      fun p hh hcap hp hr => (softCapEvicts s p hh hcap hp hr).2 _ (hend p)⟩
    case atOnce =>
      simp only [List.forall_mem_cons, List.not_mem_nil, false_imp_iff, implies_true, and_true]
      exact ⟨commit_persistContext_invalid _ _ hc hv, commit_terminateCurrent_invalid _ hc hv,
        commit_terminateCurrent_invalid _ hc hv⟩

end Sys2Proof.Machine
end

section
/-! PROOFS. The loader (O7, O20). It is two runs of writes, one cell for each line; what such a run leaves in a
cell, and that it keeps the invariant, is said once for both. -/

namespace Sys2Proof.Machine

/-! ### Writing lines -/

/-- `t` is `s` after a cell was written for each line in turn, at the line's address, which names a cell; `P`
says which cell a line's content stands for. -/
inductive Written {α : Type} (P : α → Cell → Prop) : State → List (Int × α) → State → Prop
  | nil (s : State) : Written P s [] s
  | cons {s t : State} {a : Int} {x : α} {c : Cell} {ls : List (Int × α)} (ha : s.Mapped a)
      (hc : P x c) (h : Written P (s.setCell a.toNat c) ls t) : Written P s ((a, x) :: ls) t

section written
variable {α : Type} {P : α → Cell → Prop} {s t : State} {ls : List (Int × α)}

/-- Writing lines touches memory only. -/
theorem Written.frame (h : Written P s ls t) : t = { s with mem := t.mem } := by
  induction h with
  | nil s => rfl
  | cons ha hc h ih => rw [ih]; rfl

/-- A write inside the memory keeps the invariant (R22). -/
theorem State.Inv.setCell {a : Int} (h : s.Inv) (ha : s.Mapped a) (c : Cell) :
    (s.setCell a.toNat c).Inv := by
  obtain ⟨hv, hwf, hin, hrest⟩ := h
  have hlt : a.toNat < s.cfg.memCapacity := by
    obtain ⟨h0, h1⟩ := ha
    omega
  exact ⟨hv, Memory.wf_set _ _ _ hwf, Memory.within_set _ _ _ _ hin hlt, hrest⟩

theorem Written.inv (h : Written P s ls t) (hs : s.Inv) : t.Inv := by
  induction h with
  | nil s => exact hs
  | cons ha hc h ih => exact ih (hs.setCell ha _)

/-- A cell that no line has the address of is as it was. -/
theorem Written.cell_of_none (h : Written P s ls t) {a : Int} (ha : 0 ≤ a)
    (hnone : ls.filter (fun l => l.1 = a) = []) : t.cell a.toNat = s.cell a.toNat := by
  induction h with
  | nil s => rfl
  | @cons s t b x c ls hb hc h ih =>
    obtain ⟨hne, hrest⟩ := List.forall_mem_cons.1 (List.filter_eq_nil_iff.1 hnone)
    have hba : b ≠ a := by simpa using hne
    have h0 : 0 ≤ b := hb.1
    rw [ih (List.filter_eq_nil_iff.2 hrest), State.cell_setCell, if_neg (by omega)]

/-- A cell that some line has the address of is what the last of them stands for. -/
theorem Written.cell_of_last (h : Written P s ls t) {a : Int} {x : α}
    (hlast : (ls.filter (fun l => l.1 = a)).getLast? = some (a, x)) :
    s.Mapped a ∧ P x (t.cell a.toNat) := by
  induction h with
  | nil s => cases hlast
  | @cons s t b y c ls hb hc h ih =>
    cases hrest : (ls.filter (fun l => l.1 = a)).getLast? with
    | some l =>
      refine ih (hrest.trans ?_)
      rw [List.filter_cons] at hlast
      split at hlast
      · rwa [List.getLast?_cons, hrest, Option.getD_some] at hlast
      · rwa [hrest] at hlast
    | none =>
      have hnone : ls.filter (fun l => l.1 = a) = [] := List.getLast?_eq_none_iff.1 hrest
      rw [List.filter_cons, hnone] at hlast
      split at hlast
      · cases hlast
        rw [h.cell_of_none hb.1 hnone, State.cell_setCell, if_pos rfl]
        exact ⟨hb, hc⟩
      · cases hlast

end written

/-! ### The loader writes lines -/

/-- What loading one cell answers (R346). -/
theorem loadCell_ok (s t : State) (a : Int) (c : Cell) :
    loadCell s a c = .ok t ↔ s.Mapped a ∧ t = s.setCell a.toNat c := by
  unfold loadCell State.Mapped
  split
  · next h => simp only [reduceCtorEq, false_iff]; omega
  · next h =>
    rw [Except.ok.injEq, eq_comm (a := t)]
    exact (and_iff_right (by omega)).symm

/-- A part of the loader completes when its first part does and the rest does with its value. -/
theorem load_bind_ok {α β : Type} {x : Except LoadError α} {f : α → Except LoadError β} {b : β}
    (h : (x >>= f) = .ok b) : ∃ a, x = .ok a ∧ f a = .ok b := by
  cases x with
  | error e => cases h
  | ok a => exact ⟨a, rfl, h⟩

/-- The cell a text stands for (R118). -/
def CodeCell (text : Text) (c : Cell) : Prop := encodeText text = .ok c

/-- The cell a data value stands for (R346). -/
def DataCell (v : Int) (c : Cell) : Prop := fitsWord v ∧ c = .num (BitVec.ofInt 32 v)

theorem loadCode_written {s t : State} {ls : List (Int × Text)} (h : loadCode s ls = .ok t) :
    Written CodeCell s ls t := by
  induction ls generalizing s with
  | nil => cases h; exact .nil _
  | cons l ls ih =>
    obtain ⟨c, hc, h⟩ := load_bind_ok h
    obtain ⟨u, hu, h⟩ := load_bind_ok h
    obtain ⟨ha, rfl⟩ := (loadCell_ok _ _ _ _).1 hu
    exact .cons ha hc (ih h)

/-- The data lines that collide with no instruction line are written (R346). -/
theorem loadData_written {img : Image} {s t : State} {ls : List (Int × Int)}
    (h : loadData img s ls = .ok t) :
    Written DataCell s (ls.filter (fun l => !img.hasCodeAt l.1)) t := by
  induction ls generalizing s with
  | nil => cases h; exact .nil _
  | cons l ls ih =>
    obtain ⟨a, v⟩ := l
    unfold loadData at h
    split at h
    · next hv =>
      split at h
      · next hcode =>
        rw [List.filter_cons_of_neg (by simp [hcode])]
        exact ih h
      · next hcode =>
        obtain ⟨u, hu, h⟩ := load_bind_ok h
        obtain ⟨ha, rfl⟩ := (loadCell_ok _ _ _ _).1 hu
        rw [List.filter_cons_of_pos (by simp [hcode])]
        exact .cons ha ⟨hv, rfl⟩ (ih h)
    · cases h

/-- Loading an image is writing its data lines that no instruction line hides, then its instruction lines in
ascending order (R346). -/
theorem load_written {s t : State} {img : Image} (h : s.load img = .ok t) :
    ∃ u, Written DataCell s (img.data.filter (fun l => !img.hasCodeAt l.1)) u ∧
      Written CodeCell u (ascending img.code) t := by
  obtain ⟨u, hu, h⟩ := load_bind_ok h
  exact ⟨u, loadData_written hu, loadCode_written h⟩

/-! ### Ascending order -/

/-- The lines stand in ascending order of address. -/
def Ascending (ls : List (Int × Text)) : Prop := ls.Pairwise (fun k l => k.1 ≤ l.1)

theorem mem_insertLine {l k : Int × Text} {ls : List (Int × Text)} :
    k ∈ insertLine l ls ↔ k = l ∨ k ∈ ls := by
  induction ls with
  | nil => exact List.mem_singleton.trans (or_iff_left (List.not_mem_nil)).symm
  | cons m ls ih =>
    unfold insertLine
    split
    · exact List.mem_cons
    · rw [List.mem_cons, ih, List.mem_cons, or_left_comm]

theorem insertLine_ascending {ls : List (Int × Text)} (h : Ascending ls) (l : Int × Text) :
    Ascending (insertLine l ls) := by
  induction ls with
  | nil => exact List.pairwise_singleton _ _
  | cons m ls ih =>
    obtain ⟨hm, hls⟩ := List.pairwise_cons.1 h
    unfold insertLine
    split
    · next hlt =>
      refine List.pairwise_cons.2 ⟨List.forall_mem_cons.2 ⟨hlt.le, fun k hk => ?_⟩, h⟩
      exact hlt.le.trans (hm k hk)
    · next hge =>
      refine List.pairwise_cons.2 ⟨fun k hk => ?_, ih hls⟩
      rcases mem_insertLine.1 hk with rfl | hk
      · exact not_lt.1 hge
      · exact hm k hk

/-- A line put among ascending ones comes last of those of its address. -/
theorem filter_insertLine {ls : List (Int × Text)} (h : Ascending ls) (l : Int × Text)
    (a : Int) : (insertLine l ls).filter (fun k => k.1 = a) =
      ls.filter (fun k => k.1 = a) ++ [l].filter (fun k => k.1 = a) := by
  induction ls with
  | nil => rfl
  | cons m ls ih =>
    obtain ⟨hm, hls⟩ := List.pairwise_cons.1 h
    unfold insertLine
    split
    · next hlt =>
      by_cases hla : l.1 = a
      · have hnone : (m :: ls).filter (fun k => k.1 = a) = [] := by
          refine List.filter_eq_nil_iff.2 (List.forall_mem_cons.2 ⟨?_, fun k hk => ?_⟩)
          · simp only [decide_eq_true_eq]; omega
          · have := hm k hk
            simp only [decide_eq_true_eq]; omega
        rw [List.filter_cons, hnone, List.nil_append, List.filter_cons, List.filter_nil]
      · simp [List.filter_cons, hla]
    · rw [List.filter_cons, List.filter_cons, ih hls]
      split <;> rfl

/-- Lines put one after the other among ascending ones come after those of their address. -/
theorem filter_foldl_insertLine (ls : List (Int × Text)) {acc : List (Int × Text)}
    (h : Ascending acc) (a : Int) :
    (ls.foldl (fun acc l => insertLine l acc) acc).filter (fun k => k.1 = a) =
      acc.filter (fun k => k.1 = a) ++ ls.filter (fun k => k.1 = a) := by
  induction ls generalizing acc with
  | nil => exact (List.append_nil _).symm
  | cons l ls ih =>
    rw [List.foldl_cons, ih (insertLine_ascending h l), filter_insertLine h, List.append_assoc,
      ← List.filter_append, List.singleton_append]

/-- Putting the lines in ascending order keeps those of one address in the order of the file (R346). -/
theorem filter_ascending (ls : List (Int × Text)) (a : Int) :
    (ascending ls).filter (fun k => k.1 = a) = ls.filter (fun k => k.1 = a) :=
  filter_foldl_insertLine ls List.Pairwise.nil a

/-! ### The statements -/

/-- Settles O20: both runs of writes keep the invariant. -/
theorem loadKeepsTheInvariant : Obligations.LoadKeepsTheInvariant := by
  intro s t img hs h
  obtain ⟨u, hdata, hcode⟩ := load_written h
  exact hcode.inv (hdata.inv hs)

/-- An address without instruction line has none in ascending order either. -/
theorem Image.filter_code_eq_nil {img : Image} {a : Int} (h : img.hasCodeAt a = false) :
    (ascending img.code).filter (fun l => l.1 = a) = [] := by
  rw [filter_ascending, List.filter_eq_nil_iff]
  exact List.any_eq_false.1 h

/-- Of the lines of an address without instruction line none is hidden. -/
theorem Image.filter_data {img : Image} {a : Int} (h : img.hasCodeAt a = false) :
    (img.data.filter (fun l => !img.hasCodeAt l.1)).filter (fun l => l.1 = a) =
      img.data.filter (fun l => l.1 = a) := by
  rw [List.filter_filter]
  refine List.filter_congr fun l _ => ?_
  by_cases hl : l.1 = a
  · rw [hl, h, decide_eq_true rfl]; rfl
  · rw [decide_eq_false hl, Bool.false_and]

/-- Settles O7: the instruction lines are written after the data lines, and in each of the two the last line
of an address is written last. -/
theorem loaderGivesInstructionsPriority : Obligations.LoaderGivesInstructionsPriority := by
  intro s t img h
  obtain ⟨u, hdata, hcode⟩ := load_written h
  refine ⟨fun a text hlast => ?instruction, fun a v hno hlast => ?data, fun n hno hnone => ?neither,
    ?frame⟩
  case instruction =>
    rw [← filter_ascending] at hlast
    exact ⟨_, (hcode.cell_of_last hlast).2, rfl⟩
  case data =>
    rw [← Image.filter_data hno] at hlast
    obtain ⟨⟨h0, -⟩, hfits, hcell⟩ := hdata.cell_of_last hlast
    exact ⟨hfits, (hcode.cell_of_none h0 (Image.filter_code_eq_nil hno)).trans hcell⟩
  case neither =>
    rw [← Image.filter_data hno] at hnone
    have h0 : (0 : Int) ≤ n := Int.natCast_nonneg n
    exact (hcode.cell_of_none h0 (Image.filter_code_eq_nil hno)).trans (hdata.cell_of_none h0 hnone)
  case frame =>
    rw [hcode.frame, hdata.frame]

end Sys2Proof.Machine
end

section
/-! PROOFS. Construction (O19) and the bounded run (O18). -/

namespace Sys2Proof.Machine

/-! ### Construction -/

/-- A machine just constructed has empty memory, counters 0 and no record (R341), so all that is left of the
invariant is that its parameters are legal (R5). -/
theorem State.construct_inv {p : Params} (h : p.Valid) : (State.construct p).Inv :=
  ⟨h, rfl, rfl, Nat.zero_le _, Nat.zero_le _, Nat.zero_le _, fun _ => ⟨Nat.zero_le _, Nat.zero_le _⟩,
    trivial⟩

/-- Settles O19: reset is the construction with the standard parameters, and each value of R341 is the one
construction writes. -/
theorem resetMeetsTheInvariant : Obligations.ResetMeetsTheInvariant := by
  refine ⟨State.construct_inv (p := Params.standard) (by decide), fun _ h => State.construct_inv h,
    rfl, rfl, rfl, rfl, rfl, rfl, fun p => ?values⟩
  case values =>
    exact ⟨rfl, State.cell_construct p, rfl, rfl, rfl, rfl, rfl, rfl, rfl, rfl, rfl⟩

/-! ### The bounded run -/

/-- A run of a halted machine stays where it is (R142). -/
theorem run_of_halted {s : State} (h : s.halted = true) (n : Nat) :
    Host.Core.run Sys2Proof.core n s = .next s := by
  induction n with
  | zero => rfl
  | succ n ih => rw [run_succ n s s (haltedTickDoesNothing s h).1, ih]

/-- A machine with at most `n` ticks left below the hard cap is halted one tick after them: each tick counts
(R271), and the one past the cap halts. -/
theorem run_halts {n : Nat} {s : State} (h : s.cfg.hardCap ≤ s.wdTicks + n) :
    ∃ t, Host.Core.run Sys2Proof.core (n + 1) s = .next t ∧ t.halted = true := by
  induction n generalizing s with
  | zero =>
    cases hh : s.halted with
    | true => exact ⟨s, run_of_halted hh 1, hh⟩
    | false =>
      exact ⟨_, run_succ 0 s _ (step_of_hardCap hh (Nat.lt_succ_of_le h)), s.countTick.halt_halted _⟩
  | succ n ih =>
    cases hh : s.halted with
    | true => exact ⟨s, run_of_halted hh (n + 2), hh⟩
    | false =>
      obtain ⟨u, hu⟩ := step_next s
      obtain ⟨hticks, hcfg⟩ := step_counts hh hu
      obtain ⟨t, hrun, ht⟩ := ih (s := u) (by rw [hticks, hcfg]; omega)
      exact ⟨t, (run_succ (n + 1) s u hu).trans hrun, ht⟩

/-- Settles O18: a machine whose tick count is 0 has `HARD_CAP` ticks left below the cap. -/
theorem machineHaltsWithinTheHardCap : Obligations.MachineHaltsWithinTheHardCap := by
  intro s h0
  exact run_halts (by rw [h0, Nat.zero_add])

end Sys2Proof.Machine
end
